-- ==== Sys2Proof/Word.lean ====
section
/-! DEFINITION. The bit vectors HMIX32 computes on (spec/00_scope.md R7, R8): every value is an unsigned integer of
a stated width, bit 0 least significant. Wrapping `+`, `-`, `*`, logical `>>>` and truncating `<<<` of R9 are those
of `BitVec`. -/

namespace Sys2Proof

/-- A 32-bit value: registers, data words, digests, seeds (R7). -/
abbrev Word := BitVec 32

/-- A 64-bit value: the view of a wide lane and the constants of the wide path (R7, R170). -/
abbrev DWord := BitVec 64

/-- The content of one byte of memory. -/
abbrev Byte := BitVec 8

/-- A byte address of the buffer space (R60). -/
abbrev Addr := BitVec 32

end Sys2Proof
end

