-- ==== Sys2Proof/Syntax.lean ====
section
/-! DEFINITION. The instructions of HMIX32: one constructor for each of the 27 rows of spec/opcode_table.json, in the
table's order. The first thirteen are HOST transactions (spec/44_host_interface.md), the other fourteen are
micro-operations (spec/30_encoding.md R96). -/

namespace Sys2Proof

inductive Instr where
  /-- RD: read the register at byte offset `off` (R210). -/
  | rd (off : BitVec 5)
  /-- WR ADDR (R212). -/
  | wrAddr (v : Word)
  /-- WR LEN (R212). -/
  | wrLen (v : Word)
  /-- WR SEED (R212). -/
  | wrSeed (v : Word)
  /-- WR STATUS, ignored (R220). -/
  | wrStatus (v : Word)
  /-- WR DIGEST, ignored (R220). -/
  | wrDigest (v : Word)
  /-- WR FADDR, ignored (R220). -/
  | wrFaddr (v : Word)
  /-- WR to the reserved offset 0x1C, ignored (R220). -/
  | wrRsvd1c (v : Word)
  /-- WR CTRL, 0x0 (R213). -/
  | nop
  /-- WR CTRL, 0x1 (R215). -/
  | startSimple
  /-- WR CTRL, 0x3 (R216). -/
  | startAligned
  /-- WR CTRL, 0x5 (R217). -/
  | startWide
  /-- WR CTRL, 0x8 (R218). -/
  | clr
  /-- INIT32 (R123). -/
  | init32
  /-- WSTEP (R124). -/
  | wstep
  /-- TSTEP n (R125). -/
  | tstep (n : BitVec 3)
  /-- FIN32 (R126). -/
  | fin32
  /-- ASETUP a (R152). -/
  | asetup (a : BitVec 3)
  /-- ASTEP (R153). -/
  | astep
  /-- APACK p (R154). -/
  | apack (p : BitVec 3)
  /-- WINIT (R177). -/
  | winit
  /-- GSTEP n (R178). -/
  | gstep (n : BitVec 3)
  /-- SMALL c (R179). -/
  | small (c : BitVec 3)
  /-- BLK k (R180). -/
  | blk (k : BitVec 3)
  /-- SSTEP (R181). -/
  | sstep
  /-- LSTEP (R182). -/
  | lstep
  /-- WFIN (R183). -/
  | wfin
  deriving DecidableEq, Repr

end Sys2Proof
end

