-- ==== Sys2Proof/WellFormed.lean ====
section
/-! DEFINITION. Which operands an instruction may carry: the full-word offsets of a transaction (spec/30_encoding.md
R90) and the `arg` column of the micro-operation map (R96). -/

namespace Sys2Proof

/-- `off[1:0] = 0`: the transaction addresses a full word of the window (R90, R91). -/
def legalOffset (off : BitVec 5) : Bool := off.extractLsb' 0 2 == 0#2

/-- The `arg` values of TSTEP, ASETUP, GSTEP and SMALL: 1, 2, 3 (R96). -/
def legalArg13 (n : BitVec 3) : Bool := n == 1#3 || n == 2#3 || n == 3#3

/-- The `arg` values of APACK: 0, 1, 2, 3 (R96). -/
def legalArg03 (p : BitVec 3) : Bool := p == 0#3 || legalArg13 p

/-- The `arg` values of BLK: 1, 2, 3, 4 (R96). -/
def legalArg14 (k : BitVec 3) : Bool := legalArg13 k || k == 4#3

/-- The operand of an instruction is one its encoding admits. -/
def Instr.wellFormed : Instr → Bool
  | .rd off => legalOffset off
  | .wrAddr _ => true
  | .wrLen _ => true
  | .wrSeed _ => true
  | .wrStatus _ => true
  | .wrDigest _ => true
  | .wrFaddr _ => true
  | .wrRsvd1c _ => true
  | .nop => true
  | .startSimple => true
  | .startAligned => true
  | .startWide => true
  | .clr => true
  | .init32 => true
  | .wstep => true
  | .tstep n => legalArg13 n
  | .fin32 => true
  | .asetup a => legalArg13 a
  | .astep => true
  | .apack p => legalArg03 p
  | .winit => true
  | .gstep n => legalArg13 n
  | .small c => legalArg13 c
  | .blk k => legalArg14 k
  | .sstep => true
  | .lstep => true
  | .wfin => true

end Sys2Proof
end

