-- ==== Sys2Proof/Decode.lean ====
section
/-! DEFINITION. The decoder of both instruction levels (spec/30_encoding.md), total on any bits and refusing by name,
and the encoder written from the same tables. -/

namespace Sys2Proof

/-- An encoded instruction: the 38-bit word of a HOST transaction (R90) or a micro-operation byte (R95). -/
inductive Code where
  | txn (w : BitVec 38)
  | uop (b : Byte)
  deriving DecidableEq, Repr

/-- What the decoder answers. -/
inductive Decoded where
  /-- A row of the opcode table. -/
  | instr (i : Instr)
  /-- A write to CTRL of a value that is none of the five legal ones (R94). -/
  | badCommand (v : Word)
  /-- `off[1:0]` is not 0: no transaction of HMIX32 (R90, R221). -/
  | notATransaction (w : BitVec 38)
  /-- A reserved micro-operation byte (R98). -/
  | reservedUop (b : Byte)
  deriving DecidableEq, Repr

/-- The transaction word `{we, off[4:0], wdata[31:0]}` (R90). -/
def packTxn (we : Bool) (off : BitVec 5) (wdata : Word) : BitVec 38 := BitVec.ofBool we ++ off ++ wdata

/-- Bit 37, `we` (R90). -/
def txnWe (w : BitVec 38) : Bool := w.getLsbD 37

/-- Bits 36 to 32, `off` (R90). -/
def txnOff (w : BitVec 38) : BitVec 5 := w.extractLsb' 32 5

/-- Bits 31 to 0, `wdata` (R90). -/
def txnData (w : BitVec 38) : Word := w.extractLsb' 0 32

/-- The micro-operation byte `{op[4:0], arg[2:0]}` (R95). -/
def packUop (op : BitVec 5) (arg : BitVec 3) : Byte := op ++ arg

/-- Bits 7 to 3, `op` (R95). -/
def uopOp (b : Byte) : BitVec 5 := b.extractLsb' 3 5

/-- Bits 2 to 0, `arg` (R95). -/
def uopArg (b : Byte) : BitVec 3 := b.extractLsb' 0 3

/-- A value written to CTRL, matched on all 32 bits (R94). -/
def decodeCommand (v : Word) : Decoded :=
  if v = 0x00000000#32 then .instr .nop
  else if v = 0x00000001#32 then .instr .startSimple
  else if v = 0x00000003#32 then .instr .startAligned
  else if v = 0x00000005#32 then .instr .startWide
  else if v = 0x00000008#32 then .instr .clr
  else .badCommand v

/-- A HOST transaction (R90, R91): reads carry their offset only, writes are told apart by it. -/
def decodeTxn (w : BitVec 38) : Decoded :=
  if legalOffset (txnOff w) = false then .notATransaction w
  else if txnWe w = false then .instr (.rd (txnOff w))
  else if txnOff w = 0x00#5 then decodeCommand (txnData w)
  else if txnOff w = 0x04#5 then .instr (.wrStatus (txnData w))
  else if txnOff w = 0x08#5 then .instr (.wrAddr (txnData w))
  else if txnOff w = 0x0C#5 then .instr (.wrLen (txnData w))
  else if txnOff w = 0x10#5 then .instr (.wrSeed (txnData w))
  else if txnOff w = 0x14#5 then .instr (.wrDigest (txnData w))
  else if txnOff w = 0x18#5 then .instr (.wrFaddr (txnData w))
  else .instr (.wrRsvd1c (txnData w))

/-- The instruction a micro-operation byte names before its `arg` is checked (R96); `none` for an unused `op`. -/
def decodeOp (op : BitVec 5) (arg : BitVec 3) : Option Instr :=
  if op = 0x01#5 then (if arg = 0#3 then some .init32 else none)
  else if op = 0x02#5 then (if arg = 0#3 then some .wstep else none)
  else if op = 0x03#5 then some (.tstep arg)
  else if op = 0x04#5 then (if arg = 0#3 then some .fin32 else none)
  else if op = 0x05#5 then some (.asetup arg)
  else if op = 0x06#5 then (if arg = 0#3 then some .astep else none)
  else if op = 0x07#5 then some (.apack arg)
  else if op = 0x10#5 then (if arg = 0#3 then some .winit else none)
  else if op = 0x11#5 then some (.gstep arg)
  else if op = 0x12#5 then some (.small arg)
  else if op = 0x13#5 then some (.blk arg)
  else if op = 0x14#5 then (if arg = 0#3 then some .sstep else none)
  else if op = 0x15#5 then (if arg = 0#3 then some .lstep else none)
  else if op = 0x16#5 then (if arg = 0#3 then some .wfin else none)
  else none

/-- A micro-operation byte; a byte outside R96's table is reserved (R98). -/
def decodeUop (b : Byte) : Decoded :=
  match decodeOp (uopOp b) (uopArg b) with
  | some i => if i.wellFormed then .instr i else .reservedUop b
  | none => .reservedUop b

/-- The decoder on either level. -/
def decode : Code → Decoded
  | .txn w => decodeTxn w
  | .uop b => decodeUop b

/-- The encoding of an instruction (R90, R91, R94, R96). The data of a read, which the block ignores, is 0. -/
def encode : Instr → Code
  | .rd off => .txn (packTxn false off 0#32)
  | .wrAddr v => .txn (packTxn true 0x08#5 v)
  | .wrLen v => .txn (packTxn true 0x0C#5 v)
  | .wrSeed v => .txn (packTxn true 0x10#5 v)
  | .wrStatus v => .txn (packTxn true 0x04#5 v)
  | .wrDigest v => .txn (packTxn true 0x14#5 v)
  | .wrFaddr v => .txn (packTxn true 0x18#5 v)
  | .wrRsvd1c v => .txn (packTxn true 0x1C#5 v)
  | .nop => .txn (packTxn true 0x00#5 0x00000000#32)
  | .startSimple => .txn (packTxn true 0x00#5 0x00000001#32)
  | .startAligned => .txn (packTxn true 0x00#5 0x00000003#32)
  | .startWide => .txn (packTxn true 0x00#5 0x00000005#32)
  | .clr => .txn (packTxn true 0x00#5 0x00000008#32)
  | .init32 => .uop (packUop 0x01#5 0#3)
  | .wstep => .uop (packUop 0x02#5 0#3)
  | .tstep n => .uop (packUop 0x03#5 n)
  | .fin32 => .uop (packUop 0x04#5 0#3)
  | .asetup a => .uop (packUop 0x05#5 a)
  | .astep => .uop (packUop 0x06#5 0#3)
  | .apack p => .uop (packUop 0x07#5 p)
  | .winit => .uop (packUop 0x10#5 0#3)
  | .gstep n => .uop (packUop 0x11#5 n)
  | .small c => .uop (packUop 0x12#5 c)
  | .blk k => .uop (packUop 0x13#5 k)
  | .sstep => .uop (packUop 0x14#5 0#3)
  | .lstep => .uop (packUop 0x15#5 0#3)
  | .wfin => .uop (packUop 0x16#5 0#3)

/-- The instruction of a decoder's answer, if it is one. -/
def Decoded.instr? : Decoded → Option Instr
  | .instr i => some i
  | .badCommand _ => none
  | .notATransaction _ => none
  | .reservedUop _ => none

/-- The code whose bits are `w`, as the opcode table numbers them: 8-bit rows are micro-operation bytes, the others
are 38-bit transaction words (the bits above 37 of the table's whole bytes must be 0). -/
def tableCode (nbits w : Nat) : Option Code :=
  if nbits ≤ 8 then (if w < 2 ^ 8 then some (.uop (BitVec.ofNat 8 w)) else none)
  else if w < 2 ^ 38 then some (.txn (BitVec.ofNat 38 w)) else none

/-- The instruction the decoder reads from an opcode-table word; `none` where it refuses. -/
def decodeTableWord (nbits w : Nat) : Option Instr :=
  match tableCode nbits w with
  | some c => (decode c).instr?
  | none => none

end Sys2Proof
end

