-- ==== Sys2Proof/Config.lean ====
section
/-! DEFINITION. The configuration record of an instance (spec/00_scope.md R4 to R6, spec/43_wide_mixer.md R174): what
an implementation fixes and no step changes. The open values have no body, so nothing can be proved of them. -/

namespace Sys2Proof

/-- The names of the five constants of the wide path (R5). -/
inductive ConstName where
  | c1 | c2 | c3 | c4 | c5
  deriving DecidableEq, Repr, Inhabited

/-- The pair of constants (`A` against `lo`, `B` against `hi`) that one mix uses (R172 to R174). -/
structure ConstPair where
  a : ConstName
  b : ConstName
  deriving DecidableEq, Repr, Inhabited

/-- The table `CPAIR` of R174: the pair of every mix site. Data mixes are told apart by their lane; `len` is the
length-keyed mix of LSTEP. -/
structure ConstPairTable where
  lane0 : ConstPair
  lane1 : ConstPair
  lane2 : ConstPair
  lane3 : ConstPair
  len   : ConstPair
  deriving DecidableEq, Repr, Inhabited

/-- R174's own table: lane `j` uses `(C(j+1), C(j+2))`, the length-keyed mix `(C5, C1)`. -/
def ConstPairTable.standard : ConstPairTable where
  lane0 := ⟨.c1, .c2⟩
  lane1 := ⟨.c2, .c3⟩
  lane2 := ⟨.c3, .c4⟩
  lane3 := ⟨.c4, .c5⟩
  len   := ⟨.c5, .c1⟩

/-- A run of byte addresses `first .. first + size - 1` the memory port serves. -/
structure Region where
  first : Nat
  size  : Nat
  deriving DecidableEq, Repr, Inhabited

/-- The parameters of one HMIX32 (R4 to R6). `readable` lists the addresses for which `Readable` holds (log 3). -/
structure Config where
  /-- `M`, the multiplier of the 32-bit path (R4). -/
  m : Word
  /-- `C1` .. `C5`, the constants of the wide path (R5). -/
  c1 : DWord
  c2 : DWord
  c3 : DWord
  c4 : DWord
  c5 : DWord
  /-- `CPAIR` (R174). -/
  cpair : ConstPairTable
  /-- `UNALIGNED_OK` (R6). -/
  unalignedOk : Bool
  /-- `Readable` (R6), as the regions for which it holds. -/
  readable : List Region
  /-- `BASE` (R6, R91): where the register window stands in the HOST's address space. -/
  base : Nat
  deriving DecidableEq, Repr, Inhabited

/-- The conditions R4, R5 and spec/92_eei_decisions.md put on the parameters: odd constants, a 32-byte aligned
window. No meaning depends on them. -/
def Config.wf (c : Config) : Bool :=
  c.m.getLsbD 0 && c.c1.getLsbD 0 && c.c2.getLsbD 0 && c.c3.getLsbD 0 && c.c4.getLsbD 0 && c.c5.getLsbD 0
    && c.base % 32 == 0

/-- Bits 31 to 1 of the chip's `M` (R4: OPEN; bit 0 is 1). -/
opaque Config.chipM : BitVec 31
/-- Bits 63 to 1 of the chip's `C1` .. `C5` (R5: OPEN; bit 0 is 1). -/
opaque Config.chipC1 : BitVec 63
/-- See `Config.chipC1`. -/
opaque Config.chipC2 : BitVec 63
/-- See `Config.chipC1`. -/
opaque Config.chipC3 : BitVec 63
/-- See `Config.chipC1`. -/
opaque Config.chipC4 : BitVec 63
/-- See `Config.chipC1`. -/
opaque Config.chipC5 : BitVec 63
/-- The chip's `UNALIGNED_OK` (R6: OPEN). -/
opaque Config.chipUnalignedOk : Bool
/-- The chip's `Readable` (R6: OPEN). -/
opaque Config.chipReadable : List Region
/-- The chip's `BASE` divided by 32 (R6: OPEN; the window is 32-byte aligned). -/
opaque Config.chipBase : Nat

/-- The instance `State.reset` belongs to: every open parameter a value nothing can evaluate (log 2), `CPAIR` as
R174 fixes it (log 4). -/
def Config.chip : Config where
  m := Config.chipM ++ 1#1
  c1 := Config.chipC1 ++ 1#1
  c2 := Config.chipC2 ++ 1#1
  c3 := Config.chipC3 ++ 1#1
  c4 := Config.chipC4 ++ 1#1
  c5 := Config.chipC5 ++ 1#1
  cpair := .standard
  unalignedOk := Config.chipUnalignedOk
  readable := Config.chipReadable
  base := 32 * Config.chipBase

end Sys2Proof
end

