-- ==== Sys2Proof/Machine/State.lean ====
section
/-! DEFINITION. Everything the spec gives the machine (spec/10_state.md), the environment its reads are answered from
(spec/20_memory.md), the events that reach it (spec/00_scope.md R11), and how a step can stop. -/

namespace Sys2Proof.Machine

/-- The operating modes held in `MODEQ` (R21, R93); code 3 is never held (log 18). -/
inductive Mode where
  | simple | aligned | wide
  deriving DecidableEq, Repr, Inhabited

/-- The fifteen states of the sequencer register `SEQ` (R34, R100); code 15 is never held (log 18). -/
inductive SeqState where
  | idle | init | words | aset | awords | apacks | tail | fin
  | wsmall | wblk | wcasc | wword | wtail | wlen | wfins
  deriving DecidableEq, Repr, Inhabited

/-- The causes held in `STATUS.FCODE` (R101); codes 5 to 15 are never held (log 18). -/
inductive FaultCode where
  | none | badcmd | badlen | range | buserr
  deriving DecidableEq, Repr, Inhabited

/-- One wide lane, two 32-bit halves (R32). -/
structure Lane where
  lo : Word
  hi : Word
  deriving DecidableEq, Repr, Inhabited

/-- The four wide lanes `L[0]` .. `L[3]` (R32). -/
structure Lanes where
  l0 : Lane
  l1 : Lane
  l2 : Lane
  l3 : Lane
  deriving DecidableEq, Repr, Inhabited

/-- The two sizes the memory port is ever asked for (R61). -/
inductive ReadSize where
  | byte | word
  deriving DecidableEq, Repr, Inhabited

/-- One read request at the memory port (R61). -/
structure ReadReq where
  addr : Addr
  size : ReadSize
  deriving DecidableEq, Repr, Inhabited

/-- The buffer space: the bytes that differ from what an unlisted address reads as, at strictly rising addresses. -/
abbrev Memory := List Host.Cell

/-- One event of the schedule (R11, R280, R287; log 5). -/
inductive Event where
  /-- The HOST performs the transaction whose 38-bit word is `w` (R90). -/
  | txn (w : BitVec 38)
  /-- The HOST accesses `bytes` bytes at `hostAddr` of its own address space (R91; log 20). -/
  | access (we : Bool) (hostAddr : Nat) (bytes : Nat) (wdata : Word)
  /-- The MIXER is given its turn (R240). -/
  | mixer
  /-- The reset input (R280). -/
  | reset
  /-- Another agent of the platform stores one byte (R72, R286; log 17). -/
  | store (a : Addr) (b : Byte)
  deriving DecidableEq, Repr

/-- Why a step stops with a fault. The four faults of spec/60_exceptions.md are NOT here: taking one is a next state. -/
inductive Fault where
  /-- A MIXER turn with `BUSY = 1` and `SEQ = IDLE`: no row of R241 issues a micro-operation there, the MIXER has no
  step (log 13). Raised by fetching, in no reachable state. Safe: the model stops. -/
  | mixerHasNoStep
  deriving DecidableEq, Repr

/-- Why a step is refused. -/
inductive Refusal where
  /-- An instruction without a meaning: no arm of exec answers it. Safe. -/
  | notModelled (mnemonic : String)
  /-- A micro-operation byte that R98 reserves. Raised by a meaning asked for an illegal operand and by fetching, in no
  reachable state. Safe: R98 says the machine refuses it. -/
  | reservedUop (b : Byte)
  /-- A HOST access that is no transaction: narrow, misaligned, or outside the window. Raised by fetching and by RD of
  an illegal offset. Safe: R221 says a model refuses it. -/
  | notATransaction
  deriving DecidableEq, Repr

/-- The machine. -/
structure State where
  /-- `ADDR` (R20). -/
  addr : Word
  /-- `LEN` (R20). -/
  len : Word
  /-- `SEED` (R20). -/
  seed : Word
  /-- `DIGEST` (R24). -/
  digest : Word
  /-- `FADDR` (R25). -/
  faddr : Word
  /-- `MODEQ` (R21). -/
  modeq : Mode
  /-- `STATUS.BUSY` (R22). -/
  busy : Bool
  /-- `STATUS.DONE` (R22). -/
  done : Bool
  /-- `STATUS.FAULT` (R22). -/
  fault : Bool
  /-- `STATUS.FCODE` (R22, R101). -/
  fcode : FaultCode
  /-- `H` (R27). -/
  h : Word
  /-- `PTR` (R28). -/
  ptr : Word
  /-- `REM` (R28). -/
  rem : Word
  /-- `ALIGN` (R29). -/
  align : BitVec 2
  /-- `SL` (R29). -/
  sl : BitVec 5
  /-- `SR` (R29). -/
  sr : BitVec 5
  /-- `T` (R30). -/
  t : Word
  /-- `OLEN` (R31). -/
  olen : Word
  /-- `L[0]` .. `L[3]` (R32). -/
  lanes : Lanes
  /-- `SEQ` (R34). -/
  seq : SeqState
  /-- The instance's parameters (R35); no step writes them (log 1). -/
  cfg : Config
  /-- The buffer space (R60). -/
  mem : Memory
  /-- The pending events, next first (log 5). -/
  agenda : List Event
  /-- The values RD has returned to the HOST, oldest first (R210; log 7). -/
  hostReads : List Word
  /-- The requests the memory port has been given, oldest first (R70, R71; log 8). -/
  portLog : List ReadReq
  deriving DecidableEq, Repr

/-- The machine right after reset (R38, R280): every register zero, `SEQ = IDLE`. Nothing is listed in memory, no
event is pending, nothing has been read. -/
def State.reset : State where
  addr := 0
  len := 0
  seed := 0
  digest := 0
  faddr := 0
  modeq := .simple
  busy := false
  done := false
  fault := false
  fcode := .none
  h := 0
  ptr := 0
  rem := 0
  align := 0
  sl := 0
  sr := 0
  t := 0
  olen := 0
  lanes := ⟨⟨0, 0⟩, ⟨0, 0⟩, ⟨0, 0⟩, ⟨0, 0⟩⟩
  seq := .idle
  cfg := .chip
  mem := []
  agenda := []
  hostReads := []
  portLog := []

end Sys2Proof.Machine
end

