-- ==== Sys2Proof/Machine/Flags.lean ====
section
/-! DEFINITION. The codes of the enumerations and the words the flag bits are read as. The datapath has no flags
(spec/10_state.md R33): the only flag bits are those of STATUS. -/

namespace Sys2Proof.Machine

/-- The `MODE` code (R93). -/
def modeCode : Mode → BitVec 2
  | .simple => 0
  | .aligned => 1
  | .wide => 2

/-- The `SEQ` code (R100). -/
def seqCode : SeqState → BitVec 4
  | .idle => 0
  | .init => 1
  | .words => 2
  | .aset => 3
  | .awords => 4
  | .apacks => 5
  | .tail => 6
  | .fin => 7
  | .wsmall => 8
  | .wblk => 9
  | .wcasc => 10
  | .wword => 11
  | .wtail => 12
  | .wlen => 13
  | .wfins => 14

/-- The `FCODE` code (R101). -/
def faultCodeBits : FaultCode → BitVec 4
  | .none => 0
  | .badcmd => 1
  | .badlen => 2
  | .range => 3
  | .buserr => 4

/-- The word STATUS reads as (R22, R102): bit 0 BUSY, bit 1 DONE, bit 2 FAULT, bit 3 zero, bits 7:4 FCODE. -/
def statusWord (s : State) : Word :=
  0#24 ++ faultCodeBits s.fcode ++ 0#1 ++ BitVec.ofBool s.fault ++ BitVec.ofBool s.done ++ BitVec.ofBool s.busy

/-- The word CTRL reads as (R21): `MODEQ` in bits 2:1. -/
def ctrlWord (s : State) : Word := 0#29 ++ modeCode s.modeq ++ 0#1

end Sys2Proof.Machine
end

