-- ==== Sys2Proof/Machine/Ops.lean ====
section
/-! DEFINITION. The named operations over memory and registers: the buffer space, the memory port
(spec/20_memory.md), taking a fault and acknowledging one (spec/60_exceptions.md), reset (spec/70_reset_and_hazards.md)
and the writes a HOST transaction makes (spec/44_host_interface.md). -/

namespace Sys2Proof.Machine

/-! ### The buffer space -/

/-- What an address that memory does not list reads as (log 9: DESIGN CHOICE, the spec gives memory no reset
contents). -/
def unlistedByte : Byte := 0#8

/-- The byte at address `a`. -/
def Memory.readByte : Memory → Nat → Byte
  | [], _ => unlistedByte
  | (k, c) :: m, a => if a = k then c else readByte m a

/-- Memory with the byte at `a` replaced by `b`, in canonical form. -/
def Memory.writeByte : Memory → Nat → Byte → Memory
  | [], a, b => if b = unlistedByte then [] else [(a, b)]
  | (k, c) :: m, a, b =>
    if a < k then (if b = unlistedByte then (k, c) :: m else (a, b) :: (k, c) :: m)
    else if a = k then (if b = unlistedByte then m else (a, b) :: m)
    else (k, c) :: writeByte m a b

/-- Every listed address is at least `lo`, below 2^32, above the one before it, and lists no unlisted byte. -/
def Memory.wfFrom : Nat → Memory → Bool
  | _, [] => true
  | lo, (k, c) :: m => decide (lo ≤ k) && decide (k < 2 ^ 32) && decide (c ≠ unlistedByte) && wfFrom (k + 1) m

/-- The canonical form: strictly rising addresses of the 2^32-byte space (R60), no entry equal to what an unlisted
address reads as. -/
def Memory.wf (m : Memory) : Bool := Memory.wfFrom 0 m

/-! ### The memory port -/

/-- The answer to the reads of a micro-operation: the value they give, or the address of the first that failed (R254);
with either, the requests that were issued, in order. -/
inductive PortRead (α : Type) where
  | ok (v : α) (log : List ReadReq)
  | busError (a : Addr) (log : List ReadReq)
  deriving DecidableEq, Repr

/-- Reads after reads: a failed read stops those after it (R254). -/
def PortRead.bind {α β : Type} (r : PortRead α) (k : α → PortRead β) : PortRead β :=
  match r with
  | .busError a log => .busError a log
  | .ok v log =>
    match k v with
    | .ok w log' => .ok w (log ++ log')
    | .busError a log' => .busError a (log ++ log')

/-- A value that takes no read. -/
def PortRead.pure {α : Type} (v : α) : PortRead α := .ok v []

/-- A function of the value read. -/
def PortRead.map {α β : Type} (f : α → β) (r : PortRead α) : PortRead β := r.bind fun v => .pure (f v)

/-- The read if the condition holds, else 0 without a read (the `if` lines of R131). -/
def PortRead.when (c : Bool) (r : PortRead Word) : PortRead Word := if c then r else .pure 0

/-- How many bytes a request asks for (R61). -/
def ReadSize.bytes : ReadSize → Nat
  | .byte => 1
  | .word => 4

/-- The byte addresses of a request, lowest first (R62). -/
def ReadReq.addresses (q : ReadReq) : List Nat := (List.range q.size.bytes).map (q.addr.toNat + ·)

/-- `Readable` (R6). An address past 2^32 - 1 does not exist (log 10). -/
def readable (cfg : Config) (a : Nat) : Bool :=
  decide (a < 2 ^ 32) && cfg.readable.any fun r => decide (r.first ≤ a) && decide (a < r.first + r.size)

/-- The request is misaligned on a port that does not serve such a read (R62 step 1). -/
def refusedForAlignment (cfg : Config) (q : ReadReq) : Bool :=
  decide (q.size = .word) && decide (q.addr.toNat % 4 ≠ 0) && !cfg.unalignedOk

/-- The port serves the request (R62). -/
def served (cfg : Config) (q : ReadReq) : Bool := !refusedForAlignment cfg q && q.addresses.all (readable cfg)

/-- `MemRead(a, n)` (R62): the bytes at the request's addresses, or BusError with the request's address. -/
def memRead (s : State) (q : ReadReq) : PortRead (List Byte) :=
  if refusedForAlignment s.cfg q then .busError q.addr [q]
  else if q.addresses.all (readable s.cfg) then .ok (q.addresses.map s.mem.readByte) [q]
  else .busError q.addr [q]

/-- Bytes, lowest address first, as a little-endian value (R63, R65). -/
def leWord : List Byte → Word
  | [] => 0
  | b :: bs => b.setWidth 32 + (leWord bs <<< 8)

/-- `RD32(a)` (R63). -/
def rd32 (s : State) (a : Addr) : PortRead Word := (memRead s ⟨a, .word⟩).map leWord

/-- `RD8(a)` (R64). -/
def rd8 (s : State) (a : Addr) : PortRead Word := (memRead s ⟨a, .byte⟩).map leWord

/-- The bytes of a list of words read in ascending order from `p`, two words to a lane, `k` lanes (R180). -/
def rdPairs (s : State) (p : Addr) : Nat → PortRead (List (Word × Word))
  | 0 => .pure []
  | k + 1 =>
    (rd32 s p).bind fun w0 =>
    (rd32 s (p + 4#32)).bind fun w1 =>
    (rdPairs s (p + 8#32) k).bind fun rest => .pure ((w0, w1) :: rest)

/-! ### Taking a fault, and acknowledging one -/

/-- Fault entry (R256), the one operation all four faults share: the display is set, the block becomes idle, nothing
is saved and control goes nowhere. `fa` is the failed read's address for BUSERR and 0 otherwise. -/
def enterFault (code : FaultCode) (fa : Word) (s : State) : State :=
  { s with fault := true, fcode := code, done := false, busy := false, seq := .idle, faddr := fa }

/-- Clearing the display (R258): what CLR does (R218) and every START does first (R214). -/
def clearStatus (s : State) : State :=
  { s with done := false, fault := false, fcode := .none, faddr := 0 }

/-- The requests of a micro-operation reach the port (R71). -/
def logReads (log : List ReadReq) (s : State) : State := { s with portLog := s.portLog ++ log }

/-- A micro-operation: its reads, then all its register writes together (R10, R240); if a read failed, none of them,
and BUSERR with the failed read's address (R254). -/
def afterReads {α : Type} (r : PortRead α) (write : α → State → State) (s : State) : State :=
  match r with
  | .ok v log => write v (logReads log s)
  | .busError a log => enterFault .buserr a (logReads log s)

/-- The end of a run (R126, R183): the digest is delivered, `DONE` set, `BUSY` cleared. -/
def finish (d : Word) (s : State) : State :=
  { s with digest := d, done := true, busy := false, seq := .idle }

/-- `n` bytes are consumed (R28). -/
def advance (n : Word) (s : State) : State := { s with ptr := s.ptr + n, rem := s.rem - n }

/-! ### HOST transactions -/

/-- A write to CTRL, ADDR, LEN or SEED: dropped while a command runs (R219). -/
def whenIdle (f : State → State) (s : State) : State := if s.busy then s else f s

/-- START with mode `m` (R214): clear the display, then BADLEN, RANGE or acceptance, in that order (R255). -/
def startCommand (m : Mode) (s : State) : State :=
  let s := clearStatus s
  if s.len.getLsbD 31 then enterFault .badlen 0 s
  else if s.len ≠ 0#32 ∧ s.addr.toNat + s.len.toNat > 2 ^ 32 then enterFault .range 0 s
  else { s with modeq := m, busy := true, seq := .init }

/-- A CTRL write of an illegal value (R218, R251). -/
def badCommand (s : State) : State := enterFault .badcmd 0 s

/-- The value of a read reaches the HOST (R210). -/
def giveToHost (v : Word) (s : State) : State := { s with hostReads := s.hostReads ++ [v] }

/-! ### Reset and other agents -/

/-- Reset (R280, R281): every register as in `State.reset`; the parameters, memory and the environment's records are
not state of HMIX32 (R35) and stay (log 19). -/
def resetRegisters (s : State) : State :=
  { State.reset with
    cfg := s.cfg, mem := s.mem, agenda := s.agenda, hostReads := s.hostReads, portLog := s.portLog }

/-- Another agent stores a byte (R72, R286). -/
def storeByte (a : Addr) (b : Byte) (s : State) : State := { s with mem := s.mem.writeByte a.toNat b }

end Sys2Proof.Machine
end

