-- ==== Sys2Proof/Machine/Operands.lean ====
section
/-! DEFINITION. The operand forms: the register window as a HOST read sees it (spec/10_state.md R20 to R26), the byte
and word gathers of the micro-operations (spec/41_simple_mixer.md R131, spec/43_wide_mixer.md R175, R179), and the
HOST's address of the window (spec/30_encoding.md R91). -/

namespace Sys2Proof.Machine

/-- What a HOST read of byte offset `off` returns (R21 to R26, R91, R210); offset 0x1C and no register read 0. -/
def regRead (s : State) (off : BitVec 5) : Word :=
  if off = 0x00#5 then ctrlWord s
  else if off = 0x04#5 then statusWord s
  else if off = 0x08#5 then s.addr
  else if off = 0x0C#5 then s.len
  else if off = 0x10#5 then s.seed
  else if off = 0x14#5 then s.digest
  else if off = 0x18#5 then s.faddr
  else 0#32

/-- `TG(p, n)`, the tail gather (R131): offsets 2, 1, 0 in that order, those below `n`. -/
def tg (s : State) (p : Addr) (n : Nat) : PortRead Word :=
  (PortRead.when (decide (n ≥ 3)) ((rd8 s (p + 2#32)).map fun b : Word => b <<< 16)).bind fun k2 =>
  (PortRead.when (decide (n ≥ 2)) ((rd8 s (p + 1#32)).map fun b : Word => b <<< 8)).bind fun k1 =>
  (PortRead.when (decide (n ≥ 1)) (rd8 s p)).bind fun k0 =>
  .pure (0#32 + k2 + k1 + k0)

/-- `G3(p, n)`, the wide gather (R175): offsets 0, `n / 2`, `n - 1` in that order, three reads always. -/
def g3 (s : State) (p : Addr) (n : Nat) : PortRead Word :=
  (rd8 s p).bind fun b0 =>
  (rd8 s (p + BitVec.ofNat 32 (n / 2))).bind fun bm =>
  (rd8 s (p + BitVec.ofNat 32 (n - 1))).bind fun bl =>
  .pure ((b0 <<< 16) ||| (bm <<< 8) ||| bl)

/-- `W(i)` of SMALL (R179): the word at `ADDR + i`. -/
def wordAt (s : State) (i : Word) : PortRead Word := rd32 s (s.addr + i)

/-- The word pairs of SMALL (R179), lane 0 first, read in the order written there. -/
def smallPairs (s : State) (c : BitVec 3) : PortRead (List (Word × Word)) :=
  if c = 1#3 then
    (wordAt s 0#32).bind fun w0 =>
    (wordAt s (s.len - 4#32)).bind fun w1 => .pure [(w0, w1)]
  else if c = 2#3 then
    (wordAt s 0#32).bind fun w0 =>
    (wordAt s 4#32).bind fun w1 =>
    (wordAt s (s.len - 8#32)).bind fun w2 =>
    (wordAt s (s.len - 4#32)).bind fun w3 => .pure [(w0, w1), (w2, w3)]
  else
    (wordAt s 0#32).bind fun w0 =>
    (wordAt s 4#32).bind fun w1 =>
    (wordAt s 8#32).bind fun w2 =>
    (wordAt s (s.len - 4#32)).bind fun w3 => .pure [(w0, w1), (w2, w3)]

/-- The offset a full-word HOST access addresses, if it lies in the 32-byte window at `BASE` (R91); `none` for an
access that is narrower or wider than 32 bits or outside the window (R221). -/
def windowOffset (cfg : Config) (hostAddr bytes : Nat) : Option (BitVec 5) :=
  if bytes = 4 ∧ cfg.base ≤ hostAddr ∧ hostAddr < cfg.base + 32 then some (BitVec.ofNat 5 (hostAddr - cfg.base))
  else none

end Sys2Proof.Machine
end

