-- ==== Sys2Proof/Machine/HostPort.lean ====
section
/-! DEFINITION. The meanings of the HOST transactions and commands (spec/44_host_interface.md). -/

namespace Sys2Proof.Machine

/-- What a meaning answers. -/
abbrev Result := Host.Outcome State Fault Refusal

/-- RD (R210): the value of the register; no register of HMIX32 changes, busy or not. An offset that is not a full
word of the window is no transaction (R221). -/
def execRd (off : BitVec 5) (s : State) : Result :=
  if legalOffset off then .next (giveToHost (regRead s off) s) else .refused .notATransaction

/-- WR ADDR (R212, R219). -/
def execWrAddr (v : Word) (s : State) : Result := .next (whenIdle (fun t => { t with addr := v }) s)

/-- WR LEN (R212, R219). -/
def execWrLen (v : Word) (s : State) : Result := .next (whenIdle (fun t => { t with len := v }) s)

/-- WR SEED (R212, R219). -/
def execWrSeed (v : Word) (s : State) : Result := .next (whenIdle (fun t => { t with seed := v }) s)

/-- A write to a read-only register or the reserved offset: ignored at any time (R220). -/
def ignoredWrite (_v : Word) (s : State) : Result := .next s

/-- WR STATUS (R220). -/
def execWrStatus (v : Word) (s : State) : Result := ignoredWrite v s

/-- WR DIGEST (R220). -/
def execWrDigest (v : Word) (s : State) : Result := ignoredWrite v s

/-- WR FADDR (R220). -/
def execWrFaddr (v : Word) (s : State) : Result := ignoredWrite v s

/-- WR to offset 0x1C (R220). -/
def execWrRsvd1c (v : Word) (s : State) : Result := ignoredWrite v s

/-- NOP (R213, R219): no state changes. -/
def execNop (s : State) : Result := .next (whenIdle id s)

/-- START.SIMPLE (R214, R215, R219). -/
def execStartSimple (s : State) : Result := .next (whenIdle (startCommand .simple) s)

/-- START.ALIGNED (R214, R216, R219). -/
def execStartAligned (s : State) : Result := .next (whenIdle (startCommand .aligned) s)

/-- START.WIDE (R214, R217, R219). -/
def execStartWide (s : State) : Result := .next (whenIdle (startCommand .wide) s)

/-- CLR (R218, R219). -/
def execClr (s : State) : Result := .next (whenIdle clearStatus s)

end Sys2Proof.Machine
end

