-- ==== Sys2Proof/Machine/Mixing.lean ====
section
/-! DEFINITION. The datapath functions: MSX and MIX of the 32-bit path (spec/41_simple_mixer.md R121, R122), REC of the
aligned reader (spec/42_aligned_mixer.md R151), SMIX, DMIX and GROUP of the wide path (spec/43_wide_mixer.md R172,
R173, R176). All arithmetic wraps and is unsigned (R120, R170). -/

namespace Sys2Proof.Machine

/-- `MSX(h, r)`, multiply, shift, XOR (R121). -/
def msx (cfg : Config) (h : Word) (r : Nat) : Word :=
  let p := h * cfg.m
  p ^^^ (p >>> r)

/-- `MIX(h, k)`, the word step (R122). -/
def mix (cfg : Config) (h k : Word) : Word := msx cfg (h + k) 16

/-- The accumulator INIT32 starts from (R123). -/
def initialH (cfg : Config) (seed len : Word) : Word := seed ^^^ (len * cfg.m)

/-- The finalization of FIN32 (R126). -/
def finalH (cfg : Config) (h : Word) : Word := msx cfg (msx cfg h 10) 17

/-- `REC(t, d)` with the shift amounts `sr`, `sl` (R151). -/
def recombine (sr sl : BitVec 5) (t d : Word) : Word := (t >>> sr.toNat) ||| (d <<< sl.toNat)

/-- The constant a name of `CPAIR` stands for (R5, R174). -/
def constant (cfg : Config) : ConstName → DWord
  | .c1 => cfg.c1
  | .c2 => cfg.c2
  | .c3 => cfg.c3
  | .c4 => cfg.c4
  | .c5 => cfg.c5

/-- `DMIX` on one lane (R173): 32-bit operands enter zero-extended, the product keeps its low 64 bits, its halves are
the new `lo` and `hi`. -/
def dmix (cfg : Config) (pair : ConstPair) (l : Lane) (d1 d2 : Word) : Lane :=
  let x := constant cfg pair.a ^^^ d1.setWidth 64 ^^^ l.lo.setWidth 64
  let y := constant cfg pair.b ^^^ d2.setWidth 64 ^^^ l.hi.setWidth 64
  let p := x * y
  ⟨p.extractLsb' 0 32, p.extractLsb' 32 32⟩

/-- `SMIX` on one lane (R172). -/
def smix (cfg : Config) (pair : ConstPair) (l : Lane) (d : Word) : Lane :=
  let x := constant cfg pair.a ^^^ l.lo.setWidth 64 ^^^ d.setWidth 64
  let y := constant cfg pair.b ^^^ l.hi.setWidth 64
  let p := x * y
  ⟨p.extractLsb' 0 32, p.extractLsb' 32 32⟩

/-- The fold of one lane into another: the XOR of both halves (R176). -/
def foldLane (l x : Lane) : Lane := ⟨l.lo ^^^ x.lo, l.hi ^^^ x.hi⟩

/-- The copy stage of a group of `k` lanes (R176). -/
def copyStage (k : Nat) (l : Lanes) : Lanes :=
  { l0 := l.l0
    l1 := if 1 < k then l.l0 else l.l1
    l2 := if 2 < k then l.l0 else l.l2
    l3 := if 3 < k then l.l0 else l.l3 }

/-- One lane of the mix stage: the lane's own two words, if the group has that lane (R176). -/
def mixLane (cfg : Config) (pair : ConstPair) (l : Lane) (ws : Option (Word × Word)) : Lane :=
  match ws with
  | some (d1, d2) => dmix cfg pair l d1 d2
  | none => l

/-- The mix stage: lane `j` mixes words `w(2j)`, `w(2j+1)` with its own constants (R174, R176). -/
def mixStage (cfg : Config) (ws : List (Word × Word)) (l : Lanes) : Lanes :=
  { l0 := mixLane cfg cfg.cpair.lane0 l.l0 ws[0]?
    l1 := mixLane cfg cfg.cpair.lane1 l.l1 ws[1]?
    l2 := mixLane cfg cfg.cpair.lane2 l.l2 ws[2]?
    l3 := mixLane cfg cfg.cpair.lane3 l.l3 ws[3]? }

/-- The fold stage of a group of `k` lanes (R176). -/
def foldStage (k : Nat) (l : Lanes) : Lanes :=
  let a := if 1 < k then foldLane l.l0 l.l1 else l.l0
  let b := if 2 < k then foldLane a l.l2 else a
  { l with l0 := if 3 < k then foldLane b l.l3 else b }

/-- `GROUP(k, w0, .., w(2k-1))` (R176), `k` being the number of word pairs: copy, mix, fold. Lanes `k` to 3 stay. -/
def group (cfg : Config) (ws : List (Word × Word)) (l : Lanes) : Lanes :=
  foldStage ws.length (mixStage cfg ws (copyStage ws.length l))

/-- A single-word mix on the primary lane, the scratch lanes untouched (R178, R181, R182). -/
def smixPrimary (cfg : Config) (pair : ConstPair) (d : Word) (l : Lanes) : Lanes :=
  { l with l0 := smix cfg pair l.l0 d }

/-- The seed pair WINIT starts from (R177). -/
def seedLane (seed : Word) : Lane := ⟨seed + 1#32, seed - 1#32⟩

/-- The digest of the wide path (R183). -/
def laneDigest (l : Lane) : Word := l.lo ^^^ l.hi

end Sys2Proof.Machine
end

