-- ==== Sys2Proof/Machine/Sequencer.lean ====
section
/-! DEFINITION. The sequencer's table (spec/45_sequencer.md R241): the micro-operation byte issued in each state, and
the state that follows each micro-operation. -/

namespace Sys2Proof.Machine

/-- The byte of `op` with the operand the sequencer computed (R95, R97). An operand that does not fit the 3-bit field
gives 0x00, no micro-operation: the parenthesised conditions of R241 exclude it (log 14). -/
def opByte (op : BitVec 5) (arg : Nat) : Byte :=
  if arg < 8 then packUop op (BitVec.ofNat 3 arg) else 0x00#8

/-- The size class SMALL is issued with (R97, R241). -/
def smallClass (len : Word) : Nat :=
  if len.toNat ≤ 8 then 1 else if len.toNat ≤ 12 then 2 else 3

/-- The lane count BLK is issued with in state WCASC (R97, R241). -/
def cascadeLanes (rem : Word) : Nat :=
  if rem.toNat ≥ 24 then 3 else if rem.toNat ≥ 16 then 2 else 1

/-- The micro-operation byte the sequencer issues (R241, first three columns); 0x00 while IDLE (R98). -/
def issue (s : State) : Byte :=
  match s.seq with
  | .idle => 0x00#8
  | .init => if s.modeq = .wide then opByte 0x10#5 0 else opByte 0x01#5 0
  | .words => opByte 0x02#5 0
  | .aset => opByte 0x05#5 s.align.toNat
  | .awords => opByte 0x06#5 0
  | .apacks => opByte 0x07#5 (min s.rem.toNat s.align.toNat)
  | .tail => opByte 0x03#5 s.rem.toNat
  | .fin => opByte 0x04#5 0
  | .wsmall => opByte 0x12#5 (smallClass s.len)
  | .wblk => opByte 0x13#5 4
  | .wcasc => opByte 0x13#5 (cascadeLanes s.rem)
  | .wword => opByte 0x14#5 0
  | .wtail => opByte 0x11#5 s.rem.toNat
  | .wlen => opByte 0x15#5 0
  | .wfins => opByte 0x16#5 0

/-- `NW(r)` (R241). -/
def nw (r : Word) : SeqState :=
  if r.toNat ≥ 4 then .words else if r.toNat ≥ 1 then .tail else .fin

/-- `NT(r)` (R241). R241 uses it only for `r ≤ 7`; beyond, the model keeps WWORD (log 14). -/
def nt (r : Word) : SeqState :=
  if r.toNat ≥ 4 then .wword else if r.toNat ≥ 1 then .wtail else .wlen

/-- `NC(r)` (R241). -/
def nc (r : Word) : SeqState :=
  if 8 ≤ r.toNat ∧ r.toNat ≤ 31 then .wcasc else nt r

/-- After INIT32 (R241, rows INIT with SIMPLE and ALIGNED), from the registers before it. -/
def afterInit32 (s : State) : SeqState :=
  if s.modeq = .aligned ∧ s.addr.extractLsb' 0 2 ≠ 0#2 ∧ s.len.toNat ≥ 4 then .aset else nw s.len

/-- After ASETUP and after ASTEP (R241), from `REM'`. -/
def afterAligned (r : Word) : SeqState := if r.toNat ≥ 4 then .awords else .apacks

/-- After APACK (R241), from `REM'`. -/
def afterApack (r : Word) : SeqState := if r.toNat ≥ 1 then .tail else .fin

/-- After WINIT (R241), from `LEN`. -/
def afterWinit (len : Word) : SeqState :=
  if len.toNat ≥ 32 then .wblk
  else if len.toNat ≥ 17 then .wcasc
  else if len.toNat ≥ 4 then .wsmall
  else if len.toNat ≥ 1 then .wtail
  else .wlen

/-- After BLK `k` (R241, row WBLK for `k = 4`, row WCASC else), from `REM'`. -/
def afterBlk (k : BitVec 3) (r : Word) : SeqState :=
  if k = 4#3 then (if r.toNat ≥ 32 then .wblk else nc r) else nt r

/-- After SSTEP (R241), from `REM'`. -/
def afterSstep (r : Word) : SeqState := if r.toNat ≥ 1 then .wtail else .wlen

end Sys2Proof.Machine
end

