-- ==== Sys2Proof/Machine/SimpleMixer.lean ====
section
/-! DEFINITION. The meanings of the micro-operations of the 32-bit sequential path (spec/41_simple_mixer.md), each with
the next state R241 gives. -/

namespace Sys2Proof.Machine

/-- INIT32 (R123). -/
def execInit32 (s : State) : Result :=
  .next { s with
    h := initialH s.cfg s.seed s.len
    ptr := s.addr
    rem := s.len
    align := s.addr.extractLsb' 0 2
    seq := afterInit32 s }

/-- The register writes of WSTEP (R124), the word being `k`. -/
def writeWstep (k : Word) (s : State) : State :=
  { advance 4#32 s with h := mix s.cfg s.h k, seq := nw (s.rem - 4#32) }

/-- WSTEP (R124). -/
def execWstep (s : State) : Result := .next (afterReads (rd32 s s.ptr) writeWstep s)

/-- The register writes of TSTEP `n` (R125), the gathered bytes being `k`. -/
def writeTstep (n : BitVec 3) (k : Word) (s : State) : State :=
  { s with h := mix s.cfg s.h k, ptr := s.ptr + n.setWidth 32, rem := 0, seq := .fin }

/-- TSTEP n (R125); an `n` outside 1..3 is a reserved byte (R98). -/
def execTstep (n : BitVec 3) (s : State) : Result :=
  if legalArg13 n then .next (afterReads (tg s s.ptr n.toNat) (writeTstep n) s)
  else .refused (.reservedUop (packUop 0x03#5 n))

/-- FIN32 (R126). -/
def execFin32 (s : State) : Result :=
  .next (finish (finalH s.cfg s.h) { s with h := finalH s.cfg s.h })

end Sys2Proof.Machine
end

