-- ==== Sys2Proof/Machine/AlignedMixer.lean ====
section
/-! DEFINITION. The meanings of the micro-operations of the aligned reader (spec/42_aligned_mixer.md), each with the
next state R241 gives. -/

namespace Sys2Proof.Machine

/-- The register writes of ASETUP `a` (R150, R152), the leading bytes being `g`. -/
def writeAsetup (a : BitVec 3) (g : Word) (s : State) : State :=
  let n := 4 - a.toNat
  { advance (BitVec.ofNat 32 n) s with
    t := g <<< (8 * a.toNat)
    sl := BitVec.ofNat 5 (8 * n)
    sr := BitVec.ofNat 5 (8 * a.toNat)
    seq := afterAligned (s.rem - BitVec.ofNat 32 n) }

/-- ASETUP a (R152); an `a` outside 1..3 is a reserved byte (R98). -/
def execAsetup (a : BitVec 3) (s : State) : Result :=
  if legalArg13 a then .next (afterReads (tg s s.ptr (4 - a.toNat)) (writeAsetup a) s)
  else .refused (.reservedUop (packUop 0x05#5 a))

/-- The register writes of ASTEP (R153), the aligned word being `d`. -/
def writeAstep (d : Word) (s : State) : State :=
  { advance 4#32 s with
    h := mix s.cfg s.h (recombine s.sr s.sl s.t d)
    t := d
    seq := afterAligned (s.rem - 4#32) }

/-- ASTEP (R153). -/
def execAstep (s : State) : Result := .next (afterReads (rd32 s s.ptr) writeAstep s)

/-- The register writes of APACK `p` (R154), the leftover bytes being `d`. -/
def writeApack (p : BitVec 3) (d : Word) (s : State) : State :=
  { advance (p.setWidth 32) s with
    h := mix s.cfg s.h (recombine s.sr s.sl s.t d)
    seq := afterApack (s.rem - p.setWidth 32) }

/-- APACK p (R154); a `p` outside 0..3 is a reserved byte (R98). -/
def execApack (p : BitVec 3) (s : State) : Result :=
  if legalArg03 p then .next (afterReads (tg s s.ptr p.toNat) (writeApack p) s)
  else .refused (.reservedUop (packUop 0x07#5 p))

end Sys2Proof.Machine
end

