-- ==== Sys2Proof/Machine/WideMixer.lean ====
section
/-! DEFINITION. The meanings of the micro-operations of the wide-parallel path (spec/43_wide_mixer.md), each with the
next state R241 gives. The constants of every mix come from `CPAIR` (R174). -/

namespace Sys2Proof.Machine

/-- WINIT (R177). -/
def execWinit (s : State) : Result :=
  .next { s with
    lanes := { s.lanes with l0 := seedLane s.seed }
    olen := s.len
    ptr := s.addr
    rem := s.len
    align := s.addr.extractLsb' 0 2
    seq := afterWinit s.len }

/-- The register writes of GSTEP `n` (R178), the gathered word being `w`. -/
def writeGstep (n : BitVec 3) (w : Word) (s : State) : State :=
  { s with
    lanes := smixPrimary s.cfg s.cfg.cpair.lane0 w s.lanes
    ptr := s.ptr + n.setWidth 32
    rem := 0
    seq := .wlen }

/-- GSTEP n (R178); an `n` outside 1..3 is a reserved byte (R98). -/
def execGstep (n : BitVec 3) (s : State) : Result :=
  if legalArg13 n then .next (afterReads (g3 s s.ptr n.toNat) (writeGstep n) s)
  else .refused (.reservedUop (packUop 0x11#5 n))

/-- The register writes of SMALL (R179), the word pairs being `ws`. -/
def writeSmall (ws : List (Word × Word)) (s : State) : State :=
  { s with lanes := group s.cfg ws s.lanes, ptr := s.ptr + s.len, rem := 0, seq := .wlen }

/-- SMALL c (R179); a `c` outside 1..3 is a reserved byte (R98). -/
def execSmall (c : BitVec 3) (s : State) : Result :=
  if legalArg13 c then .next (afterReads (smallPairs s c) writeSmall s)
  else .refused (.reservedUop (packUop 0x12#5 c))

/-- The register writes of BLK `k` (R180), the word pairs being `ws`. -/
def writeBlk (k : BitVec 3) (ws : List (Word × Word)) (s : State) : State :=
  { advance (BitVec.ofNat 32 (8 * k.toNat)) s with
    lanes := group s.cfg ws s.lanes
    seq := afterBlk k (s.rem - BitVec.ofNat 32 (8 * k.toNat)) }

/-- BLK k (R180); a `k` outside 1..4 is a reserved byte (R98). -/
def execBlk (k : BitVec 3) (s : State) : Result :=
  if legalArg14 k then .next (afterReads (rdPairs s s.ptr k.toNat) (writeBlk k) s)
  else .refused (.reservedUop (packUop 0x13#5 k))

/-- The register writes of SSTEP (R181), the word being `w`. -/
def writeSstep (w : Word) (s : State) : State :=
  { advance 4#32 s with
    lanes := smixPrimary s.cfg s.cfg.cpair.lane0 w s.lanes
    seq := afterSstep (s.rem - 4#32) }

/-- SSTEP (R181). -/
def execSstep (s : State) : Result := .next (afterReads (rd32 s s.ptr) writeSstep s)

/-- LSTEP (R182). -/
def execLstep (s : State) : Result :=
  .next { s with lanes := smixPrimary s.cfg s.cfg.cpair.len s.olen s.lanes, seq := .wfins }

/-- WFIN (R183). -/
def execWfin (s : State) : Result := .next (finish (laneDigest s.lanes.l0) s)

end Sys2Proof.Machine
end

