-- ==== Sys2Proof/Machine/Dispatch.lean ====
section
/-! DEFINITION. One arm per instruction, each a direct call of its meaning. -/

namespace Sys2Proof.Machine

def exec (i : Instr) (s : State) : Host.Outcome State Fault Refusal :=
  match i with
  | .rd off => Sys2Proof.Machine.execRd off s
  | .wrAddr v => Sys2Proof.Machine.execWrAddr v s
  | .wrLen v => Sys2Proof.Machine.execWrLen v s
  | .wrSeed v => Sys2Proof.Machine.execWrSeed v s
  | .wrStatus v => Sys2Proof.Machine.execWrStatus v s
  | .wrDigest v => Sys2Proof.Machine.execWrDigest v s
  | .wrFaddr v => Sys2Proof.Machine.execWrFaddr v s
  | .wrRsvd1c v => Sys2Proof.Machine.execWrRsvd1c v s
  | .nop => Sys2Proof.Machine.execNop s
  | .startSimple => Sys2Proof.Machine.execStartSimple s
  | .startAligned => Sys2Proof.Machine.execStartAligned s
  | .startWide => Sys2Proof.Machine.execStartWide s
  | .clr => Sys2Proof.Machine.execClr s
  | .init32 => Sys2Proof.Machine.execInit32 s
  | .wstep => Sys2Proof.Machine.execWstep s
  | .tstep n => Sys2Proof.Machine.execTstep n s
  | .fin32 => Sys2Proof.Machine.execFin32 s
  | .asetup a => Sys2Proof.Machine.execAsetup a s
  | .astep => Sys2Proof.Machine.execAstep s
  | .apack p => Sys2Proof.Machine.execApack p s
  | .winit => Sys2Proof.Machine.execWinit s
  | .gstep n => Sys2Proof.Machine.execGstep n s
  | .small c => Sys2Proof.Machine.execSmall c s
  | .blk k => Sys2Proof.Machine.execBlk k s
  | .sstep => Sys2Proof.Machine.execSstep s
  | .lstep => Sys2Proof.Machine.execLstep s
  | .wfin => Sys2Proof.Machine.execWfin s

end Sys2Proof.Machine
end

