-- ==== Sys2Proof/Machine/Fetch.lean ====
section
/-! DEFINITION. What comes next: the first event of the agenda (spec/00_scope.md R11), the transaction it carries or
the micro-operation the sequencer issues (spec/45_sequencer.md R240), and how an opcode-table word is put there. -/

namespace Sys2Proof.Machine

/-- What a step finds to do. -/
inductive Fetched where
  /-- The instruction to run, and the state it runs in. -/
  | run (i : Instr) (s : State)
  /-- An event that is no instruction has had its effect. -/
  | settled (s : State)
  | stuck (f : Fault)
  | refuse (r : Refusal)
  deriving DecidableEq, Repr

/-- The HOST's transaction `w` (R90, R211): a row of the table runs; an illegal CTRL value raises BADCMD unless a
command runs (R218, R219, R251; log 11); a misaligned offset is refused (R221). -/
def hostTurn (w : BitVec 38) (s : State) : Fetched :=
  match decodeTxn w with
  | .instr i => .run i s
  | .badCommand _ => .settled (whenIdle badCommand s)
  | .notATransaction _ => .refuse .notATransaction
  | .reservedUop _ => .refuse .notATransaction

/-- The HOST's access of its own address space (R91, R221). -/
def accessTurn (we : Bool) (hostAddr bytes : Nat) (wdata : Word) (s : State) : Fetched :=
  match windowOffset s.cfg hostAddr bytes with
  | some off => hostTurn (packTxn we off wdata) s
  | none => .refuse .notATransaction

/-- The MIXER's turn (R240): no step while idle (log 12), else the micro-operation the sequencer issues. -/
def mixerTurn (s : State) : Fetched :=
  if s.busy = false then .settled s
  else if s.seq = .idle then .stuck .mixerHasNoStep
  else
    match decodeUop (issue s) with
    | .instr i => .run i s
    | .badCommand _ => .refuse (.reservedUop (issue s))
    | .notATransaction _ => .refuse (.reservedUop (issue s))
    | .reservedUop b => .refuse (.reservedUop b)

/-- The next event, taken off the agenda. With no event pending the MIXER moves (R287, weak fairness; log 5). -/
def fetch (s : State) : Fetched :=
  match s.agenda with
  | [] => mixerTurn s
  | .txn w :: es => hostTurn w { s with agenda := es }
  | .access we ha n d :: es => accessTurn we ha n d { s with agenda := es }
  | .mixer :: es => mixerTurn { s with agenda := es }
  | .reset :: es => .settled (resetRegisters { s with agenda := es })
  | .store a b :: es => .settled (storeByte a b { s with agenda := es })

/-- `s` with the transaction word next on the agenda. -/
def placeTxn (w : BitVec 38) (s : State) : State := { s with agenda := .txn w :: s.agenda }

/-- `s` with a MIXER turn next and the sequencer in state `q` of a running command. -/
def placeTurn (q : SeqState) (s : State) : State :=
  { s with agenda := .mixer :: s.agenda, busy := true, seq := q }

/-- `s` with the registers the sequencer reads set so that its next turn issues the micro-operation `i` (R241): the
state, and the mode or count the operand comes from. A HOST instruction leaves `s`. -/
def placeUop (i : Instr) (s : State) : State :=
  match i with
  | .init32 => placeTurn .init { s with modeq := .simple }
  | .wstep => placeTurn .words s
  | .tstep n => placeTurn .tail { s with rem := n.setWidth 32 }
  | .fin32 => placeTurn .fin s
  | .asetup a => placeTurn .aset { s with align := a.setWidth 2 }
  | .astep => placeTurn .awords s
  | .apack p => placeTurn .apacks { s with rem := p.setWidth 32, align := p.setWidth 2 }
  | .winit => placeTurn .init { s with modeq := .wide }
  | .gstep n => placeTurn .wtail { s with rem := n.setWidth 32 }
  | .small c => placeTurn .wsmall { s with len := BitVec.ofNat 32 (4 * c.toNat + 1) }
  | .blk k =>
    if k = 4#3 then placeTurn .wblk s else placeTurn .wcasc { s with rem := BitVec.ofNat 32 (8 * k.toNat) }
  | .sstep => placeTurn .wword s
  | .lstep => placeTurn .wlen s
  | .wfin => placeTurn .wfins s
  | .rd _ => s
  | .wrAddr _ => s
  | .wrLen _ => s
  | .wrSeed _ => s
  | .wrStatus _ => s
  | .wrDigest _ => s
  | .wrFaddr _ => s
  | .wrRsvd1c _ => s
  | .nop => s
  | .startSimple => s
  | .startAligned => s
  | .startWide => s
  | .clr => s

/-- `s` with an opcode-table word where the next step finds its instruction (log 6). A byte R98 reserves leaves the
sequencer in IDLE, where the bus carries no micro-operation. -/
def placeCode (c : Code) (s : State) : State :=
  match c with
  | .txn w => placeTxn w s
  | .uop b =>
    match decodeUop b with
    | .instr i => placeUop i s
    | .badCommand _ => placeTurn .idle s
    | .notATransaction _ => placeTurn .idle s
    | .reservedUop _ => placeTurn .idle s

end Sys2Proof.Machine
end

