-- ==== Sys2Proof/Machine/Step.lean ====
section
/-! DEFINITION. One step of the machine (spec/00_scope.md R11): one event of the agenda, or one MIXER step. -/

namespace Sys2Proof.Machine

/-- Fetch what comes next and run it. -/
def step (s : State) : Host.Outcome State Fault Refusal :=
  match fetch s with
  | .run i t => exec i t
  | .settled t => .next t
  | .stuck f => .fault f
  | .refuse r => .refused r

/-- `s` with an opcode-table word placed so that the very next step fetches and runs exactly it (log 6). -/
def State.withFetchWord (s : State) (nbits w : Nat) : State :=
  match tableCode nbits w with
  | some c => placeCode c s
  | none => s

end Sys2Proof.Machine
end

