-- ==== Sys2Proof/Machine/Digest.lean ====
section
/-! DEFINITION. The digest functions of the modes as functions of the buffer's bytes alone (spec/41_simple_mixer.md
R128, spec/43_wide_mixer.md R185); the ALIGNED mode has SIMPLE's (spec/42_aligned_mixer.md R157). `B i` is the byte at
offset `i` of the buffer. No meaning uses these: claims are stated with them. -/

namespace Sys2Proof.Machine

/-- The little-endian word at offset `i` (R128, R185). -/
def bufferWord (B : Nat → Byte) (i : Nat) : Word :=
  (B i).setWidth 32 + ((B (i + 1)).setWidth 32 <<< 8) + ((B (i + 2)).setWidth 32 <<< 16)
    + ((B (i + 3)).setWidth 32 <<< 24)

/-- The tail value of the `t` bytes from offset `i` (R128). -/
def bufferTail (B : Nat → Byte) (i t : Nat) : Word :=
  (if t ≥ 3 then (B (i + 2)).setWidth 32 <<< 16 else 0) + (if t ≥ 2 then (B (i + 1)).setWidth 32 <<< 8 else 0)
    + (B i).setWidth 32

/-- The word loop of R128: `q` words from word index `i`. -/
def simpleLoop (cfg : Config) (B : Nat → Byte) : Nat → Nat → Word → Word
  | 0, _, h => h
  | q + 1, i, h => simpleLoop cfg B q (i + 1) (mix cfg h (bufferWord B (4 * i)))

/-- `SimpleDigest(B, n, s)` (R128). -/
def simpleDigest (cfg : Config) (B : Nat → Byte) (n : Nat) (seed : Word) : Word :=
  let h := simpleLoop cfg B (n / 4) 0 (seed ^^^ (BitVec.ofNat 32 n * cfg.m))
  let h := if n % 4 ≠ 0 then mix cfg h (bufferTail B (4 * (n / 4)) (n % 4)) else h
  msx cfg (msx cfg h 10) 17

/-- `g3(i, m)` (R185). -/
def bufferGather (B : Nat → Byte) (i m : Nat) : Word :=
  ((B i).setWidth 32 <<< 16) ||| ((B (i + m / 2)).setWidth 32 <<< 8) ||| (B (i + m - 1)).setWidth 32

/-- The `k` word pairs from offset `o` (R185). -/
def bufferPairs (B : Nat → Byte) (o k : Nat) : List (Word × Word) :=
  (List.range k).map fun j => (bufferWord B (o + 8 * j), bufferWord B (o + 8 * j + 4))

/-- `group` on the primary lane (R176, R185): the scratch lanes start as copies of it. -/
def groupLane (cfg : Config) (ws : List (Word × Word)) (l : Lane) : Lane := (group cfg ws ⟨l, l, l, l⟩).l0

/-- The block loop of R185: `q` blocks of 32 bytes from offset `o`. -/
def wideBlocks (cfg : Config) (B : Nat → Byte) : Nat → Nat → Lane → Lane
  | 0, _, l => l
  | q + 1, o, l => wideBlocks cfg B q (o + 32) (groupLane cfg (bufferPairs B o 4) l)

/-- The leftover tail of R185: at most 3 bytes from offset `o`. -/
def wideTail (cfg : Config) (B : Nat → Byte) (o r : Nat) (l : Lane) : Lane :=
  if r ≥ 1 then smix cfg cfg.cpair.lane0 l (bufferGather B o r) else l

/-- The 4-byte band of R185 and what follows it: at most 7 bytes from offset `o`. -/
def wideWord (cfg : Config) (B : Nat → Byte) (o r : Nat) (l : Lane) : Lane :=
  if r ≥ 4 then wideTail cfg B (o + 4) (r - 4) (smix cfg cfg.cpair.lane0 l (bufferWord B o))
  else wideTail cfg B o r l

/-- The 24, 16 and 8 bands of R185 and what follows them: at most 31 bytes from offset `o`. -/
def wideCascade (cfg : Config) (B : Nat → Byte) (o r : Nat) (l : Lane) : Lane :=
  if r ≥ 24 then wideWord cfg B (o + 24) (r - 24) (groupLane cfg (bufferPairs B o 3) l)
  else if r ≥ 16 then wideWord cfg B (o + 16) (r - 16) (groupLane cfg (bufferPairs B o 2) l)
  else if r ≥ 8 then wideWord cfg B (o + 8) (r - 8) (groupLane cfg (bufferPairs B o 1) l)
  else wideWord cfg B o r l

/-- The primary lane of R185 after the buffer's bytes and before the length-keyed mix. -/
def wideBody (cfg : Config) (B : Nat → Byte) (n : Nat) (l : Lane) : Lane :=
  if n ≤ 3 then wideTail cfg B 0 n l
  else if n ≤ 8 then groupLane cfg [(bufferWord B 0, bufferWord B (n - 4))] l
  else if n ≤ 12 then
    groupLane cfg [(bufferWord B 0, bufferWord B 4), (bufferWord B (n - 8), bufferWord B (n - 4))] l
  else if n ≤ 16 then
    groupLane cfg [(bufferWord B 0, bufferWord B 4), (bufferWord B 8, bufferWord B (n - 4))] l
  else wideCascade cfg B (32 * (n / 32)) (n % 32) (wideBlocks cfg B (n / 32) 0 l)

/-- `WideDigest(B, n, s)` (R185), the constants being those of `CPAIR` (R174). -/
def wideDigest (cfg : Config) (B : Nat → Byte) (n : Nat) (seed : Word) : Word :=
  let l := wideBody cfg B n ⟨seed + 1, seed - 1⟩
  let l := smix cfg cfg.cpair.len l (BitVec.ofNat 32 n)
  l.lo ^^^ l.hi

end Sys2Proof.Machine
end

