-- ==== Sys2Proof/Safety.lean ====
section
/-! DEFINITION. What claims are stated in: the invariant of reachable states (spec/10_state.md R23, R25, R28, R29, R31,
spec/45_sequencer.md R241), the buffer of a command and the stable-buffer premise (spec/20_memory.md R72), the reads
of a micro-operation (R70). -/

namespace Sys2Proof.Machine

/-! ### The invariant -/

/-- The status invariant (R23), and FADDR is 0 unless it records a BUSERR (R25). -/
abbrev StatusOk (s : State) : Prop :=
  (s.busy = true → s.done = false ∧ s.fault = false) ∧
  (s.done = true → s.fault = false) ∧
  (s.fault = true ↔ s.fcode ≠ .none) ∧
  (s.seq = .idle ↔ s.busy = false) ∧
  (s.fcode ≠ .buserr → s.faddr = 0#32)

/-- The operands passed the checks of START (R214): no negative length, no extent past the address space. -/
abbrev OperandsOk (s : State) : Prop :=
  s.len.toNat < 2 ^ 31 ∧ (s.len = 0#32 ∨ s.addr.toNat + s.len.toNat ≤ 2 ^ 32)

/-- The pointer invariant (R28) and `ALIGN = ADDR[1:0]` (R29). -/
abbrev CursorOk (s : State) : Prop :=
  s.rem.toNat ≤ s.len.toNat ∧ s.ptr = s.addr + (s.len - s.rem) ∧ s.align = s.addr.extractLsb' 0 2

/-- The recombination path after ASETUP (R29, R150, R158): the shift amounts are set and `PTR` is aligned. -/
abbrev ShiftsOk (s : State) : Prop :=
  s.align ≠ 0#2 ∧ s.sl.toNat = 8 * (4 - s.align.toNat) ∧ s.sr.toNat = 8 * s.align.toNat ∧ s.ptr.toNat % 4 = 0

/-- The parenthesised conditions of R241: what holds whenever a state of the sequencer is entered. -/
abbrev SequencerOk (s : State) : Prop :=
  (s.seq = .words → s.modeq ≠ .wide ∧ 4 ≤ s.rem.toNat ∧
    (s.modeq = .aligned → s.align = 0#2 ∧ s.ptr.toNat % 4 = 0)) ∧
  (s.seq = .aset → s.modeq = .aligned ∧ s.align ≠ 0#2 ∧ 4 ≤ s.len.toNat ∧ s.rem = s.len) ∧
  (s.seq = .awords → s.modeq = .aligned ∧ ShiftsOk s ∧ 4 ≤ s.rem.toNat) ∧
  (s.seq = .apacks → s.modeq = .aligned ∧ ShiftsOk s ∧ s.rem.toNat ≤ 3) ∧
  (s.seq = .tail → s.modeq ≠ .wide ∧ 1 ≤ s.rem.toNat ∧ s.rem.toNat ≤ 3) ∧
  (s.seq = .fin → s.modeq ≠ .wide ∧ s.rem = 0#32) ∧
  (s.seq = .wsmall → s.modeq = .wide ∧ 4 ≤ s.len.toNat ∧ s.len.toNat ≤ 16 ∧ s.rem = s.len ∧ s.olen = s.len) ∧
  (s.seq = .wblk → s.modeq = .wide ∧ 32 ≤ s.rem.toNat ∧ s.olen = s.len) ∧
  (s.seq = .wcasc → s.modeq = .wide ∧ 8 ≤ s.rem.toNat ∧ s.rem.toNat ≤ 31 ∧ s.olen = s.len) ∧
  (s.seq = .wword → s.modeq = .wide ∧ 4 ≤ s.rem.toNat ∧ s.rem.toNat ≤ 7 ∧ s.olen = s.len) ∧
  (s.seq = .wtail → s.modeq = .wide ∧ 1 ≤ s.rem.toNat ∧ s.rem.toNat ≤ 3 ∧ s.olen = s.len) ∧
  (s.seq = .wlen → s.modeq = .wide ∧ s.rem = 0#32 ∧ s.olen = s.len) ∧
  (s.seq = .wfins → s.modeq = .wide ∧ s.rem = 0#32 ∧ s.olen = s.len)

/-- The invariant of the machine. -/
abbrev Consistent (s : State) : Prop :=
  StatusOk s ∧ (s.busy = true → OperandsOk s) ∧ (s.busy = true → s.seq ≠ .init → CursorOk s) ∧ SequencerOk s

/-! ### The buffer of a command -/

/-- The byte at offset `i` of the buffer (R72). -/
def bufferByte (s : State) (i : Nat) : Byte := s.mem.readByte (s.addr.toNat + i)

/-- The byte address `a` lies in the buffer (R68). -/
abbrev InBuffer (s : State) (a : Nat) : Prop := s.addr.toNat ≤ a ∧ a < s.addr.toNat + s.len.toNat

/-- The stable-buffer premise (R72): no pending store of another agent touches the buffer. -/
def StableBuffer (s : State) : Prop := ∀ a b, Event.store a b ∈ s.agenda → ¬ InBuffer s a.toNat

/-- Every byte of the buffer is `Readable` (the caller's side of R81). -/
def ReadableBuffer (s : State) : Prop := ∀ a, InBuffer s a → readable s.cfg a = true

/-- A START was accepted and the MIXER has not begun (R214). -/
abbrev Started (m : Mode) (s : State) : Prop := s.busy = true ∧ s.seq = .init ∧ s.modeq = m

/-- The MIXER is next: `u` is `s` with the MIXER's turn taken off the agenda, or `s` itself when no event is pending
(log 5). -/
abbrev MixerNext (s u : State) : Prop :=
  (s.agenda = [] ∧ u = s) ∨ ∃ es, s.agenda = .mixer :: es ∧ u = { s with agenda := es }

/-- The command is still running after each of the first `k` steps. -/
def BusyBefore (k : Nat) (s : State) : Prop :=
  ∀ j, j < k → ∃ u, Host.Core.run Sys2Proof.core j s = .next u ∧ u.busy = true

/-! ### The reads of a micro-operation -/

/-- The little-endian word at address `a` (R63). -/
def memWord (s : State) (a : Addr) : Word := bufferWord s.mem.readByte a.toNat

/-- The byte at address `a`, widened (R64). -/
def memByte (s : State) (a : Addr) : Word := (s.mem.readByte a.toNat).setWidth 32

/-- The value of the tail gather (R131). -/
def tailValue (s : State) (p : Addr) (n : Nat) : Word :=
  (if n ≥ 3 then memByte s (p + 2#32) <<< 16 else 0) + (if n ≥ 2 then memByte s (p + 1#32) <<< 8 else 0)
    + (if n ≥ 1 then memByte s p else 0)

/-- The value of the wide gather (R175). -/
def gatherValue (s : State) (p : Addr) (n : Nat) : Word :=
  (memByte s p <<< 16) ||| (memByte s (p + BitVec.ofNat 32 (n / 2)) <<< 8)
    ||| memByte s (p + BitVec.ofNat 32 (n - 1))

/-- The word pairs of a block read from `p`. -/
def pairsValue (s : State) (p : Addr) : Nat → List (Word × Word)
  | 0 => []
  | k + 1 => (memWord s p, memWord s (p + 4#32)) :: pairsValue s (p + 8#32) k

/-- The word pairs of SMALL (R179). -/
def smallValue (s : State) (c : BitVec 3) : List (Word × Word) :=
  if c = 1#3 then [(memWord s s.addr, memWord s (s.addr + (s.len - 4#32)))]
  else if c = 2#3 then
    [(memWord s s.addr, memWord s (s.addr + 4#32)),
      (memWord s (s.addr + (s.len - 8#32)), memWord s (s.addr + (s.len - 4#32)))]
  else
    [(memWord s s.addr, memWord s (s.addr + 4#32)),
      (memWord s (s.addr + 8#32), memWord s (s.addr + (s.len - 4#32)))]

/-- Byte requests at the given addresses. -/
def byteReqs (as : List Addr) : List ReadReq := as.map (⟨·, .byte⟩)

/-- Word requests at the given addresses. -/
def wordReqs (as : List Addr) : List ReadReq := as.map (⟨·, .word⟩)

/-- The requests of the tail gather of `n` bytes at `p` (R70, R131). -/
def tailReqs (p : Addr) (n : Nat) : List ReadReq :=
  byteReqs ((if n ≥ 3 then [p + 2#32] else []) ++ (if n ≥ 2 then [p + 1#32] else []) ++ (if n ≥ 1 then [p] else []))

/-- The requests an instruction makes in state `s`, in order (R70): every read of the fourteen micro-operations. -/
def reads (s : State) : Instr → List ReadReq
  | .wstep => wordReqs [s.ptr]
  | .tstep n => tailReqs s.ptr n.toNat
  | .asetup a => tailReqs s.ptr (4 - a.toNat)
  | .astep => wordReqs [s.ptr]
  | .apack p => tailReqs s.ptr p.toNat
  | .gstep n => byteReqs [s.ptr, s.ptr + BitVec.ofNat 32 (n.toNat / 2), s.ptr + BitVec.ofNat 32 (n.toNat - 1)]
  | .small c =>
    if c = 1#3 then wordReqs [s.addr, s.addr + (s.len - 4#32)]
    else if c = 2#3 then wordReqs [s.addr, s.addr + 4#32, s.addr + (s.len - 8#32), s.addr + (s.len - 4#32)]
    else wordReqs [s.addr, s.addr + 4#32, s.addr + 8#32, s.addr + (s.len - 4#32)]
  | .blk k => wordReqs ((List.range (2 * k.toNat)).map fun i => s.ptr + BitVec.ofNat 32 (4 * i))
  | .sstep => wordReqs [s.ptr]
  | .rd _ | .wrAddr _ | .wrLen _ | .wrSeed _ | .wrStatus _ | .wrDigest _ | .wrFaddr _ | .wrRsvd1c _ | .nop
  | .startSimple | .startAligned | .startWide | .clr | .init32 | .fin32 | .winit | .lstep | .wfin => []

/-- The address of the first request the port does not serve (R254). -/
def firstFailure (cfg : Config) : List ReadReq → Option Addr
  | [] => none
  | q :: qs => if served cfg q then firstFailure cfg qs else some q.addr

/-- The requests issued before the run of requests ends or the first failing one, that one included (R254). -/
def issuedReads (cfg : Config) : List ReadReq → List ReadReq
  | [] => []
  | q :: qs => if served cfg q then q :: issuedReads cfg qs else [q]

/-- The port serves every read instruction `i` makes in state `s`. -/
def ReadsServed (s : State) (i : Instr) : Prop := (reads s i).all (served s.cfg) = true

/-- BUSERR as R254 and R256 give it: the read at `a` failed, the requests `issued` reached the port. -/
def busFaulted (a : Addr) (issued : List ReadReq) (s : State) : State :=
  { s with
    fault := true
    fcode := .buserr
    done := false
    busy := false
    seq := .idle
    faddr := a
    portLog := s.portLog ++ issued }

/-- The instruction's answer when a read of it failed (R254): its own registers unwritten, BUSERR. -/
def FaultsAtFirstFailure (s : State) (i : Instr) : Prop :=
  ∀ a, firstFailure s.cfg (reads s i) = some a →
    exec i s = .next (busFaulted a (issuedReads s.cfg (reads s i)) s)

end Sys2Proof.Machine
end

