-- ==== Sys2Proof/Certificates/Slice0/Obligations.lean ====
section
/-! DEFINITION. The statements for the provers. Each docstring names the rules it formalises; OBLIGATIONS.json lists
them. Every statement holds for every configuration a state carries (M, C1..C5, CPAIR, UNALIGNED_OK, Readable, BASE). -/

open Sys2Proof Sys2Proof.Machine

/-! ### Encodings (spec/30_encoding.md) -/

/-- Decoding the encoding of a well-formed instruction gives it back, with every operand (R90, R91, R94 to R96). -/
def Obligations.DecodeInvertsEncode : Prop :=
  ∀ i : Instr, i.wellFormed = true → decode (encode i) = .instr i

/-- What the decoder accepts is well formed and is the encoding of what it answers; of a read, the data bits alone are
ignored (R90, R96). -/
def Obligations.EncodeInvertsDecode : Prop :=
  (∀ (b : Byte) (i : Instr), decode (.uop b) = .instr i → i.wellFormed = true ∧ encode i = .uop b) ∧
  (∀ (w : BitVec 38) (i : Instr), decode (.txn w) = .instr i →
    i.wellFormed = true ∧
    (txnWe w = true → encode i = .txn w) ∧
    (txnWe w = false → i = .rd (txnOff w)))

/-- The reserved micro-operation bytes are exactly those R98 lists: the unused `op` values, and the `arg` values that
R96 does not list for a used one. -/
def Obligations.ReservedBytesAreRefused : Prop :=
  ∀ b : Byte, decode (.uop b) = .reservedUop b ↔
    ((uopOp b = 0x00#5 ∨ (0x08 ≤ (uopOp b).toNat ∧ (uopOp b).toNat ≤ 0x0F) ∨ 0x17 ≤ (uopOp b).toNat) ∨
     (uopOp b ∈ [0x01#5, 0x02#5, 0x04#5, 0x06#5, 0x10#5, 0x14#5, 0x15#5, 0x16#5] ∧ uopArg b ≠ 0#3) ∨
     (uopOp b ∈ [0x03#5, 0x05#5, 0x11#5, 0x12#5] ∧ uopArg b ∉ [1#3, 2#3, 3#3]) ∨
     (uopOp b = 0x07#5 ∧ uopArg b ∉ [0#3, 1#3, 2#3, 3#3]) ∨
     (uopOp b = 0x13#5 ∧ uopArg b ∉ [1#3, 2#3, 3#3, 4#3]))

/-- A write to CTRL is one of the five commands, matched on all 32 bits, or illegal (R94). -/
def Obligations.CtrlValuesDecode : Prop :=
  ∀ v : Word, decode (.txn (packTxn true 0x00#5 v)) =
    if v = 0x00000000#32 then .instr .nop
    else if v = 0x00000001#32 then .instr .startSimple
    else if v = 0x00000003#32 then .instr .startAligned
    else if v = 0x00000005#32 then .instr .startWide
    else if v = 0x00000008#32 then .instr .clr
    else .badCommand v

/-- A few words written out from R90, R91, R94 and R96 decode to the instructions they stand for. -/
def Obligations.SpecWordsDecode : Prop :=
  decodeTableWord 40 0x0400000000 = some (.rd 0x04#5) ∧
  decodeTableWord 40 0x2800001001 = some (.wrAddr 0x00001001#32) ∧
  decodeTableWord 40 0x2C00000005 = some (.wrLen 0x00000005#32) ∧
  decodeTableWord 40 0x2000000003 = some .startAligned ∧
  decodeTableWord 8 0x19 = some (.tstep 1#3) ∧
  decodeTableWord 8 0x39 = some (.apack 1#3) ∧
  decodeTableWord 8 0x9C = some (.blk 4#3)

/-! ### A step -/

/-- A step whose next event is a HOST transaction that decodes to an instruction is exec of that instruction, with the
event taken off the agenda (R11, R211). -/
def Obligations.StepRunsTheTransaction : Prop :=
  ∀ (s : State) (w : BitVec 38) (es : List Event) (i : Instr),
    s.agenda = .txn w :: es → decode (.txn w) = .instr i →
    step s = exec i { s with agenda := es }

/-- A MIXER step is exec of the micro-operation whose byte the sequencer issues (R95, R240). A step is the MIXER's on
its turn and, as the model's choice, when no event is pending (log 5, the model's form of the fairness of R287). -/
def Obligations.StepRunsTheIssuedByte : Prop :=
  ∀ (s : State) (i : Instr), s.busy = true → s.seq ≠ .idle → decode (.uop (issue s)) = .instr i →
    (s.agenda = [] → step s = exec i s) ∧
    (∀ es, s.agenda = .mixer :: es → step s = exec i { s with agenda := es })

/-- An idle block runs nothing: a MIXER turn offered to it, or no event at all, changes no register (R11, R240; that
the event is used up, and that a step with nothing to do answers the same state, are the model's choices, log 12). -/
def Obligations.IdleMixerHasNoStep : Prop :=
  ∀ s : State, s.busy = false →
    (s.agenda = [] → step s = .next s) ∧
    (∀ es, s.agenda = .mixer :: es → step s = .next { s with agenda := es })

/-! ### HOST transactions (spec/44_host_interface.md) -/

/-- RD returns the register's value to the HOST and changes nothing else, busy or not (R210; the fields are those of
R21, R22, R26 and R102). What RD has returned is the list `hostReads` (log 7). -/
def Obligations.RdReturnsTheRegister : Prop :=
  (∀ (off : BitVec 5) (v : Word), off.toNat % 4 = 0 → decode (.txn (packTxn false off v)) = .instr (.rd off)) ∧
  ∀ s : State,
    exec (.rd 0x00#5) s = .next { s with hostReads := s.hostReads ++
      [match s.modeq with | .simple => 0x00000000#32 | .aligned => 0x00000002#32 | .wide => 0x00000004#32] } ∧
    exec (.rd 0x04#5) s = .next { s with hostReads := s.hostReads ++ [BitVec.ofNat 32
      (s.busy.toNat + 2 * s.done.toNat + 4 * s.fault.toNat + 16 *
        (match s.fcode with | .none => 0 | .badcmd => 1 | .badlen => 2 | .range => 3 | .buserr => 4))] } ∧
    exec (.rd 0x08#5) s = .next { s with hostReads := s.hostReads ++ [s.addr] } ∧
    exec (.rd 0x0C#5) s = .next { s with hostReads := s.hostReads ++ [s.len] } ∧
    exec (.rd 0x10#5) s = .next { s with hostReads := s.hostReads ++ [s.seed] } ∧
    exec (.rd 0x14#5) s = .next { s with hostReads := s.hostReads ++ [s.digest] } ∧
    exec (.rd 0x18#5) s = .next { s with hostReads := s.hostReads ++ [s.faddr] } ∧
    exec (.rd 0x1C#5) s = .next { s with hostReads := s.hostReads ++ [0x00000000#32] }

/-- With BUSY = 0 a write to ADDR, LEN or SEED stores the value, any value, and changes nothing else (R212). -/
def Obligations.OperandWritesStore : Prop :=
  ∀ (s : State) (v : Word), s.busy = false →
    exec (.wrAddr v) s = .next { s with addr := v } ∧
    exec (.wrLen v) s = .next { s with len := v } ∧
    exec (.wrSeed v) s = .next { s with seed := v }

/-- With BUSY = 1 a write to CTRL, ADDR, LEN or SEED, whatever its value, has no effect: only the event is used up
(R219). -/
def Obligations.BusyWritesAreDropped : Prop :=
  ∀ (s : State) (off : BitVec 5) (v : Word) (es : List Event),
    s.busy = true → off ∈ [0x00#5, 0x08#5, 0x0C#5, 0x10#5] → s.agenda = .txn (packTxn true off v) :: es →
    step s = .next { s with agenda := es }

/-- A write to STATUS, DIGEST, FADDR or offset 0x1C is ignored, busy or not (R220), and NOP, a write of 0x00000000 to
CTRL, changes nothing at all (R213). -/
def Obligations.NopAndReadOnlyWritesChangeNothing : Prop :=
  encode .nop = .txn (packTxn true 0x00#5 0x00000000#32) ∧
  ∀ (s : State) (v : Word),
    exec (.wrStatus v) s = .next s ∧ exec (.wrDigest v) s = .next s ∧
    exec (.wrFaddr v) s = .next s ∧ exec (.wrRsvd1c v) s = .next s ∧ exec .nop s = .next s

/-- START with BUSY = 0 (R214, R252, R253, R256): the display is cleared, then BADLEN if LEN[31] = 1, else RANGE if
the buffer runs past the address space, else the command is accepted, and its first micro-operation is INIT32 or
WINIT. Nothing else changes. -/
def Obligations.StartCommandOutcome : Prop :=
  ∀ (s : State) (i : Instr) (m : Mode), s.busy = false →
    (i, m) ∈ [(Instr.startSimple, Mode.simple), (.startAligned, .aligned), (.startWide, .wide)] →
    exec i s = .next (
      if s.len.toNat ≥ 2 ^ 31 then
        { s with done := false, fault := true, fcode := .badlen, faddr := 0#32, busy := false, seq := .idle }
      else if s.len ≠ 0#32 ∧ s.addr.toNat + s.len.toNat > 2 ^ 32 then
        { s with done := false, fault := true, fcode := .range, faddr := 0#32, busy := false, seq := .idle }
      else
        { s with done := false, fault := false, fcode := .none, faddr := 0#32, modeq := m, busy := true,
                 seq := .init }) ∧
    decode (.uop (issue { s with modeq := m, busy := true, seq := .init }))
      = .instr (if m = .wide then .winit else .init32)

/-- CLR with BUSY = 0 clears the display and nothing else; an illegal CTRL value with BUSY = 0 shows BADCMD and
changes nothing else of an idle block (R218, R251; that the block is idle when BUSY = 0 is R23). -/
def Obligations.ClrAndIllegalValues : Prop :=
  encode .clr = .txn (packTxn true 0x00#5 0x00000008#32) ∧
  (∀ s : State, s.busy = false →
    exec .clr s = .next { s with done := false, fault := false, fcode := .none, faddr := 0#32 }) ∧
  (∀ (s : State) (v : Word) (es : List Event), s.busy = false → s.seq = .idle →
    v ∉ [0x0#32, 0x1#32, 0x3#32, 0x5#32, 0x8#32] → s.agenda = .txn (packTxn true 0x00#5 v) :: es →
    step s = .next { s with agenda := es, done := false, faddr := 0#32, fault := true, fcode := .badcmd })

/-- A misaligned offset, a narrow access, or one outside the 32-byte window is refused (R90, R221). That an access
wider than 4 bytes is refused too, and that accesses carry natural-number addresses, is the model's choice (log 20). -/
def Obligations.NonTransactionsAreRefused : Prop :=
  (∀ (s : State) (we : Bool) (off : BitVec 5) (v : Word) (es : List Event),
    off.toNat % 4 ≠ 0 → s.agenda = .txn (packTxn we off v) :: es → step s = .refused .notATransaction) ∧
  (∀ (s : State) (we : Bool) (a n : Nat) (v : Word) (es : List Event),
    (n ≠ 4 ∨ a < s.cfg.base ∨ s.cfg.base + 32 ≤ a ∨ (a - s.cfg.base) % 4 ≠ 0) → s.agenda = .access we a n v :: es →
    step s = .refused .notATransaction)

/-- A full-word HOST access at BASE + off is the transaction at offset `off` (R91; that HOST addresses are natural
numbers is the model's, log 20). -/
def Obligations.WindowAccessIsTransaction : Prop :=
  ∀ (s : State) (we : Bool) (off : BitVec 5) (v : Word) (es : List Event),
    s.agenda = .access we (s.cfg.base + off.toNat) 4 v :: es →
    step s = step { s with agenda := .txn (packTxn we off v) :: es }

/-! ### The memory port (spec/20_memory.md) -/

/-- MemRead (R62): a misaligned word is refused first when UNALIGNED_OK is false, then any byte that is not Readable,
else the bytes are returned. The word lies in the 32-bit space, as R62 says every word a command reads does. -/
def Obligations.MemReadChecksThenReads : Prop :=
  ∀ (s : State) (a : Addr),
    memRead s ⟨a, .byte⟩ =
      (if readable s.cfg a.toNat = true then .ok [s.mem.readByte a.toNat] [⟨a, .byte⟩] else .busError a [⟨a, .byte⟩]) ∧
    (a.toNat + 3 < 2 ^ 32 → memRead s ⟨a, .word⟩ =
      (if a.toNat % 4 ≠ 0 ∧ s.cfg.unalignedOk = false then .busError a [⟨a, .word⟩]
      else if readable s.cfg a.toNat = true ∧ readable s.cfg (a.toNat + 1) = true ∧
          readable s.cfg (a.toNat + 2) = true ∧ readable s.cfg (a.toNat + 3) = true then
        .ok [s.mem.readByte a.toNat, s.mem.readByte (a.toNat + 1), s.mem.readByte (a.toNat + 2),
          s.mem.readByte (a.toNat + 3)] [⟨a, .word⟩]
      else .busError a [⟨a, .word⟩]))

/-- A word read and four byte reads of the same four addresses see the same bytes, lowest address least significant
(R63, R64, R65). -/
def Obligations.WordIsItsFourBytes : Prop :=
  ∀ (s : State) (a : Addr) (w b0 b1 b2 b3 : Word) (l l0 l1 l2 l3 : List ReadReq),
    rd32 s a = .ok w l → rd8 s a = .ok b0 l0 → rd8 s (a + 1#32) = .ok b1 l1 → rd8 s (a + 2#32) = .ok b2 l2 →
    rd8 s (a + 3#32) = .ok b3 l3 →
    w = b0 + (b1 <<< 8) + (b2 <<< 16) + (b3 <<< 24) ∧
    b0.toNat < 256 ∧ b1.toNat < 256 ∧ b2.toNat < 256 ∧ b3.toNat < 256

/-! ### The 32-bit path (spec/41_simple_mixer.md) -/

/-- INIT32 (R123), in the modes it is issued in, with its next state (R241). -/
def Obligations.Init32Result : Prop :=
  encode .init32 = .uop 0x08#8 ∧
  (∀ s : State, s.seq = .init → s.modeq ≠ .wide → issue s = 0x08#8) ∧
  ∀ s : State, s.modeq ≠ .wide → exec .init32 s = .next { s with
    h := s.seed ^^^ (s.len * s.cfg.m)
    ptr := s.addr
    rem := s.len
    align := s.addr.extractLsb' 0 2
    seq :=
      if s.modeq = .aligned ∧ s.addr.toNat % 4 ≠ 0 ∧ s.len.toNat ≥ 4 then .aset
      else if s.len.toNat ≥ 4 then .words else if s.len.toNat ≥ 1 then .tail else .fin }

/-- WSTEP (R124), with its next state (R241); BUSERR at `PTR` if the word is not served. -/
def Obligations.WstepResult : Prop :=
  encode .wstep = .uop 0x10#8 ∧
  ∀ s : State,
    (served s.cfg ⟨s.ptr, .word⟩ = true →
      exec .wstep s = .next { s with
        h := ((s.h + memWord s s.ptr) * s.cfg.m) ^^^ (((s.h + memWord s s.ptr) * s.cfg.m) >>> 16)
        ptr := s.ptr + 4#32
        rem := s.rem - 4#32
        seq :=
          if (s.rem - 4#32).toNat ≥ 4 then .words else if (s.rem - 4#32).toNat ≥ 1 then .tail else .fin
        portLog := s.portLog ++ [⟨s.ptr, .word⟩] }) ∧
    (served s.cfg ⟨s.ptr, .word⟩ = false →
      exec .wstep s = .next (busFaulted s.ptr [⟨s.ptr, .word⟩] s))

/-- TSTEP n (R125, R131), with its next state (R241); BUSERR at the first failing of `PTR+2`, `PTR+1`, `PTR`. -/
def Obligations.TstepResult : Prop :=
  encode (.tstep 1#3) = .uop 0x19#8 ∧ encode (.tstep 2#3) = .uop 0x1A#8 ∧ encode (.tstep 3#3) = .uop 0x1B#8 ∧
  ∀ (s : State) (n : BitVec 3), n ∈ [1#3, 2#3, 3#3] →
    (ReadsServed s (.tstep n) →
      exec (.tstep n) s = .next { s with
        h := ((s.h + tailValue s s.ptr n.toNat) * s.cfg.m)
          ^^^ (((s.h + tailValue s s.ptr n.toNat) * s.cfg.m) >>> 16)
        ptr := s.ptr + BitVec.ofNat 32 n.toNat
        rem := 0#32
        seq := .fin
        portLog := s.portLog ++ reads s (.tstep n) }) ∧
    FaultsAtFirstFailure s (.tstep n)

/-- FIN32 (R126): two rounds with shifts 10 and 17, the digest delivered, the run ended. -/
def Obligations.Fin32Result : Prop :=
  encode .fin32 = .uop 0x20#8 ∧
  (∀ s : State, s.seq = .fin → issue s = 0x20#8) ∧
  ∀ (s : State) (h1 h2 : Word), h1 = (s.h * s.cfg.m) ^^^ ((s.h * s.cfg.m) >>> 10) →
    h2 = (h1 * s.cfg.m) ^^^ ((h1 * s.cfg.m) >>> 17) →
    exec .fin32 s = .next { s with h := h2, digest := h2, done := true, busy := false, seq := .idle }

/-- MSX (R121): the multiply, shift, XOR stage; 0 stays 0; the top `r` bits are those of the product. -/
def Obligations.MsxStage : Prop :=
  ∀ (cfg : Config) (h : Word) (r : Nat), r ∈ [16, 10, 17] →
    msx cfg h r = (h * cfg.m) ^^^ ((h * cfg.m) >>> r) ∧
    msx cfg 0#32 r = 0#32 ∧
    msx cfg h r >>> (32 - r) = (h * cfg.m) >>> (32 - r)

/-- TG (R131): `n` bytes, offset 0 least significant, below 2^24; nothing read when `n = 0`; otherwise the low `8n`
bits of the little-endian word at `p` (where that word does not run past the address space). -/
def Obligations.TailGatherIsLowBytes : Prop :=
  ∀ (s : State) (p : Addr) (n : Nat), n ≤ 3 →
    ((tailReqs p n).all (served s.cfg) = true →
      tg s p n = .ok (tailValue s p n) (tailReqs p n)) ∧
    (tailValue s p n).toNat < 2 ^ 24 ∧
    tg s p 0 = .ok 0#32 [] ∧
    (p.toNat + 3 < 2 ^ 32 → (tailValue s p n).toNat = (memWord s p).toNat % 2 ^ (8 * n))

/-! ### The aligned reader (spec/42_aligned_mixer.md) -/

/-- REC (R151) with the shift amounts of R150: the low `4 - a` bytes are the upper bytes of `t`, the upper `a` bytes
are the low bytes of `d`. -/
def Obligations.RecombineJoinsBytes : Prop :=
  ∀ (a : Nat) (t d : Word), a ∈ [1, 2, 3] →
    (recombine (BitVec.ofNat 5 (8 * a)) (BitVec.ofNat 5 (8 * (4 - a))) t d).toNat
      = t.toNat / 2 ^ (8 * a) + 2 ^ (8 * (4 - a)) * (d.toNat % 2 ^ (8 * a))

/-- ASETUP a (R150, R152), with its next state (R241); BUSERR at the first failing byte, highest address first. -/
def Obligations.AsetupResult : Prop :=
  encode (.asetup 1#3) = .uop 0x29#8 ∧ encode (.asetup 2#3) = .uop 0x2A#8 ∧ encode (.asetup 3#3) = .uop 0x2B#8 ∧
  ∀ (s : State) (a : BitVec 3) (n : Nat), a ∈ [1#3, 2#3, 3#3] → n = 4 - a.toNat →
    (ReadsServed s (.asetup a) →
      exec (.asetup a) s = .next { s with
        t := tailValue s s.ptr n <<< (8 * a.toNat)
        sl := BitVec.ofNat 5 (8 * n)
        sr := BitVec.ofNat 5 (8 * a.toNat)
        ptr := s.ptr + BitVec.ofNat 32 n
        rem := s.rem - BitVec.ofNat 32 n
        seq := if (s.rem - BitVec.ofNat 32 n).toNat ≥ 4 then .awords else .apacks
        portLog := s.portLog ++ reads s (.asetup a) }) ∧
    FaultsAtFirstFailure s (.asetup a)

/-- ASTEP (R151, R153), with its next state (R241); BUSERR at `PTR` if the word is not served. -/
def Obligations.AstepResult : Prop :=
  encode .astep = .uop 0x30#8 ∧
  ∀ (s : State) (k : Word), k = (s.t >>> s.sr.toNat) ||| (memWord s s.ptr <<< s.sl.toNat) →
    (served s.cfg ⟨s.ptr, .word⟩ = true →
      exec .astep s = .next { s with
        h := ((s.h + k) * s.cfg.m) ^^^ (((s.h + k) * s.cfg.m) >>> 16)
        t := memWord s s.ptr
        ptr := s.ptr + 4#32
        rem := s.rem - 4#32
        seq := if (s.rem - 4#32).toNat ≥ 4 then .awords else .apacks
        portLog := s.portLog ++ [⟨s.ptr, .word⟩] }) ∧
    (served s.cfg ⟨s.ptr, .word⟩ = false →
      exec .astep s = .next (busFaulted s.ptr [⟨s.ptr, .word⟩] s))

/-- APACK p (R151, R154), with its next state (R241); `p = 0` reads nothing; BUSERR at the first failing byte. -/
def Obligations.ApackResult : Prop :=
  encode (.apack 0#3) = .uop 0x38#8 ∧ encode (.apack 1#3) = .uop 0x39#8 ∧ encode (.apack 2#3) = .uop 0x3A#8 ∧
  encode (.apack 3#3) = .uop 0x3B#8 ∧
  ∀ (s : State) (p : BitVec 3) (k : Word), p ∈ [0#3, 1#3, 2#3, 3#3] →
    k = (s.t >>> s.sr.toNat) ||| (tailValue s s.ptr p.toNat <<< s.sl.toNat) →
    (ReadsServed s (.apack p) →
      exec (.apack p) s = .next { s with
        h := ((s.h + k) * s.cfg.m) ^^^ (((s.h + k) * s.cfg.m) >>> 16)
        ptr := s.ptr + BitVec.ofNat 32 p.toNat
        rem := s.rem - BitVec.ofNat 32 p.toNat
        seq := if (s.rem - BitVec.ofNat 32 p.toNat).toNat ≥ 1 then .tail else .fin
        portLog := s.portLog ++ reads s (.apack p) }) ∧
    FaultsAtFirstFailure s (.apack p)

/-! ### The wide path (spec/43_wide_mixer.md) -/

/-- WINIT (R177), with its next state (R241). -/
def Obligations.WinitResult : Prop :=
  encode .winit = .uop 0x80#8 ∧
  (∀ s : State, s.seq = .init → s.modeq = .wide → issue s = 0x80#8) ∧
  ∀ s : State, exec .winit s = .next { s with
    lanes := { s.lanes with l0 := ⟨s.seed + 1#32, s.seed - 1#32⟩ }
    olen := s.len
    ptr := s.addr
    rem := s.len
    align := s.addr.extractLsb' 0 2
    seq :=
      if s.len = 0#32 then .wlen else if s.len.toNat ≤ 3 then .wtail else if s.len.toNat ≤ 16 then .wsmall
      else if s.len.toNat ≤ 31 then .wcasc else .wblk }

/-- SMIX and DMIX (R172, R173): 32-bit operands enter zero-extended, the product keeps its low 64 bits, its low half
is the new `lo` and its high half the new `hi`; SMIX is DMIX with second word 0. -/
def Obligations.LaneMixProducts : Prop :=
  ∀ (cfg : Config) (pair : ConstPair) (l : Lane) (d1 d2 : Word),
    (dmix cfg pair l d1 d2).lo.toNat + 2 ^ 32 * (dmix cfg pair l d1 d2).hi.toNat
      = ((constant cfg pair.a).toNat ^^^ d1.toNat ^^^ l.lo.toNat)
        * ((constant cfg pair.b).toNat ^^^ d2.toNat ^^^ l.hi.toNat) % 2 ^ 64 ∧
    (smix cfg pair l d1).lo.toNat + 2 ^ 32 * (smix cfg pair l d1).hi.toNat
      = ((constant cfg pair.a).toNat ^^^ l.lo.toNat ^^^ d1.toNat)
        * ((constant cfg pair.b).toNat ^^^ l.hi.toNat) % 2 ^ 64 ∧
    smix cfg pair l d1 = dmix cfg pair l d1 0#32

/-- GROUP (R176) of one to four word pairs: every lane of the group mixes, from a copy of the primary lane, its own
two words with its own constants; the primary lane becomes their XOR; lanes outside the group stay. The table of
constants CPAIR is a configuration field (log 4) whose default, held after reset, is R174's: lane `j` uses
`(C(j+1), C(j+2))`, the length-keyed mix `(C5, C1)`. -/
def Obligations.GroupCopiesMixesFolds : Prop :=
  State.reset.cfg.cpair = { lane0 := ⟨.c1, .c2⟩, lane1 := ⟨.c2, .c3⟩, lane2 := ⟨.c3, .c4⟩, lane3 := ⟨.c4, .c5⟩,
                            len := ⟨.c5, .c1⟩ } ∧
  (∀ cfg : Config, constant cfg .c1 = cfg.c1 ∧ constant cfg .c2 = cfg.c2 ∧ constant cfg .c3 = cfg.c3 ∧
    constant cfg .c4 = cfg.c4 ∧ constant cfg .c5 = cfg.c5) ∧
  ∀ (cfg : Config) (l : Lanes) (p0 p1 p2 p3 : Word × Word) (m0 m1 m2 m3 : Lane),
    m0 = dmix cfg cfg.cpair.lane0 l.l0 p0.1 p0.2 → m1 = dmix cfg cfg.cpair.lane1 l.l0 p1.1 p1.2 →
    m2 = dmix cfg cfg.cpair.lane2 l.l0 p2.1 p2.2 → m3 = dmix cfg cfg.cpair.lane3 l.l0 p3.1 p3.2 →
    group cfg [p0] l = ⟨m0, l.l1, l.l2, l.l3⟩ ∧
    group cfg [p0, p1] l = ⟨⟨m0.lo ^^^ m1.lo, m0.hi ^^^ m1.hi⟩, m1, l.l2, l.l3⟩ ∧
    group cfg [p0, p1, p2] l =
      ⟨⟨m0.lo ^^^ m1.lo ^^^ m2.lo, m0.hi ^^^ m1.hi ^^^ m2.hi⟩, m1, m2, l.l3⟩ ∧
    group cfg [p0, p1, p2, p3] l =
      ⟨⟨m0.lo ^^^ m1.lo ^^^ m2.lo ^^^ m3.lo, m0.hi ^^^ m1.hi ^^^ m2.hi ^^^ m3.hi⟩, m1, m2, m3⟩

/-- GSTEP n (R175, R178), with its next state (R241); BUSERR at the first failing of offsets 0, n/2, n-1. -/
def Obligations.GstepResult : Prop :=
  encode (.gstep 1#3) = .uop 0x89#8 ∧ encode (.gstep 2#3) = .uop 0x8A#8 ∧ encode (.gstep 3#3) = .uop 0x8B#8 ∧
  ∀ (s : State) (n : BitVec 3), n ∈ [1#3, 2#3, 3#3] →
    (ReadsServed s (.gstep n) →
      exec (.gstep n) s = .next { s with
        lanes := { s.lanes with l0 := smix s.cfg s.cfg.cpair.lane0 s.lanes.l0 (gatherValue s s.ptr n.toNat) }
        ptr := s.ptr + BitVec.ofNat 32 n.toNat
        rem := 0#32
        seq := .wlen
        portLog := s.portLog ++ reads s (.gstep n) }) ∧
    FaultsAtFirstFailure s (.gstep n)

/-- SMALL c (R179), with its next state (R241): the words of the size class, grouped; BUSERR at the first failing
word. -/
def Obligations.SmallResult : Prop :=
  encode (.small 1#3) = .uop 0x91#8 ∧ encode (.small 2#3) = .uop 0x92#8 ∧ encode (.small 3#3) = .uop 0x93#8 ∧
  ∀ (s : State) (c : BitVec 3), c ∈ [1#3, 2#3, 3#3] →
    (ReadsServed s (.small c) →
      exec (.small c) s = .next { s with
        lanes := group s.cfg (smallValue s c) s.lanes
        ptr := s.ptr + s.len
        rem := 0#32
        seq := .wlen
        portLog := s.portLog ++ reads s (.small c) }) ∧
    FaultsAtFirstFailure s (.small c)

/-- BLK k (R180): `2k` words, ascending, grouped in `k` lanes; BUSERR at the first failing word. The next state is
R241's row WBLK for `k = 4` and row WCASC otherwise, where R241 says the remaining length is at most 7; beyond that,
which no run reaches, the next state is the model's (log 14) and left open here. -/
def Obligations.BlkResult : Prop :=
  encode (.blk 1#3) = .uop 0x99#8 ∧ encode (.blk 2#3) = .uop 0x9A#8 ∧ encode (.blk 3#3) = .uop 0x9B#8 ∧
  encode (.blk 4#3) = .uop 0x9C#8 ∧
  ∀ (s : State) (k : BitVec 3) (r : Word), k ∈ [1#3, 2#3, 3#3, 4#3] → r = s.rem - BitVec.ofNat 32 (8 * k.toNat) →
    (ReadsServed s (.blk k) →
      ∃ q : SeqState, exec (.blk k) s = .next { s with
        lanes := group s.cfg (pairsValue s s.ptr k.toNat) s.lanes
        ptr := s.ptr + BitVec.ofNat 32 (8 * k.toNat)
        rem := r
        seq := q
        portLog := s.portLog ++ reads s (.blk k) } ∧
      (k = 4#3 ∨ r.toNat ≤ 7 → q =
        if r.toNat ≥ 32 then .wblk else if r.toNat ≥ 8 then .wcasc else if r.toNat ≥ 4 then .wword
        else if r.toNat ≥ 1 then .wtail else .wlen)) ∧
    FaultsAtFirstFailure s (.blk k)

/-- SSTEP (R181), with its next state (R241); BUSERR at `PTR` if the word is not served. -/
def Obligations.SstepResult : Prop :=
  encode .sstep = .uop 0xA0#8 ∧
  ∀ s : State,
    (served s.cfg ⟨s.ptr, .word⟩ = true →
      exec .sstep s = .next { s with
        lanes := { s.lanes with l0 := smix s.cfg s.cfg.cpair.lane0 s.lanes.l0 (memWord s s.ptr) }
        ptr := s.ptr + 4#32
        rem := s.rem - 4#32
        seq := if (s.rem - 4#32).toNat ≥ 1 then .wtail else .wlen
        portLog := s.portLog ++ [⟨s.ptr, .word⟩] }) ∧
    (served s.cfg ⟨s.ptr, .word⟩ = false →
      exec .sstep s = .next (busFaulted s.ptr [⟨s.ptr, .word⟩] s))

/-- LSTEP (R182): the single-word mix with OLEN as its data, with its next state (R241). -/
def Obligations.LstepResult : Prop :=
  encode .lstep = .uop 0xA8#8 ∧
  ∀ s : State, exec .lstep s = .next { s with
    lanes := { s.lanes with l0 := smix s.cfg s.cfg.cpair.len s.lanes.l0 s.olen }
    seq := .wfins }

/-- WFIN (R183): the XOR of the primary lane's halves is delivered, the run ended. -/
def Obligations.WfinResult : Prop :=
  encode .wfin = .uop 0xB0#8 ∧
  (∀ s : State, s.seq = .wfins → issue s = 0xB0#8) ∧
  ∀ s : State, exec .wfin s = .next { s with
    digest := s.lanes.l0.lo ^^^ s.lanes.l0.hi, done := true, busy := false, seq := .idle }

/-- A reserved operand is refused, not run (R98), and so is RD of an offset that is not a full word (R221). -/
def Obligations.ReservedOperandsAreRefused : Prop :=
  (∀ (off : BitVec 5) (s : State), off.toNat % 4 ≠ 0 → exec (.rd off) s = .refused .notATransaction) ∧
  ∀ (n : BitVec 3) (s : State),
    (n ∉ [1#3, 2#3, 3#3] →
      exec (.tstep n) s = .refused (.reservedUop (packUop 0x03#5 n)) ∧
      exec (.asetup n) s = .refused (.reservedUop (packUop 0x05#5 n)) ∧
      exec (.gstep n) s = .refused (.reservedUop (packUop 0x11#5 n)) ∧
      exec (.small n) s = .refused (.reservedUop (packUop 0x12#5 n))) ∧
    (n ∉ [0#3, 1#3, 2#3, 3#3] → exec (.apack n) s = .refused (.reservedUop (packUop 0x07#5 n))) ∧
    (n ∉ [1#3, 2#3, 3#3, 4#3] → exec (.blk n) s = .refused (.reservedUop (packUop 0x13#5 n)))

/-! ### Faults, the sequencer, whole-machine rules -/

/-- BUSERR (R254, R256) of every micro-operation that reads: its own registers unwritten, the display set, `FADDR` the
address of the first read that fails in the order of R70, the reads after it not issued. -/
def Obligations.BusErrorEntry : Prop :=
  ∀ (s : State) (i : Instr) (a : Addr), i.wellFormed = true → firstFailure s.cfg (reads s i) = some a →
    exec i s = .next { s with
      fault := true, fcode := .buserr, done := false, busy := false, seq := .idle, faddr := a
      portLog := s.portLog ++ issuedReads s.cfg (reads s i) }

/-- The first three columns of R241's table: in every busy state that meets the invariant, the MIXER's step is the
micro-operation of the row that applies, on the MIXER's turn and when no event is pending. That the MIXER moves when no
event is pending is the model's form of its fairness (log 5). -/
def Obligations.SequencerIssuesTheTable : Prop :=
  ∀ s u : State, Consistent s → s.busy = true → MixerNext s u →
    (s.seq = .init → s.modeq ≠ .wide → step s = exec .init32 u) ∧
    (s.seq = .init → s.modeq = .wide → step s = exec .winit u) ∧
    (s.seq = .words → step s = exec .wstep u) ∧
    (s.seq = .aset → step s = exec (.asetup (s.align.setWidth 3)) u) ∧
    (s.seq = .awords → step s = exec .astep u) ∧
    (s.seq = .apacks → step s = exec (.apack (BitVec.ofNat 3 (min s.rem.toNat s.align.toNat))) u) ∧
    (s.seq = .tail → step s = exec (.tstep (s.rem.setWidth 3)) u) ∧
    (s.seq = .fin → step s = exec .fin32 u) ∧
    (s.seq = .wsmall → s.len.toNat ≤ 8 → step s = exec (.small 1#3) u) ∧
    (s.seq = .wsmall → 9 ≤ s.len.toNat → s.len.toNat ≤ 12 → step s = exec (.small 2#3) u) ∧
    (s.seq = .wsmall → 13 ≤ s.len.toNat → step s = exec (.small 3#3) u) ∧
    (s.seq = .wblk → step s = exec (.blk 4#3) u) ∧
    (s.seq = .wcasc → 24 ≤ s.rem.toNat → step s = exec (.blk 3#3) u) ∧
    (s.seq = .wcasc → 16 ≤ s.rem.toNat → s.rem.toNat ≤ 23 → step s = exec (.blk 2#3) u) ∧
    (s.seq = .wcasc → s.rem.toNat ≤ 15 → step s = exec (.blk 1#3) u) ∧
    (s.seq = .wword → step s = exec .sstep u) ∧
    (s.seq = .wtail → step s = exec (.gstep (s.rem.setWidth 3)) u) ∧
    (s.seq = .wlen → step s = exec .lstep u) ∧
    (s.seq = .wfins → step s = exec .wfin u)

/-- Reset at any moment (R38, R280): every register zero, the block idle; the configuration is not changed. That
memory and the events still pending stay as they are is the model's (log 19, DEDUCED): no rule says it. -/
def Obligations.ResetZeroesEveryRegister : Prop :=
  ∀ (s : State) (es : List Event), s.agenda = .reset :: es →
    ∃ t, step s = .next t ∧
      t.addr = 0#32 ∧ t.len = 0#32 ∧ t.seed = 0#32 ∧ t.digest = 0#32 ∧ t.faddr = 0#32 ∧ t.modeq = .simple ∧
      t.busy = false ∧ t.done = false ∧ t.fault = false ∧ t.fcode = .none ∧ t.h = 0#32 ∧ t.ptr = 0#32 ∧
      t.rem = 0#32 ∧ t.align = 0#2 ∧ t.sl = 0#5 ∧ t.sr = 0#5 ∧ t.t = 0#32 ∧ t.olen = 0#32 ∧
      t.lanes = ⟨⟨0#32, 0#32⟩, ⟨0#32, 0#32⟩, ⟨0#32, 0#32⟩, ⟨0#32, 0#32⟩⟩ ∧ t.seq = .idle ∧
      t.cfg = s.cfg ∧ t.mem = s.mem ∧ t.agenda = es

/-- The machine right after reset meets the invariant (R23, R38), and its parameters meet the conditions put on them:
`M` and `C1` .. `C5` odd (R4, R5), the window 32-byte aligned (92_eei_decisions.md). That the parameters are opaque
constants of that form in the state is the model's choice (log 1, log 2). -/
def Obligations.ResetMeetsTheInvariant : Prop := Consistent State.reset ∧ State.reset.cfg.wf = true

/-- Every step keeps the invariant: the status invariant (R23), the pointer invariant (R28), the shift amounts and the
alignment of `PTR` (R29, R150, R156), OLEN (R31), and the conditions R241 says always hold. -/
def Obligations.EveryStepKeepsTheInvariant : Prop :=
  ∀ s t : State, Consistent s → step s = .next t → Consistent t

/-- In a state that meets the invariant no step faults, and only an access that is no transaction is refused: the
sequencer never issues a reserved byte (R98, R242). -/
def Obligations.MixerNeverGetsStuck : Prop :=
  ∀ s : State, Consistent s →
    (∀ f, step s ≠ .fault f) ∧
    (∀ r, step s = .refused r →
      r = .notATransaction ∧
      ((∃ w es, s.agenda = .txn w :: es ∧ (txnOff w).toNat % 4 ≠ 0) ∨
       (∃ we a n v es, s.agenda = .access we a n v :: es ∧
        (n ≠ 4 ∨ a < s.cfg.base ∨ s.cfg.base + 32 ≤ a ∨ (a - s.cfg.base) % 4 ≠ 0))))

/-- No instruction writes memory, changes the parameters or touches the pending events (R35, R67). -/
def Obligations.InstructionsNeverWriteMemory : Prop :=
  ∀ (i : Instr) (s t : State), exec i s = .next t →
    (∀ a, t.mem.readByte a = s.mem.readByte a) ∧ t.mem = s.mem ∧ t.cfg = s.cfg ∧ t.agenda = s.agenda

/-- A store by another agent (R72, R286) changes that byte and no other, and nothing else of the machine; every step
keeps memory in canonical form. -/
def Obligations.StoresChangeOneByte : Prop :=
  (∀ (s : State) (a : Addr) (b : Byte) (es : List Event), s.mem.wf = true → s.agenda = .store a b :: es →
    ∃ m : Memory, step s = .next { s with agenda := es, mem := m } ∧ m.readByte a.toNat = b ∧
      ∀ a' : Nat, a' ≠ a.toNat → m.readByte a' = s.mem.readByte a') ∧
  (∀ s t : State, s.mem.wf = true → step s = .next t → t.mem.wf = true)

/-- DIGEST changes only at the end of a run that sets DONE, by FIN32 or WFIN, and at reset (R24). -/
def Obligations.OnlyFinishingWritesDigest : Prop :=
  ∀ s t : State, step s = .next t → t.digest ≠ s.digest →
    s.agenda.head? = some .reset ∨
    (s.busy = true ∧ (s.seq = .fin ∨ s.seq = .wfins) ∧ t.done = true ∧ t.busy = false)

/-- BUSY is set only by an accepted START and cleared only by the end of a run (DONE), a BUSERR or reset (R22,
R244). -/
def Obligations.BusyIsSetByStartOnly : Prop :=
  ∀ s t : State, Consistent s → step s = .next t →
    (s.busy = false → t.busy = true →
      t.seq = .init ∧ OperandsOk s ∧
      ∃ u i m, fetch s = .run i u ∧
        (i, m) ∈ [(Instr.startSimple, Mode.simple), (.startAligned, .aligned), (.startWide, .wide)] ∧ t.modeq = m) ∧
    (s.busy = true → t.busy = false →
      t.seq = .idle ∧ (t.done = true ∨ t.fcode = .buserr ∨ s.agenda.head? = some .reset))

/-- While a command runs, no HOST transaction changes a register, an operand or the run: only the event is used up,
and a read's value is given to the HOST (R11, R210, R219, R220). -/
def Obligations.HostCannotDisturbARun : Prop :=
  ∀ (s t : State) (w : BitVec 38) (es : List Event),
    s.busy = true → s.agenda = .txn w :: es → step s = .next t →
    t = { s with agenda := es, hostReads := t.hostReads } ∧
    (txnWe w = true → t.hostReads = s.hostReads) ∧
    (txnWe w = false → ∃ v, t.hostReads = s.hostReads ++ [v])

/-- Every byte a step asks the port for lies in the buffer (R68), whether or not it is served. -/
def Obligations.ReadsStayInTheBuffer : Prop :=
  ∀ s t : State, Consistent s → step s = .next t →
    ∃ new, t.portLog = s.portLog ++ new ∧ ∀ q ∈ new, ∀ a ∈ q.addresses, InBuffer s a

/-- In mode ALIGNED every word read is at a multiple of 4, and on a readable buffer no step raises a fault, whatever
UNALIGNED_OK is (R156). -/
def Obligations.AlignedModeReadsAligned : Prop :=
  ∀ s t : State, Consistent s → s.busy = true → s.modeq = .aligned → step s = .next t →
    (∃ new, t.portLog = s.portLog ++ new ∧ ∀ q ∈ new, q.size = .word → q.addr.toNat % 4 = 0) ∧
    (ReadableBuffer s → t.fault = false)

/-- Which micro-operations run, and what they read, depend on the mode, ADDR, LEN and the sequencing registers alone:
two states that differ in the seed, the accumulators, the lanes, the digest or the bytes of memory step alike (R76,
R243, R290). -/
def Obligations.TraceIgnoresDataAndSeed : Prop :=
  ∀ s u t : State,
    u.addr = s.addr → u.len = s.len → u.modeq = s.modeq → u.busy = s.busy → u.ptr = s.ptr → u.rem = s.rem →
    u.align = s.align → u.seq = s.seq → u.cfg = s.cfg → u.agenda = s.agenda → step s = .next t →
    ∃ v new, step u = .next v ∧
      v.addr = t.addr ∧ v.len = t.len ∧ v.modeq = t.modeq ∧ v.busy = t.busy ∧ v.ptr = t.ptr ∧ v.rem = t.rem ∧
      v.align = t.align ∧ v.seq = t.seq ∧ v.cfg = t.cfg ∧ v.agenda = t.agenda ∧
      t.portLog = s.portLog ++ new ∧ v.portLog = u.portLog ++ new

/-! ### Whole commands -/

/-- A busy machine left to the MIXER ends DONE or with a fault, within `floor(LEN/4) + 5` steps (R287, R288). That the
MIXER moves when no event is pending is the model's form of its fairness (log 5). -/
def Obligations.BusyCommandEnds : Prop :=
  ∀ s : State, Consistent s → s.busy = true → s.agenda = [] →
    ∃ k t, k ≤ s.len.toNat / 4 + 5 ∧ Host.Core.run Sys2Proof.core k s = .next t ∧ t.busy = false ∧
      ((t.done = true ∧ t.fault = false) ∨ (t.done = false ∧ t.fault = true ∧ t.fcode = .buserr))

/-- The SIMPLE digest (R128): whatever the HOST and other agents do between the MIXER's steps, if no pending store
touches the buffer, a SIMPLE command that ends DONE delivers SimpleDigest of the buffer, the length and the seed. -/
def Obligations.SimpleCommandDigest : Prop :=
  ∀ (s t : State) (k : Nat), Consistent s → Started .simple s → StableBuffer s → BusyBefore k s →
    Host.Core.run Sys2Proof.core k s = .next t → t.done = true →
    t.digest = simpleDigest s.cfg (bufferByte s) s.len.toNat s.seed

/-- The ALIGNED digest (R157): for every start alignment it is SimpleDigest too, under the same premises. -/
def Obligations.AlignedCommandDigest : Prop :=
  ∀ (s t : State) (k : Nat), Consistent s → Started .aligned s → StableBuffer s → BusyBefore k s →
    Host.Core.run Sys2Proof.core k s = .next t → t.done = true →
    t.digest = simpleDigest s.cfg (bufferByte s) s.len.toNat s.seed

/-- The WIDE digest (R185), the constants being those of CPAIR, under the same premises. -/
def Obligations.WideCommandDigest : Prop :=
  ∀ (s t : State) (k : Nat), Consistent s → Started .wide s → StableBuffer s → BusyBefore k s →
    Host.Core.run Sys2Proof.core k s = .next t → t.done = true →
    t.digest = wideDigest s.cfg (bufferByte s) s.len.toNat s.seed

/-- The length of a SIMPLE run that meets no BusError, and of an ALIGNED run with `a = 0` or `n < 4` (R127, R288). That
the MIXER moves when no event is pending is the model's form of its fairness (log 5). -/
def Obligations.SimpleRunLength : Prop :=
  ∀ (s : State) (n : Nat), Consistent s → s.agenda = [] → n = s.len.toNat → ReadableBuffer s →
    (Started .simple s ∧ (s.cfg.unalignedOk = true ∨ s.addr.toNat % 4 = 0 ∨ n < 4) ∨
      Started .aligned s ∧ (s.addr.toNat % 4 = 0 ∨ n < 4)) →
    BusyBefore (2 + n / 4 + (if n % 4 ≠ 0 then 1 else 0)) s ∧
    ∃ t, Host.Core.run Sys2Proof.core (2 + n / 4 + (if n % 4 ≠ 0 then 1 else 0)) s = .next t ∧ t.done = true

/-- The length of an ALIGNED run over a misaligned buffer of at least 4 readable bytes (R155, R288). That the MIXER
moves when no event is pending is the model's form of its fairness (log 5). -/
def Obligations.AlignedRunLength : Prop :=
  ∀ (s : State) (n a q u : Nat), Consistent s → s.agenda = [] → Started .aligned s → ReadableBuffer s →
    n = s.len.toNat → a = s.addr.toNat % 4 → a ≠ 0 → 4 ≤ n → q = (n - (4 - a)) / 4 → u = (n - (4 - a)) % 4 →
    BusyBefore (4 + q + (if u > a then 1 else 0)) s ∧
    ∃ t, Host.Core.run Sys2Proof.core (4 + q + (if u > a then 1 else 0)) s = .next t ∧ t.done = true

/-- The length of a WIDE run over a readable buffer whose word reads the port serves (R184, R288): UNALIGNED_OK is
true, or every word address the run forms is a multiple of 4 (R66), which R189 lists for ADDR mod 4 = 0 and which holds
at every ADDR for `n < 4`, where no word is read. That the MIXER moves when no event is pending is the model's form of
its fairness (log 5). -/
def Obligations.WideRunLength : Prop :=
  ∀ (s : State) (n m m' k : Nat), Consistent s → s.agenda = [] → Started .wide s → ReadableBuffer s →
    (s.cfg.unalignedOk = true ∨ n < 4 ∨ (s.addr.toNat % 4 = 0 ∧ (n % 4 = 0 ∨ n ≥ 17))) →
    n = s.len.toNat → m = n % 32 → m' = (if m ≥ 8 then m % 8 else m) →
    k = (if n = 0 then 3 else if n ≤ 16 then 4
      else 3 + n / 32 + (if m ≥ 8 then 1 else 0) + (if m' ≥ 4 then 1 else 0) + (if m' % 4 ≠ 0 then 1 else 0)) →
    BusyBefore k s ∧ ∃ t, Host.Core.run Sys2Proof.core k s = .next t ∧ t.done = true

/-- A command with LEN = 0 makes no read, whatever ADDR is, and ends DONE with a digest of the seed alone (R69, R129,
R187). That the MIXER moves when no event is pending is the model's form of its fairness (log 5). -/
def Obligations.EmptyBufferReadsNothing : Prop :=
  ∀ (s : State) (x y p : DWord), s.agenda = [] → s.len = 0#32 → s.busy = true → s.seq = .init →
    x = constant s.cfg s.cfg.cpair.len.a ^^^ (s.seed + 1#32).setWidth 64 →
    y = constant s.cfg s.cfg.cpair.len.b ^^^ (s.seed - 1#32).setWidth 64 → p = x * y →
    (s.modeq ≠ .wide → ∃ t, Host.Core.run Sys2Proof.core 2 s = .next t ∧ t.done = true ∧ t.portLog = s.portLog ∧
      t.digest = msx s.cfg (msx s.cfg s.seed 10) 17) ∧
    (s.modeq = .wide → ∃ t, Host.Core.run Sys2Proof.core 3 s = .next t ∧ t.done = true ∧ t.portLog = s.portLog ∧
      t.digest = p.extractLsb' 0 32 ^^^ p.extractLsb' 32 32)
end

