-- ==== Sys2Proof/Laws/Decode.lean ====
section
/-! SUPPORT. The fields of a packed transaction word and of a packed micro-operation byte are those packed, and a
word or byte is the packing of its fields. -/

namespace Sys2Proof

@[simp] theorem txnWe_packTxn (we : Bool) (off : BitVec 5) (v : Word) : txnWe (packTxn we off v) = we := by
  simp only [txnWe, packTxn, BitVec.getLsbD_append]
  cases we <;> rfl

@[simp] theorem txnOff_packTxn (we : Bool) (off : BitVec 5) (v : Word) : txnOff (packTxn we off v) = off := by
  apply BitVec.eq_of_getLsbD_eq
  intro i hi
  simp only [txnOff, packTxn, BitVec.getLsbD_extractLsb', BitVec.getLsbD_append]
  simp [hi]

@[simp] theorem txnData_packTxn (we : Bool) (off : BitVec 5) (v : Word) : txnData (packTxn we off v) = v := by
  apply BitVec.eq_of_getLsbD_eq
  intro i hi
  simp only [txnData, packTxn, BitVec.getLsbD_extractLsb', BitVec.getLsbD_append]
  simp [hi]

/-- A transaction word is the packing of its fields (R90). -/
theorem packTxn_fields (w : BitVec 38) : packTxn (txnWe w) (txnOff w) (txnData w) = w := by
  apply BitVec.eq_of_getLsbD_eq
  intro i hi
  simp only [txnWe, txnOff, txnData, packTxn, BitVec.getLsbD_extractLsb', BitVec.getLsbD_append]
  by_cases h1 : i < 32
  · simp [h1]
  · by_cases h2 : i < 37
    · have : i - 32 < 5 := by omega
      simp [h1, this, show 32 + (i - 32) = i by omega]
    · have h3 : i = 37 := by omega
      subst h3
      simp

@[simp] theorem uopOp_packUop (op : BitVec 5) (arg : BitVec 3) : uopOp (packUop op arg) = op := by
  apply BitVec.eq_of_getLsbD_eq
  intro i hi
  simp only [uopOp, packUop, BitVec.getLsbD_extractLsb', BitVec.getLsbD_append]
  simp [hi]

@[simp] theorem uopArg_packUop (op : BitVec 5) (arg : BitVec 3) : uopArg (packUop op arg) = arg := by
  apply BitVec.eq_of_getLsbD_eq
  intro i hi
  simp only [uopArg, packUop, BitVec.getLsbD_extractLsb', BitVec.getLsbD_append]
  simp [hi]

/-- A micro-operation byte is the packing of its fields (R95). -/
theorem packUop_fields (b : Byte) : packUop (uopOp b) (uopArg b) = b := by
  apply BitVec.eq_of_getLsbD_eq
  intro i hi
  simp only [uopOp, uopArg, packUop, BitVec.getLsbD_extractLsb', BitVec.getLsbD_append]
  by_cases h1 : i < 3
  · simp [h1]
  · have : i - 3 < 5 := by omega
    simp [h1, this, show 3 + (i - 3) = i by omega]

/-- A byte decodes to an instruction exactly when its operation does and the operand is legal (R96, R98). -/
theorem decodeUop_packUop (op : BitVec 5) (arg : BitVec 3) :
    decodeUop (packUop op arg)
      = match decodeOp op arg with
        | some i => if i.wellFormed then .instr i else .reservedUop (packUop op arg)
        | none => .reservedUop (packUop op arg) := by
  unfold decodeUop
  rw [uopOp_packUop, uopArg_packUop] <;> rfl

theorem decodeUop_wellFormed {b : Byte} {i : Instr} (h : decodeUop b = .instr i) : i.wellFormed = true := by
  unfold decodeUop at h
  split at h
  · split at h
    · cases h; assumption
    · cases h
  · cases h

/-- A transaction that is not a transaction of HMIX32 has a misaligned offset (R90, R221). -/
theorem decodeTxn_misaligned {w : BitVec 38} (h : legalOffset (txnOff w) = false) :
    decodeTxn w = .notATransaction w := by simp [decodeTxn, h]

theorem decodeTxn_read {w : BitVec 38} (h : legalOffset (txnOff w) = true) (hw : txnWe w = false) :
    decodeTxn w = .instr (.rd (txnOff w)) := by simp [decodeTxn, h, hw]

theorem legalOffset_iff (off : BitVec 5) : legalOffset off = true ↔ off.toNat % 4 = 0 := by
  revert off; decide

end Sys2Proof
end

