-- ==== Sys2Proof/Laws/State.lean ====
section
/-! SUPPORT. What each named update of the state does to each field: true by computation, so that no proof unfolds a
record update. -/

namespace Sys2Proof.Machine

section
variable (c : FaultCode) (a : Word) (s : State)
@[simp] theorem enterFault_addr : (enterFault c a s).addr = s.addr := rfl
@[simp] theorem enterFault_len : (enterFault c a s).len = s.len := rfl
@[simp] theorem enterFault_seed : (enterFault c a s).seed = s.seed := rfl
@[simp] theorem enterFault_digest : (enterFault c a s).digest = s.digest := rfl
@[simp] theorem enterFault_faddr : (enterFault c a s).faddr = a := rfl
@[simp] theorem enterFault_modeq : (enterFault c a s).modeq = s.modeq := rfl
@[simp] theorem enterFault_busy : (enterFault c a s).busy = false := rfl
@[simp] theorem enterFault_done : (enterFault c a s).done = false := rfl
@[simp] theorem enterFault_fault : (enterFault c a s).fault = true := rfl
@[simp] theorem enterFault_fcode : (enterFault c a s).fcode = c := rfl
@[simp] theorem enterFault_h : (enterFault c a s).h = s.h := rfl
@[simp] theorem enterFault_ptr : (enterFault c a s).ptr = s.ptr := rfl
@[simp] theorem enterFault_rem : (enterFault c a s).rem = s.rem := rfl
@[simp] theorem enterFault_align : (enterFault c a s).align = s.align := rfl
@[simp] theorem enterFault_sl : (enterFault c a s).sl = s.sl := rfl
@[simp] theorem enterFault_sr : (enterFault c a s).sr = s.sr := rfl
@[simp] theorem enterFault_t : (enterFault c a s).t = s.t := rfl
@[simp] theorem enterFault_olen : (enterFault c a s).olen = s.olen := rfl
@[simp] theorem enterFault_lanes : (enterFault c a s).lanes = s.lanes := rfl
@[simp] theorem enterFault_seq : (enterFault c a s).seq = .idle := rfl
@[simp] theorem enterFault_cfg : (enterFault c a s).cfg = s.cfg := rfl
@[simp] theorem enterFault_mem : (enterFault c a s).mem = s.mem := rfl
@[simp] theorem enterFault_agenda : (enterFault c a s).agenda = s.agenda := rfl
@[simp] theorem enterFault_hostReads : (enterFault c a s).hostReads = s.hostReads := rfl
@[simp] theorem enterFault_portLog : (enterFault c a s).portLog = s.portLog := rfl
end

section
variable (s : State)
@[simp] theorem clearStatus_addr : (clearStatus s).addr = s.addr := rfl
@[simp] theorem clearStatus_len : (clearStatus s).len = s.len := rfl
@[simp] theorem clearStatus_seed : (clearStatus s).seed = s.seed := rfl
@[simp] theorem clearStatus_digest : (clearStatus s).digest = s.digest := rfl
@[simp] theorem clearStatus_faddr : (clearStatus s).faddr = 0 := rfl
@[simp] theorem clearStatus_modeq : (clearStatus s).modeq = s.modeq := rfl
@[simp] theorem clearStatus_busy : (clearStatus s).busy = s.busy := rfl
@[simp] theorem clearStatus_done : (clearStatus s).done = false := rfl
@[simp] theorem clearStatus_fault : (clearStatus s).fault = false := rfl
@[simp] theorem clearStatus_fcode : (clearStatus s).fcode = .none := rfl
@[simp] theorem clearStatus_h : (clearStatus s).h = s.h := rfl
@[simp] theorem clearStatus_ptr : (clearStatus s).ptr = s.ptr := rfl
@[simp] theorem clearStatus_rem : (clearStatus s).rem = s.rem := rfl
@[simp] theorem clearStatus_align : (clearStatus s).align = s.align := rfl
@[simp] theorem clearStatus_sl : (clearStatus s).sl = s.sl := rfl
@[simp] theorem clearStatus_sr : (clearStatus s).sr = s.sr := rfl
@[simp] theorem clearStatus_t : (clearStatus s).t = s.t := rfl
@[simp] theorem clearStatus_olen : (clearStatus s).olen = s.olen := rfl
@[simp] theorem clearStatus_lanes : (clearStatus s).lanes = s.lanes := rfl
@[simp] theorem clearStatus_seq : (clearStatus s).seq = s.seq := rfl
@[simp] theorem clearStatus_cfg : (clearStatus s).cfg = s.cfg := rfl
@[simp] theorem clearStatus_mem : (clearStatus s).mem = s.mem := rfl
@[simp] theorem clearStatus_agenda : (clearStatus s).agenda = s.agenda := rfl
@[simp] theorem clearStatus_hostReads : (clearStatus s).hostReads = s.hostReads := rfl
@[simp] theorem clearStatus_portLog : (clearStatus s).portLog = s.portLog := rfl
end

section
variable (l : List ReadReq) (s : State)
@[simp] theorem logReads_addr : (logReads l s).addr = s.addr := rfl
@[simp] theorem logReads_len : (logReads l s).len = s.len := rfl
@[simp] theorem logReads_seed : (logReads l s).seed = s.seed := rfl
@[simp] theorem logReads_digest : (logReads l s).digest = s.digest := rfl
@[simp] theorem logReads_faddr : (logReads l s).faddr = s.faddr := rfl
@[simp] theorem logReads_modeq : (logReads l s).modeq = s.modeq := rfl
@[simp] theorem logReads_busy : (logReads l s).busy = s.busy := rfl
@[simp] theorem logReads_done : (logReads l s).done = s.done := rfl
@[simp] theorem logReads_fault : (logReads l s).fault = s.fault := rfl
@[simp] theorem logReads_fcode : (logReads l s).fcode = s.fcode := rfl
@[simp] theorem logReads_h : (logReads l s).h = s.h := rfl
@[simp] theorem logReads_ptr : (logReads l s).ptr = s.ptr := rfl
@[simp] theorem logReads_rem : (logReads l s).rem = s.rem := rfl
@[simp] theorem logReads_align : (logReads l s).align = s.align := rfl
@[simp] theorem logReads_sl : (logReads l s).sl = s.sl := rfl
@[simp] theorem logReads_sr : (logReads l s).sr = s.sr := rfl
@[simp] theorem logReads_t : (logReads l s).t = s.t := rfl
@[simp] theorem logReads_olen : (logReads l s).olen = s.olen := rfl
@[simp] theorem logReads_lanes : (logReads l s).lanes = s.lanes := rfl
@[simp] theorem logReads_seq : (logReads l s).seq = s.seq := rfl
@[simp] theorem logReads_cfg : (logReads l s).cfg = s.cfg := rfl
@[simp] theorem logReads_mem : (logReads l s).mem = s.mem := rfl
@[simp] theorem logReads_agenda : (logReads l s).agenda = s.agenda := rfl
@[simp] theorem logReads_hostReads : (logReads l s).hostReads = s.hostReads := rfl
@[simp] theorem logReads_portLog : (logReads l s).portLog = s.portLog ++ l := rfl
end

section
variable (d : Word) (s : State)
@[simp] theorem finish_addr : (finish d s).addr = s.addr := rfl
@[simp] theorem finish_len : (finish d s).len = s.len := rfl
@[simp] theorem finish_seed : (finish d s).seed = s.seed := rfl
@[simp] theorem finish_digest : (finish d s).digest = d := rfl
@[simp] theorem finish_faddr : (finish d s).faddr = s.faddr := rfl
@[simp] theorem finish_modeq : (finish d s).modeq = s.modeq := rfl
@[simp] theorem finish_busy : (finish d s).busy = false := rfl
@[simp] theorem finish_done : (finish d s).done = true := rfl
@[simp] theorem finish_fault : (finish d s).fault = s.fault := rfl
@[simp] theorem finish_fcode : (finish d s).fcode = s.fcode := rfl
@[simp] theorem finish_h : (finish d s).h = s.h := rfl
@[simp] theorem finish_ptr : (finish d s).ptr = s.ptr := rfl
@[simp] theorem finish_rem : (finish d s).rem = s.rem := rfl
@[simp] theorem finish_align : (finish d s).align = s.align := rfl
@[simp] theorem finish_sl : (finish d s).sl = s.sl := rfl
@[simp] theorem finish_sr : (finish d s).sr = s.sr := rfl
@[simp] theorem finish_t : (finish d s).t = s.t := rfl
@[simp] theorem finish_olen : (finish d s).olen = s.olen := rfl
@[simp] theorem finish_lanes : (finish d s).lanes = s.lanes := rfl
@[simp] theorem finish_seq : (finish d s).seq = .idle := rfl
@[simp] theorem finish_cfg : (finish d s).cfg = s.cfg := rfl
@[simp] theorem finish_mem : (finish d s).mem = s.mem := rfl
@[simp] theorem finish_agenda : (finish d s).agenda = s.agenda := rfl
@[simp] theorem finish_hostReads : (finish d s).hostReads = s.hostReads := rfl
@[simp] theorem finish_portLog : (finish d s).portLog = s.portLog := rfl
end

section
variable (n : Word) (s : State)
@[simp] theorem advance_addr : (advance n s).addr = s.addr := rfl
@[simp] theorem advance_len : (advance n s).len = s.len := rfl
@[simp] theorem advance_seed : (advance n s).seed = s.seed := rfl
@[simp] theorem advance_digest : (advance n s).digest = s.digest := rfl
@[simp] theorem advance_faddr : (advance n s).faddr = s.faddr := rfl
@[simp] theorem advance_modeq : (advance n s).modeq = s.modeq := rfl
@[simp] theorem advance_busy : (advance n s).busy = s.busy := rfl
@[simp] theorem advance_done : (advance n s).done = s.done := rfl
@[simp] theorem advance_fault : (advance n s).fault = s.fault := rfl
@[simp] theorem advance_fcode : (advance n s).fcode = s.fcode := rfl
@[simp] theorem advance_h : (advance n s).h = s.h := rfl
@[simp] theorem advance_ptr : (advance n s).ptr = s.ptr + n := rfl
@[simp] theorem advance_rem : (advance n s).rem = s.rem - n := rfl
@[simp] theorem advance_align : (advance n s).align = s.align := rfl
@[simp] theorem advance_sl : (advance n s).sl = s.sl := rfl
@[simp] theorem advance_sr : (advance n s).sr = s.sr := rfl
@[simp] theorem advance_t : (advance n s).t = s.t := rfl
@[simp] theorem advance_olen : (advance n s).olen = s.olen := rfl
@[simp] theorem advance_lanes : (advance n s).lanes = s.lanes := rfl
@[simp] theorem advance_seq : (advance n s).seq = s.seq := rfl
@[simp] theorem advance_cfg : (advance n s).cfg = s.cfg := rfl
@[simp] theorem advance_mem : (advance n s).mem = s.mem := rfl
@[simp] theorem advance_agenda : (advance n s).agenda = s.agenda := rfl
@[simp] theorem advance_hostReads : (advance n s).hostReads = s.hostReads := rfl
@[simp] theorem advance_portLog : (advance n s).portLog = s.portLog := rfl
end

section
variable (v : Word) (s : State)
@[simp] theorem giveToHost_addr : (giveToHost v s).addr = s.addr := rfl
@[simp] theorem giveToHost_len : (giveToHost v s).len = s.len := rfl
@[simp] theorem giveToHost_seed : (giveToHost v s).seed = s.seed := rfl
@[simp] theorem giveToHost_digest : (giveToHost v s).digest = s.digest := rfl
@[simp] theorem giveToHost_faddr : (giveToHost v s).faddr = s.faddr := rfl
@[simp] theorem giveToHost_modeq : (giveToHost v s).modeq = s.modeq := rfl
@[simp] theorem giveToHost_busy : (giveToHost v s).busy = s.busy := rfl
@[simp] theorem giveToHost_done : (giveToHost v s).done = s.done := rfl
@[simp] theorem giveToHost_fault : (giveToHost v s).fault = s.fault := rfl
@[simp] theorem giveToHost_fcode : (giveToHost v s).fcode = s.fcode := rfl
@[simp] theorem giveToHost_h : (giveToHost v s).h = s.h := rfl
@[simp] theorem giveToHost_ptr : (giveToHost v s).ptr = s.ptr := rfl
@[simp] theorem giveToHost_rem : (giveToHost v s).rem = s.rem := rfl
@[simp] theorem giveToHost_align : (giveToHost v s).align = s.align := rfl
@[simp] theorem giveToHost_sl : (giveToHost v s).sl = s.sl := rfl
@[simp] theorem giveToHost_sr : (giveToHost v s).sr = s.sr := rfl
@[simp] theorem giveToHost_t : (giveToHost v s).t = s.t := rfl
@[simp] theorem giveToHost_olen : (giveToHost v s).olen = s.olen := rfl
@[simp] theorem giveToHost_lanes : (giveToHost v s).lanes = s.lanes := rfl
@[simp] theorem giveToHost_seq : (giveToHost v s).seq = s.seq := rfl
@[simp] theorem giveToHost_cfg : (giveToHost v s).cfg = s.cfg := rfl
@[simp] theorem giveToHost_mem : (giveToHost v s).mem = s.mem := rfl
@[simp] theorem giveToHost_agenda : (giveToHost v s).agenda = s.agenda := rfl
@[simp] theorem giveToHost_hostReads : (giveToHost v s).hostReads = s.hostReads ++ [v] := rfl
@[simp] theorem giveToHost_portLog : (giveToHost v s).portLog = s.portLog := rfl
end

section
variable (a : Addr) (b : Byte) (s : State)
@[simp] theorem storeByte_addr : (storeByte a b s).addr = s.addr := rfl
@[simp] theorem storeByte_len : (storeByte a b s).len = s.len := rfl
@[simp] theorem storeByte_seed : (storeByte a b s).seed = s.seed := rfl
@[simp] theorem storeByte_digest : (storeByte a b s).digest = s.digest := rfl
@[simp] theorem storeByte_faddr : (storeByte a b s).faddr = s.faddr := rfl
@[simp] theorem storeByte_modeq : (storeByte a b s).modeq = s.modeq := rfl
@[simp] theorem storeByte_busy : (storeByte a b s).busy = s.busy := rfl
@[simp] theorem storeByte_done : (storeByte a b s).done = s.done := rfl
@[simp] theorem storeByte_fault : (storeByte a b s).fault = s.fault := rfl
@[simp] theorem storeByte_fcode : (storeByte a b s).fcode = s.fcode := rfl
@[simp] theorem storeByte_h : (storeByte a b s).h = s.h := rfl
@[simp] theorem storeByte_ptr : (storeByte a b s).ptr = s.ptr := rfl
@[simp] theorem storeByte_rem : (storeByte a b s).rem = s.rem := rfl
@[simp] theorem storeByte_align : (storeByte a b s).align = s.align := rfl
@[simp] theorem storeByte_sl : (storeByte a b s).sl = s.sl := rfl
@[simp] theorem storeByte_sr : (storeByte a b s).sr = s.sr := rfl
@[simp] theorem storeByte_t : (storeByte a b s).t = s.t := rfl
@[simp] theorem storeByte_olen : (storeByte a b s).olen = s.olen := rfl
@[simp] theorem storeByte_lanes : (storeByte a b s).lanes = s.lanes := rfl
@[simp] theorem storeByte_seq : (storeByte a b s).seq = s.seq := rfl
@[simp] theorem storeByte_cfg : (storeByte a b s).cfg = s.cfg := rfl
@[simp] theorem storeByte_mem : (storeByte a b s).mem = s.mem.writeByte a.toNat b := rfl
@[simp] theorem storeByte_agenda : (storeByte a b s).agenda = s.agenda := rfl
@[simp] theorem storeByte_hostReads : (storeByte a b s).hostReads = s.hostReads := rfl
@[simp] theorem storeByte_portLog : (storeByte a b s).portLog = s.portLog := rfl
end

section
variable (s : State)
@[simp] theorem resetRegisters_addr : (resetRegisters s).addr = State.reset.addr := rfl
@[simp] theorem resetRegisters_len : (resetRegisters s).len = State.reset.len := rfl
@[simp] theorem resetRegisters_seed : (resetRegisters s).seed = State.reset.seed := rfl
@[simp] theorem resetRegisters_digest : (resetRegisters s).digest = State.reset.digest := rfl
@[simp] theorem resetRegisters_faddr : (resetRegisters s).faddr = State.reset.faddr := rfl
@[simp] theorem resetRegisters_modeq : (resetRegisters s).modeq = State.reset.modeq := rfl
@[simp] theorem resetRegisters_busy : (resetRegisters s).busy = State.reset.busy := rfl
@[simp] theorem resetRegisters_done : (resetRegisters s).done = State.reset.done := rfl
@[simp] theorem resetRegisters_fault : (resetRegisters s).fault = State.reset.fault := rfl
@[simp] theorem resetRegisters_fcode : (resetRegisters s).fcode = State.reset.fcode := rfl
@[simp] theorem resetRegisters_h : (resetRegisters s).h = State.reset.h := rfl
@[simp] theorem resetRegisters_ptr : (resetRegisters s).ptr = State.reset.ptr := rfl
@[simp] theorem resetRegisters_rem : (resetRegisters s).rem = State.reset.rem := rfl
@[simp] theorem resetRegisters_align : (resetRegisters s).align = State.reset.align := rfl
@[simp] theorem resetRegisters_sl : (resetRegisters s).sl = State.reset.sl := rfl
@[simp] theorem resetRegisters_sr : (resetRegisters s).sr = State.reset.sr := rfl
@[simp] theorem resetRegisters_t : (resetRegisters s).t = State.reset.t := rfl
@[simp] theorem resetRegisters_olen : (resetRegisters s).olen = State.reset.olen := rfl
@[simp] theorem resetRegisters_lanes : (resetRegisters s).lanes = State.reset.lanes := rfl
@[simp] theorem resetRegisters_seq : (resetRegisters s).seq = State.reset.seq := rfl
@[simp] theorem resetRegisters_cfg : (resetRegisters s).cfg = s.cfg := rfl
@[simp] theorem resetRegisters_mem : (resetRegisters s).mem = s.mem := rfl
@[simp] theorem resetRegisters_agenda : (resetRegisters s).agenda = s.agenda := rfl
@[simp] theorem resetRegisters_hostReads : (resetRegisters s).hostReads = s.hostReads := rfl
@[simp] theorem resetRegisters_portLog : (resetRegisters s).portLog = s.portLog := rfl
end

section
variable (k : Word) (s : State)
@[simp] theorem writeWstep_addr : (writeWstep k s).addr = s.addr := rfl
@[simp] theorem writeWstep_len : (writeWstep k s).len = s.len := rfl
@[simp] theorem writeWstep_seed : (writeWstep k s).seed = s.seed := rfl
@[simp] theorem writeWstep_digest : (writeWstep k s).digest = s.digest := rfl
@[simp] theorem writeWstep_faddr : (writeWstep k s).faddr = s.faddr := rfl
@[simp] theorem writeWstep_modeq : (writeWstep k s).modeq = s.modeq := rfl
@[simp] theorem writeWstep_busy : (writeWstep k s).busy = s.busy := rfl
@[simp] theorem writeWstep_done : (writeWstep k s).done = s.done := rfl
@[simp] theorem writeWstep_fault : (writeWstep k s).fault = s.fault := rfl
@[simp] theorem writeWstep_fcode : (writeWstep k s).fcode = s.fcode := rfl
@[simp] theorem writeWstep_h : (writeWstep k s).h = mix s.cfg s.h k := rfl
@[simp] theorem writeWstep_ptr : (writeWstep k s).ptr = s.ptr + 4#32 := rfl
@[simp] theorem writeWstep_rem : (writeWstep k s).rem = s.rem - 4#32 := rfl
@[simp] theorem writeWstep_align : (writeWstep k s).align = s.align := rfl
@[simp] theorem writeWstep_sl : (writeWstep k s).sl = s.sl := rfl
@[simp] theorem writeWstep_sr : (writeWstep k s).sr = s.sr := rfl
@[simp] theorem writeWstep_t : (writeWstep k s).t = s.t := rfl
@[simp] theorem writeWstep_olen : (writeWstep k s).olen = s.olen := rfl
@[simp] theorem writeWstep_lanes : (writeWstep k s).lanes = s.lanes := rfl
@[simp] theorem writeWstep_seq : (writeWstep k s).seq = nw (s.rem - 4#32) := rfl
@[simp] theorem writeWstep_cfg : (writeWstep k s).cfg = s.cfg := rfl
@[simp] theorem writeWstep_mem : (writeWstep k s).mem = s.mem := rfl
@[simp] theorem writeWstep_agenda : (writeWstep k s).agenda = s.agenda := rfl
@[simp] theorem writeWstep_hostReads : (writeWstep k s).hostReads = s.hostReads := rfl
@[simp] theorem writeWstep_portLog : (writeWstep k s).portLog = s.portLog := rfl
end

section
variable (n : BitVec 3) (k : Word) (s : State)
@[simp] theorem writeTstep_addr : (writeTstep n k s).addr = s.addr := rfl
@[simp] theorem writeTstep_len : (writeTstep n k s).len = s.len := rfl
@[simp] theorem writeTstep_seed : (writeTstep n k s).seed = s.seed := rfl
@[simp] theorem writeTstep_digest : (writeTstep n k s).digest = s.digest := rfl
@[simp] theorem writeTstep_faddr : (writeTstep n k s).faddr = s.faddr := rfl
@[simp] theorem writeTstep_modeq : (writeTstep n k s).modeq = s.modeq := rfl
@[simp] theorem writeTstep_busy : (writeTstep n k s).busy = s.busy := rfl
@[simp] theorem writeTstep_done : (writeTstep n k s).done = s.done := rfl
@[simp] theorem writeTstep_fault : (writeTstep n k s).fault = s.fault := rfl
@[simp] theorem writeTstep_fcode : (writeTstep n k s).fcode = s.fcode := rfl
@[simp] theorem writeTstep_h : (writeTstep n k s).h = mix s.cfg s.h k := rfl
@[simp] theorem writeTstep_ptr : (writeTstep n k s).ptr = s.ptr + n.setWidth 32 := rfl
@[simp] theorem writeTstep_rem : (writeTstep n k s).rem = 0 := rfl
@[simp] theorem writeTstep_align : (writeTstep n k s).align = s.align := rfl
@[simp] theorem writeTstep_sl : (writeTstep n k s).sl = s.sl := rfl
@[simp] theorem writeTstep_sr : (writeTstep n k s).sr = s.sr := rfl
@[simp] theorem writeTstep_t : (writeTstep n k s).t = s.t := rfl
@[simp] theorem writeTstep_olen : (writeTstep n k s).olen = s.olen := rfl
@[simp] theorem writeTstep_lanes : (writeTstep n k s).lanes = s.lanes := rfl
@[simp] theorem writeTstep_seq : (writeTstep n k s).seq = .fin := rfl
@[simp] theorem writeTstep_cfg : (writeTstep n k s).cfg = s.cfg := rfl
@[simp] theorem writeTstep_mem : (writeTstep n k s).mem = s.mem := rfl
@[simp] theorem writeTstep_agenda : (writeTstep n k s).agenda = s.agenda := rfl
@[simp] theorem writeTstep_hostReads : (writeTstep n k s).hostReads = s.hostReads := rfl
@[simp] theorem writeTstep_portLog : (writeTstep n k s).portLog = s.portLog := rfl
end

section
variable (a : BitVec 3) (g : Word) (s : State)
@[simp] theorem writeAsetup_addr : (writeAsetup a g s).addr = s.addr := rfl
@[simp] theorem writeAsetup_len : (writeAsetup a g s).len = s.len := rfl
@[simp] theorem writeAsetup_seed : (writeAsetup a g s).seed = s.seed := rfl
@[simp] theorem writeAsetup_digest : (writeAsetup a g s).digest = s.digest := rfl
@[simp] theorem writeAsetup_faddr : (writeAsetup a g s).faddr = s.faddr := rfl
@[simp] theorem writeAsetup_modeq : (writeAsetup a g s).modeq = s.modeq := rfl
@[simp] theorem writeAsetup_busy : (writeAsetup a g s).busy = s.busy := rfl
@[simp] theorem writeAsetup_done : (writeAsetup a g s).done = s.done := rfl
@[simp] theorem writeAsetup_fault : (writeAsetup a g s).fault = s.fault := rfl
@[simp] theorem writeAsetup_fcode : (writeAsetup a g s).fcode = s.fcode := rfl
@[simp] theorem writeAsetup_h : (writeAsetup a g s).h = s.h := rfl
@[simp] theorem writeAsetup_ptr : (writeAsetup a g s).ptr = s.ptr + BitVec.ofNat 32 (4 - a.toNat) := rfl
@[simp] theorem writeAsetup_rem : (writeAsetup a g s).rem = s.rem - BitVec.ofNat 32 (4 - a.toNat) := rfl
@[simp] theorem writeAsetup_align : (writeAsetup a g s).align = s.align := rfl
@[simp] theorem writeAsetup_sl : (writeAsetup a g s).sl = BitVec.ofNat 5 (8 * (4 - a.toNat)) := rfl
@[simp] theorem writeAsetup_sr : (writeAsetup a g s).sr = BitVec.ofNat 5 (8 * a.toNat) := rfl
@[simp] theorem writeAsetup_t : (writeAsetup a g s).t = g <<< (8 * a.toNat) := rfl
@[simp] theorem writeAsetup_olen : (writeAsetup a g s).olen = s.olen := rfl
@[simp] theorem writeAsetup_lanes : (writeAsetup a g s).lanes = s.lanes := rfl
@[simp] theorem writeAsetup_seq : (writeAsetup a g s).seq = afterAligned (s.rem - BitVec.ofNat 32 (4 - a.toNat)) := rfl
@[simp] theorem writeAsetup_cfg : (writeAsetup a g s).cfg = s.cfg := rfl
@[simp] theorem writeAsetup_mem : (writeAsetup a g s).mem = s.mem := rfl
@[simp] theorem writeAsetup_agenda : (writeAsetup a g s).agenda = s.agenda := rfl
@[simp] theorem writeAsetup_hostReads : (writeAsetup a g s).hostReads = s.hostReads := rfl
@[simp] theorem writeAsetup_portLog : (writeAsetup a g s).portLog = s.portLog := rfl
end

section
variable (d : Word) (s : State)
@[simp] theorem writeAstep_addr : (writeAstep d s).addr = s.addr := rfl
@[simp] theorem writeAstep_len : (writeAstep d s).len = s.len := rfl
@[simp] theorem writeAstep_seed : (writeAstep d s).seed = s.seed := rfl
@[simp] theorem writeAstep_digest : (writeAstep d s).digest = s.digest := rfl
@[simp] theorem writeAstep_faddr : (writeAstep d s).faddr = s.faddr := rfl
@[simp] theorem writeAstep_modeq : (writeAstep d s).modeq = s.modeq := rfl
@[simp] theorem writeAstep_busy : (writeAstep d s).busy = s.busy := rfl
@[simp] theorem writeAstep_done : (writeAstep d s).done = s.done := rfl
@[simp] theorem writeAstep_fault : (writeAstep d s).fault = s.fault := rfl
@[simp] theorem writeAstep_fcode : (writeAstep d s).fcode = s.fcode := rfl
@[simp] theorem writeAstep_h : (writeAstep d s).h = mix s.cfg s.h (recombine s.sr s.sl s.t d) := rfl
@[simp] theorem writeAstep_ptr : (writeAstep d s).ptr = s.ptr + 4#32 := rfl
@[simp] theorem writeAstep_rem : (writeAstep d s).rem = s.rem - 4#32 := rfl
@[simp] theorem writeAstep_align : (writeAstep d s).align = s.align := rfl
@[simp] theorem writeAstep_sl : (writeAstep d s).sl = s.sl := rfl
@[simp] theorem writeAstep_sr : (writeAstep d s).sr = s.sr := rfl
@[simp] theorem writeAstep_t : (writeAstep d s).t = d := rfl
@[simp] theorem writeAstep_olen : (writeAstep d s).olen = s.olen := rfl
@[simp] theorem writeAstep_lanes : (writeAstep d s).lanes = s.lanes := rfl
@[simp] theorem writeAstep_seq : (writeAstep d s).seq = afterAligned (s.rem - 4#32) := rfl
@[simp] theorem writeAstep_cfg : (writeAstep d s).cfg = s.cfg := rfl
@[simp] theorem writeAstep_mem : (writeAstep d s).mem = s.mem := rfl
@[simp] theorem writeAstep_agenda : (writeAstep d s).agenda = s.agenda := rfl
@[simp] theorem writeAstep_hostReads : (writeAstep d s).hostReads = s.hostReads := rfl
@[simp] theorem writeAstep_portLog : (writeAstep d s).portLog = s.portLog := rfl
end

section
variable (p : BitVec 3) (d : Word) (s : State)
@[simp] theorem writeApack_addr : (writeApack p d s).addr = s.addr := rfl
@[simp] theorem writeApack_len : (writeApack p d s).len = s.len := rfl
@[simp] theorem writeApack_seed : (writeApack p d s).seed = s.seed := rfl
@[simp] theorem writeApack_digest : (writeApack p d s).digest = s.digest := rfl
@[simp] theorem writeApack_faddr : (writeApack p d s).faddr = s.faddr := rfl
@[simp] theorem writeApack_modeq : (writeApack p d s).modeq = s.modeq := rfl
@[simp] theorem writeApack_busy : (writeApack p d s).busy = s.busy := rfl
@[simp] theorem writeApack_done : (writeApack p d s).done = s.done := rfl
@[simp] theorem writeApack_fault : (writeApack p d s).fault = s.fault := rfl
@[simp] theorem writeApack_fcode : (writeApack p d s).fcode = s.fcode := rfl
@[simp] theorem writeApack_h : (writeApack p d s).h = mix s.cfg s.h (recombine s.sr s.sl s.t d) := rfl
@[simp] theorem writeApack_ptr : (writeApack p d s).ptr = s.ptr + p.setWidth 32 := rfl
@[simp] theorem writeApack_rem : (writeApack p d s).rem = s.rem - p.setWidth 32 := rfl
@[simp] theorem writeApack_align : (writeApack p d s).align = s.align := rfl
@[simp] theorem writeApack_sl : (writeApack p d s).sl = s.sl := rfl
@[simp] theorem writeApack_sr : (writeApack p d s).sr = s.sr := rfl
@[simp] theorem writeApack_t : (writeApack p d s).t = s.t := rfl
@[simp] theorem writeApack_olen : (writeApack p d s).olen = s.olen := rfl
@[simp] theorem writeApack_lanes : (writeApack p d s).lanes = s.lanes := rfl
@[simp] theorem writeApack_seq : (writeApack p d s).seq = afterApack (s.rem - p.setWidth 32) := rfl
@[simp] theorem writeApack_cfg : (writeApack p d s).cfg = s.cfg := rfl
@[simp] theorem writeApack_mem : (writeApack p d s).mem = s.mem := rfl
@[simp] theorem writeApack_agenda : (writeApack p d s).agenda = s.agenda := rfl
@[simp] theorem writeApack_hostReads : (writeApack p d s).hostReads = s.hostReads := rfl
@[simp] theorem writeApack_portLog : (writeApack p d s).portLog = s.portLog := rfl
end

section
variable (n : BitVec 3) (w : Word) (s : State)
@[simp] theorem writeGstep_addr : (writeGstep n w s).addr = s.addr := rfl
@[simp] theorem writeGstep_len : (writeGstep n w s).len = s.len := rfl
@[simp] theorem writeGstep_seed : (writeGstep n w s).seed = s.seed := rfl
@[simp] theorem writeGstep_digest : (writeGstep n w s).digest = s.digest := rfl
@[simp] theorem writeGstep_faddr : (writeGstep n w s).faddr = s.faddr := rfl
@[simp] theorem writeGstep_modeq : (writeGstep n w s).modeq = s.modeq := rfl
@[simp] theorem writeGstep_busy : (writeGstep n w s).busy = s.busy := rfl
@[simp] theorem writeGstep_done : (writeGstep n w s).done = s.done := rfl
@[simp] theorem writeGstep_fault : (writeGstep n w s).fault = s.fault := rfl
@[simp] theorem writeGstep_fcode : (writeGstep n w s).fcode = s.fcode := rfl
@[simp] theorem writeGstep_h : (writeGstep n w s).h = s.h := rfl
@[simp] theorem writeGstep_ptr : (writeGstep n w s).ptr = s.ptr + n.setWidth 32 := rfl
@[simp] theorem writeGstep_rem : (writeGstep n w s).rem = 0 := rfl
@[simp] theorem writeGstep_align : (writeGstep n w s).align = s.align := rfl
@[simp] theorem writeGstep_sl : (writeGstep n w s).sl = s.sl := rfl
@[simp] theorem writeGstep_sr : (writeGstep n w s).sr = s.sr := rfl
@[simp] theorem writeGstep_t : (writeGstep n w s).t = s.t := rfl
@[simp] theorem writeGstep_olen : (writeGstep n w s).olen = s.olen := rfl
@[simp] theorem writeGstep_lanes : (writeGstep n w s).lanes = smixPrimary s.cfg s.cfg.cpair.lane0 w s.lanes := rfl
@[simp] theorem writeGstep_seq : (writeGstep n w s).seq = .wlen := rfl
@[simp] theorem writeGstep_cfg : (writeGstep n w s).cfg = s.cfg := rfl
@[simp] theorem writeGstep_mem : (writeGstep n w s).mem = s.mem := rfl
@[simp] theorem writeGstep_agenda : (writeGstep n w s).agenda = s.agenda := rfl
@[simp] theorem writeGstep_hostReads : (writeGstep n w s).hostReads = s.hostReads := rfl
@[simp] theorem writeGstep_portLog : (writeGstep n w s).portLog = s.portLog := rfl
end

section
variable (ws : List (Word × Word)) (s : State)
@[simp] theorem writeSmall_addr : (writeSmall ws s).addr = s.addr := rfl
@[simp] theorem writeSmall_len : (writeSmall ws s).len = s.len := rfl
@[simp] theorem writeSmall_seed : (writeSmall ws s).seed = s.seed := rfl
@[simp] theorem writeSmall_digest : (writeSmall ws s).digest = s.digest := rfl
@[simp] theorem writeSmall_faddr : (writeSmall ws s).faddr = s.faddr := rfl
@[simp] theorem writeSmall_modeq : (writeSmall ws s).modeq = s.modeq := rfl
@[simp] theorem writeSmall_busy : (writeSmall ws s).busy = s.busy := rfl
@[simp] theorem writeSmall_done : (writeSmall ws s).done = s.done := rfl
@[simp] theorem writeSmall_fault : (writeSmall ws s).fault = s.fault := rfl
@[simp] theorem writeSmall_fcode : (writeSmall ws s).fcode = s.fcode := rfl
@[simp] theorem writeSmall_h : (writeSmall ws s).h = s.h := rfl
@[simp] theorem writeSmall_ptr : (writeSmall ws s).ptr = s.ptr + s.len := rfl
@[simp] theorem writeSmall_rem : (writeSmall ws s).rem = 0 := rfl
@[simp] theorem writeSmall_align : (writeSmall ws s).align = s.align := rfl
@[simp] theorem writeSmall_sl : (writeSmall ws s).sl = s.sl := rfl
@[simp] theorem writeSmall_sr : (writeSmall ws s).sr = s.sr := rfl
@[simp] theorem writeSmall_t : (writeSmall ws s).t = s.t := rfl
@[simp] theorem writeSmall_olen : (writeSmall ws s).olen = s.olen := rfl
@[simp] theorem writeSmall_lanes : (writeSmall ws s).lanes = group s.cfg ws s.lanes := rfl
@[simp] theorem writeSmall_seq : (writeSmall ws s).seq = .wlen := rfl
@[simp] theorem writeSmall_cfg : (writeSmall ws s).cfg = s.cfg := rfl
@[simp] theorem writeSmall_mem : (writeSmall ws s).mem = s.mem := rfl
@[simp] theorem writeSmall_agenda : (writeSmall ws s).agenda = s.agenda := rfl
@[simp] theorem writeSmall_hostReads : (writeSmall ws s).hostReads = s.hostReads := rfl
@[simp] theorem writeSmall_portLog : (writeSmall ws s).portLog = s.portLog := rfl
end

section
variable (k : BitVec 3) (ws : List (Word × Word)) (s : State)
@[simp] theorem writeBlk_addr : (writeBlk k ws s).addr = s.addr := rfl
@[simp] theorem writeBlk_len : (writeBlk k ws s).len = s.len := rfl
@[simp] theorem writeBlk_seed : (writeBlk k ws s).seed = s.seed := rfl
@[simp] theorem writeBlk_digest : (writeBlk k ws s).digest = s.digest := rfl
@[simp] theorem writeBlk_faddr : (writeBlk k ws s).faddr = s.faddr := rfl
@[simp] theorem writeBlk_modeq : (writeBlk k ws s).modeq = s.modeq := rfl
@[simp] theorem writeBlk_busy : (writeBlk k ws s).busy = s.busy := rfl
@[simp] theorem writeBlk_done : (writeBlk k ws s).done = s.done := rfl
@[simp] theorem writeBlk_fault : (writeBlk k ws s).fault = s.fault := rfl
@[simp] theorem writeBlk_fcode : (writeBlk k ws s).fcode = s.fcode := rfl
@[simp] theorem writeBlk_h : (writeBlk k ws s).h = s.h := rfl
@[simp] theorem writeBlk_ptr : (writeBlk k ws s).ptr = s.ptr + BitVec.ofNat 32 (8 * k.toNat) := rfl
@[simp] theorem writeBlk_rem : (writeBlk k ws s).rem = s.rem - BitVec.ofNat 32 (8 * k.toNat) := rfl
@[simp] theorem writeBlk_align : (writeBlk k ws s).align = s.align := rfl
@[simp] theorem writeBlk_sl : (writeBlk k ws s).sl = s.sl := rfl
@[simp] theorem writeBlk_sr : (writeBlk k ws s).sr = s.sr := rfl
@[simp] theorem writeBlk_t : (writeBlk k ws s).t = s.t := rfl
@[simp] theorem writeBlk_olen : (writeBlk k ws s).olen = s.olen := rfl
@[simp] theorem writeBlk_lanes : (writeBlk k ws s).lanes = group s.cfg ws s.lanes := rfl
@[simp] theorem writeBlk_seq : (writeBlk k ws s).seq = afterBlk k (s.rem - BitVec.ofNat 32 (8 * k.toNat)) := rfl
@[simp] theorem writeBlk_cfg : (writeBlk k ws s).cfg = s.cfg := rfl
@[simp] theorem writeBlk_mem : (writeBlk k ws s).mem = s.mem := rfl
@[simp] theorem writeBlk_agenda : (writeBlk k ws s).agenda = s.agenda := rfl
@[simp] theorem writeBlk_hostReads : (writeBlk k ws s).hostReads = s.hostReads := rfl
@[simp] theorem writeBlk_portLog : (writeBlk k ws s).portLog = s.portLog := rfl
end

section
variable (w : Word) (s : State)
@[simp] theorem writeSstep_addr : (writeSstep w s).addr = s.addr := rfl
@[simp] theorem writeSstep_len : (writeSstep w s).len = s.len := rfl
@[simp] theorem writeSstep_seed : (writeSstep w s).seed = s.seed := rfl
@[simp] theorem writeSstep_digest : (writeSstep w s).digest = s.digest := rfl
@[simp] theorem writeSstep_faddr : (writeSstep w s).faddr = s.faddr := rfl
@[simp] theorem writeSstep_modeq : (writeSstep w s).modeq = s.modeq := rfl
@[simp] theorem writeSstep_busy : (writeSstep w s).busy = s.busy := rfl
@[simp] theorem writeSstep_done : (writeSstep w s).done = s.done := rfl
@[simp] theorem writeSstep_fault : (writeSstep w s).fault = s.fault := rfl
@[simp] theorem writeSstep_fcode : (writeSstep w s).fcode = s.fcode := rfl
@[simp] theorem writeSstep_h : (writeSstep w s).h = s.h := rfl
@[simp] theorem writeSstep_ptr : (writeSstep w s).ptr = s.ptr + 4#32 := rfl
@[simp] theorem writeSstep_rem : (writeSstep w s).rem = s.rem - 4#32 := rfl
@[simp] theorem writeSstep_align : (writeSstep w s).align = s.align := rfl
@[simp] theorem writeSstep_sl : (writeSstep w s).sl = s.sl := rfl
@[simp] theorem writeSstep_sr : (writeSstep w s).sr = s.sr := rfl
@[simp] theorem writeSstep_t : (writeSstep w s).t = s.t := rfl
@[simp] theorem writeSstep_olen : (writeSstep w s).olen = s.olen := rfl
@[simp] theorem writeSstep_lanes : (writeSstep w s).lanes = smixPrimary s.cfg s.cfg.cpair.lane0 w s.lanes := rfl
@[simp] theorem writeSstep_seq : (writeSstep w s).seq = afterSstep (s.rem - 4#32) := rfl
@[simp] theorem writeSstep_cfg : (writeSstep w s).cfg = s.cfg := rfl
@[simp] theorem writeSstep_mem : (writeSstep w s).mem = s.mem := rfl
@[simp] theorem writeSstep_agenda : (writeSstep w s).agenda = s.agenda := rfl
@[simp] theorem writeSstep_hostReads : (writeSstep w s).hostReads = s.hostReads := rfl
@[simp] theorem writeSstep_portLog : (writeSstep w s).portLog = s.portLog := rfl
end

end Sys2Proof.Machine
end

