-- ==== Sys2Proof/Laws/Port.lean ====
section
/-! SUPPORT. The memory port, said once: the reads of every micro-operation answer the list of requests `reads` names,
with the value the rules give, or stop at the first request that is not served. -/

namespace Sys2Proof.Machine

@[simp] theorem bind_pure {α β : Type} (v : α) (k : α → PortRead β) : (PortRead.pure v).bind k = k v := by
  simp only [PortRead.pure, PortRead.bind]
  cases k v <;> simp

/-- The answer to the requests `qs` when their value is `v`: all issued, or stopped at the first failure. -/
def answer {α : Type} (cfg : Config) (qs : List ReadReq) (v : α) : PortRead α :=
  match firstFailure cfg qs with
  | none => .ok v (issuedReads cfg qs)
  | some a => .busError a (issuedReads cfg qs)

@[simp] theorem answer_nil {α : Type} (cfg : Config) (v : α) : answer cfg [] v = .pure v := rfl

theorem pure_eq_answer {α : Type} (cfg : Config) (v : α) : PortRead.pure v = answer cfg [] v := rfl

theorem firstFailure_append (cfg : Config) (qs rs : List ReadReq) :
    firstFailure cfg (qs ++ rs) = (firstFailure cfg qs).or (firstFailure cfg rs) := by
  induction qs with
  | nil => rfl
  | cons q qs ih =>
    simp only [List.cons_append, firstFailure]
    split
    · exact ih
    · rfl

theorem issuedReads_append (cfg : Config) (qs rs : List ReadReq) :
    issuedReads cfg (qs ++ rs)
      = if firstFailure cfg qs = none then issuedReads cfg qs ++ issuedReads cfg rs else issuedReads cfg qs := by
  induction qs with
  | nil => simp [firstFailure, issuedReads]
  | cons q qs ih =>
    simp only [List.cons_append, firstFailure, issuedReads]
    split
    · rw [ih]; split <;> rfl
    · simp

/-- The first failure is none exactly when the port serves every request; then all of them are issued. -/
theorem firstFailure_eq_none {cfg : Config} {qs : List ReadReq} :
    firstFailure cfg qs = none ↔ qs.all (served cfg) = true := by
  induction qs with
  | nil => simp [firstFailure]
  | cons q qs ih =>
    simp only [firstFailure, List.all_cons, Bool.and_eq_true]
    split
    · simp [*]
    · simp [*]

theorem issuedReads_of_served {cfg : Config} {qs : List ReadReq} (h : qs.all (served cfg) = true) :
    issuedReads cfg qs = qs := by
  induction qs with
  | nil => rfl
  | cons q qs ih =>
    simp only [List.all_cons, Bool.and_eq_true] at h
    simp [issuedReads, h.1, ih h.2]

/-- Every issued request is one of the list. -/
theorem mem_issuedReads {cfg : Config} {qs : List ReadReq} {q : ReadReq} (h : q ∈ issuedReads cfg qs) : q ∈ qs := by
  induction qs with
  | nil => exact h
  | cons r qs ih =>
    simp only [issuedReads] at h
    split at h
    · rcases List.mem_cons.1 h with rfl | h
      · exact List.mem_cons_self
      · exact List.mem_cons_of_mem _ (ih h)
    · rw [List.mem_singleton.1 h]; exact List.mem_cons_self

theorem answer_of_served {α : Type} {cfg : Config} {qs : List ReadReq} (h : qs.all (served cfg) = true) (v : α) :
    answer cfg qs v = .ok v qs := by
  simp [answer, firstFailure_eq_none.2 h, issuedReads_of_served h]

/-- Reads after reads: the requests follow each other. -/
theorem answer_bind {α β : Type} (cfg : Config) (qs rs : List ReadReq) (v : α) (w : β) (k : α → PortRead β)
    (hk : k v = answer cfg rs w) : (answer cfg qs v).bind k = answer cfg (qs ++ rs) w := by
  unfold answer
  rw [firstFailure_append, issuedReads_append]
  cases hq : firstFailure cfg qs with
  | some a => simp [PortRead.bind]
  | none =>
    simp only [PortRead.bind, hk, answer]
    cases hr : firstFailure cfg rs <;> simp

theorem answer_map {α β : Type} (cfg : Config) (qs : List ReadReq) (v : α) (f : α → β) :
    (answer cfg qs v).map f = answer cfg qs (f v) := by
  have := answer_bind cfg qs [] v (f v) (fun v => .pure (f v)) rfl
  simpa [PortRead.map] using this

theorem memRead_eq (s : State) (q : ReadReq) :
    memRead s q = answer s.cfg [q] (q.addresses.map s.mem.readByte) := by
  unfold memRead answer firstFailure issuedReads served
  cases refusedForAlignment s.cfg q <;> cases q.addresses.all (readable s.cfg) <;> rfl

theorem shiftLeft_8 (x : Word) : x <<< 8 = x * 256 := by rw [BitVec.shiftLeft_eq_mul_twoPow]; rfl
theorem shiftLeft_16 (x : Word) : x <<< 16 = x * 65536 := by rw [BitVec.shiftLeft_eq_mul_twoPow]; rfl
theorem shiftLeft_24 (x : Word) : x <<< 24 = x * 16777216 := by rw [BitVec.shiftLeft_eq_mul_twoPow]; rfl

/-- Four bytes, lowest address first, as R63 writes them. -/
theorem leWord_four (b0 b1 b2 b3 : Byte) : leWord [b0, b1, b2, b3]
    = b0.setWidth 32 + (b1.setWidth 32 <<< 8) + (b2.setWidth 32 <<< 16) + (b3.setWidth 32 <<< 24) := by
  simp only [leWord, shiftLeft_8, shiftLeft_16, shiftLeft_24]
  ring

theorem leWord_one (b : Byte) : leWord [b] = b.setWidth 32 := by simp [leWord]

/-- RD32 answers one word request with the little-endian word (R62, R63). -/
theorem rd32_eq (s : State) (a : Addr) : rd32 s a = answer s.cfg (wordReqs [a]) (memWord s a) := by
  unfold rd32
  rw [memRead_eq, answer_map]
  exact congrArg (answer s.cfg (wordReqs [a])) (leWord_four _ _ _ _)

/-- RD8 answers one byte request with the byte, zero-extended (R62, R64). -/
theorem rd8_eq (s : State) (a : Addr) : rd8 s a = answer s.cfg (byteReqs [a]) (memByte s a) := by
  unfold rd8
  rw [memRead_eq, answer_map]
  exact congrArg (answer s.cfg (byteReqs [a])) (leWord_one _)

theorem answer_when {cfg : Config} {qs : List ReadReq} {v : Word} (c : Bool) (r : PortRead Word)
    (hr : r = answer cfg qs v) :
    PortRead.when c r = answer cfg (if c then qs else []) (if c then v else 0) := by
  cases c <;> simp [PortRead.when, hr]

/-- TG answers the byte requests of R70 with the gathered value (R131). -/
theorem tg_eq (s : State) (p : Addr) (n : Nat) : tg s p n = answer s.cfg (tailReqs p n) (tailValue s p n) := by
  unfold tg
  rw [answer_when (decide (n ≥ 3)) ((rd8 s (p + 2#32)).map fun b : Word => b <<< 16) (by rw [rd8_eq, answer_map])]
  simp only [answer_when (decide (n ≥ 2)) ((rd8 s (p + 1#32)).map fun b : Word => b <<< 8)
    (by rw [rd8_eq, answer_map]), answer_when (decide (n ≥ 1)) (rd8 s p) (rd8_eq s p)]
  refine Eq.trans (b := answer s.cfg (_ ++ (_ ++ (_ ++ []))) _)
    (answer_bind _ _ _ _ _ _ (answer_bind _ _ _ _ _ _ (answer_bind _ _ _ _ _ _ (pure_eq_answer _ _)))) ?_
  congr 1
  · simp only [tailReqs, byteReqs, List.map_append, List.append_assoc, List.append_nil, decide_eq_true_eq]
    congr 1
    · split <;> rfl
    · congr 1 <;> split <;> rfl
  · simp [tailValue]

/-- G3 answers its three byte requests with the gathered value (R175). -/
theorem g3_eq (s : State) (p : Addr) (n : Nat) :
    g3 s p n = answer s.cfg (byteReqs [p, p + BitVec.ofNat 32 (n / 2), p + BitVec.ofNat 32 (n - 1)])
      (gatherValue s p n) := by
  unfold g3
  simp only [rd8_eq]
  exact answer_bind _ _ _ _ _ _ (answer_bind _ _ _ _ _ _ (answer_bind _ _ _ _ _ _ (pure_eq_answer _ _)))

/-- The addresses of the words of a block of `k` pairs, ascending. -/
def blockAddrs (p : Addr) : Nat → List Addr
  | 0 => []
  | k + 1 => p :: (p + 4#32) :: blockAddrs (p + 8#32) k

@[simp] theorem pairsValue_length (s : State) (p : Addr) (k : Nat) : (pairsValue s p k).length = k := by
  induction k generalizing p with
  | zero => rfl
  | succ k ih => simp [pairsValue, ih]

/-- The words of BLK are requested in ascending order (R70, R180). -/
theorem rdPairs_eq (s : State) (p : Addr) (k : Nat) :
    rdPairs s p k = answer s.cfg (wordReqs (blockAddrs p k)) (pairsValue s p k) := by
  induction k generalizing p with
  | zero => rfl
  | succ k ih =>
    simp only [rdPairs, rd32_eq, ih]
    refine Eq.trans (b := answer s.cfg (wordReqs [p] ++ (wordReqs [p + 4#32]
      ++ (wordReqs (blockAddrs (p + 8#32) k) ++ []))) _)
      (answer_bind _ _ _ _ _ _ (answer_bind _ _ _ _ _ _ (answer_bind _ _ _ _ _ _ (pure_eq_answer _ _)))) ?_
    rw [List.append_nil]
    rfl

theorem blockAddrs_eq (p : Addr) (k : Nat) :
    blockAddrs p k = (List.range (2 * k)).map fun i => p + BitVec.ofNat 32 (4 * i) := by
  induction k generalizing p with
  | zero => rfl
  | succ k ih =>
    have e : 2 * (k + 1) = (2 * k + 1) + 1 := by omega
    rw [e, List.range_succ_eq_map, List.range_succ_eq_map, blockAddrs, ih]
    simp only [List.map_cons, List.map_map, Nat.mul_zero, List.cons.injEq]
    refine ⟨by simp, by simp, ?_⟩
    apply List.map_congr_left
    intro i _
    simp only [Function.comp]
    apply BitVec.eq_of_toNat_eq
    simp only [BitVec.toNat_add, BitVec.toNat_ofNat]
    omega

/-- The words of SMALL are requested in the order R179 writes them. -/
theorem smallPairs_eq (s : State) (c : BitVec 3) :
    smallPairs s c = answer s.cfg (reads s (.small c)) (smallValue s c) := by
  have h0 : s.addr + 0#32 = s.addr := by simp
  unfold smallPairs smallValue reads wordAt
  simp only [rd32_eq, h0]
  split
  · exact answer_bind _ _ _ _ _ _ (answer_bind _ _ _ _ _ _ (pure_eq_answer _ _))
  · split <;>
    exact answer_bind _ _ _ _ _ _ (answer_bind _ _ _ _ _ _ (answer_bind _ _ _ _ _ _
      (answer_bind _ _ _ _ _ _ (pure_eq_answer _ _))))

/-! ### What a micro-operation does after its reads -/

theorem afterReads_answer {α : Type} (s : State) (qs : List ReadReq) (v : α) (write : α → State → State) :
    afterReads (answer s.cfg qs v) write s
      = match firstFailure s.cfg qs with
        | none => write v (logReads qs s)
        | some a => enterFault .buserr a (logReads (issuedReads s.cfg qs) s) := by
  unfold answer
  cases h : firstFailure s.cfg qs with
  | none => simp [afterReads, issuedReads_of_served (firstFailure_eq_none.1 h)]
  | some a => simp [afterReads]

end Sys2Proof.Machine
end

