-- ==== Sys2Proof/Laws/Step.lean ====
section
/-! SUPPORT. What a step can do, said once: the events, the HOST's turn, the MIXER's turn, and the commands. -/

namespace Sys2Proof.Machine

/-- A step that answers a next state ran an instruction or settled an event. -/
theorem step_cases {s t : State} (h : step s = .next t) :
    (∃ i u, fetch s = .run i u ∧ exec i u = .next t) ∨ fetch s = .settled t := by
  unfold step at h
  split at h
  · exact .inl ⟨_, _, ‹_›, h⟩
  · cases h; exact .inr ‹_›
  · cases h
  · cases h

theorem step_of_run {s u : State} {i : Instr} (h : fetch s = .run i u) : step s = exec i u := by
  simp [step, h]

theorem step_of_settled {s t : State} (h : fetch s = .settled t) : step s = .next t := by
  simp [step, h]

/-- What the HOST's turn can find. -/
theorem hostTurn_cases (w : BitVec 38) (s : State) :
    (∃ i, decodeTxn w = .instr i ∧ hostTurn w s = .run i s) ∨
    (∃ v, decodeTxn w = .badCommand v ∧ hostTurn w s = .settled (whenIdle badCommand s)) ∨
    hostTurn w s = .refuse .notATransaction := by
  unfold hostTurn
  cases decodeTxn w <;> simp

/-- A HOST access is the transaction at its offset, or is refused (R91, R221). -/
theorem accessTurn_cases (we : Bool) (ha n : Nat) (v : Word) (s : State) :
    (∃ off, windowOffset s.cfg ha n = some off ∧ accessTurn we ha n v s = hostTurn (packTxn we off v) s) ∨
    (windowOffset s.cfg ha n = none ∧ accessTurn we ha n v s = .refuse .notATransaction) := by
  unfold accessTurn
  cases windowOffset s.cfg ha n <;> simp

/-- The instructions a HOST transaction can be: never a micro-operation. -/
def isHost : Instr → Bool
  | .rd _ | .wrAddr _ | .wrLen _ | .wrSeed _ | .wrStatus _ | .wrDigest _ | .wrFaddr _ | .wrRsvd1c _ | .nop
  | .startSimple | .startAligned | .startWide | .clr => true
  | .init32 | .wstep | .tstep _ | .fin32 | .asetup _ | .astep | .apack _ | .winit | .gstep _ | .small _ | .blk _
  | .sstep | .lstep | .wfin => false

theorem decodeCommand_isHost {v : Word} {i : Instr} (h : decodeCommand v = .instr i) :
    isHost i = true ∧ i.wellFormed = true := by
  unfold decodeCommand at h
  repeat' split at h
  all_goals first | (cases h; exact ⟨rfl, rfl⟩) | cases h

/-- A transaction decodes to a well-formed HOST instruction. -/
theorem decodeTxn_isHost {w : BitVec 38} {i : Instr} (h : decodeTxn w = .instr i) :
    isHost i = true ∧ i.wellFormed = true := by
  by_cases hl : legalOffset (txnOff w) = true
  · by_cases hw : txnWe w = true
    · simp only [decodeTxn, hl, hw, Bool.true_eq_false, if_false] at h
      repeat' split at h
      all_goals first | exact decodeCommand_isHost h | (cases h; exact ⟨rfl, rfl⟩)
    · rw [decodeTxn_read hl (by simpa using hw)] at h
      cases h
      exact ⟨rfl, hl⟩
  · rw [decodeTxn_misaligned (by simpa using hl)] at h
    cases h

/-- A HOST instruction changes only these: the operands while idle, the display and the start of a run while idle, and
the values given to the HOST. -/
theorem exec_host_cases {i : Instr} {s t : State} (hi : isHost i = true) (h : exec i s = .next t) :
    (∃ off, i = .rd off ∧ legalOffset off = true ∧ t = giveToHost (regRead s off) s) ∨
    t = s ∨
    (s.busy = false ∧
      ((∃ v, i = .wrAddr v ∧ t = { s with addr := v }) ∨ (∃ v, i = .wrLen v ∧ t = { s with len := v }) ∨
       (∃ v, i = .wrSeed v ∧ t = { s with seed := v }) ∨ (i = .clr ∧ t = clearStatus s) ∨
       (∃ m, (i, m) ∈ [(Instr.startSimple, Mode.simple), (.startAligned, .aligned), (.startWide, .wide)] ∧
        t = startCommand m s))) := by
  cases i <;> simp only [isHost, Bool.false_eq_true] at hi
  case rd off =>
    simp only [exec, execRd] at h
    split at h
    · cases h; exact .inl ⟨off, rfl, ‹_›, rfl⟩
    · cases h
  case wrStatus => cases h; exact .inr (.inl rfl)
  case wrDigest => cases h; exact .inr (.inl rfl)
  case wrFaddr => cases h; exact .inr (.inl rfl)
  case wrRsvd1c => cases h; exact .inr (.inl rfl)
  all_goals
    cases h
    unfold whenIdle
    split
    · exact .inr (.inl rfl)
    · rename_i hb
      have hb : s.busy = false := by simpa using hb
      first
        | exact .inr (.inl rfl)
        | exact .inr (.inr ⟨hb, .inl ⟨_, rfl, rfl⟩⟩)
        | exact .inr (.inr ⟨hb, .inr (.inl ⟨_, rfl, rfl⟩)⟩)
        | exact .inr (.inr ⟨hb, .inr (.inr (.inl ⟨_, rfl, rfl⟩))⟩)
        | exact .inr (.inr ⟨hb, .inr (.inr (.inr (.inl ⟨rfl, rfl⟩)))⟩)
        | exact .inr (.inr ⟨hb, .inr (.inr (.inr (.inr ⟨.simple, by decide, rfl⟩)))⟩)
        | exact .inr (.inr ⟨hb, .inr (.inr (.inr (.inr ⟨.aligned, by decide, rfl⟩)))⟩)
        | exact .inr (.inr ⟨hb, .inr (.inr (.inr (.inr ⟨.wide, by decide, rfl⟩)))⟩)

/-- The three outcomes of a START written while idle (R214, R255). -/
theorem startCommand_cases (m : Mode) (s : State) :
    (startCommand m s = enterFault .badlen 0 (clearStatus s) ∧ s.len.toNat ≥ 2 ^ 31) ∨
    (startCommand m s = enterFault .range 0 (clearStatus s) ∧ s.len.toNat < 2 ^ 31 ∧ s.len ≠ 0#32 ∧
      s.addr.toNat + s.len.toNat > 2 ^ 32) ∨
    (startCommand m s = { clearStatus s with modeq := m, busy := true, seq := .init } ∧ OperandsOk s) := by
  have hbit : s.len.getLsbD 31 = true ↔ s.len.toNat ≥ 2 ^ 31 := by
    rw [← BitVec.msb_eq_getLsbD_last, BitVec.msb_eq_decide]; simp
  have e : startCommand m s
      = if s.len.getLsbD 31 = true then enterFault .badlen 0 (clearStatus s)
        else if s.len ≠ 0#32 ∧ s.addr.toNat + s.len.toNat > 2 ^ 32 then enterFault .range 0 (clearStatus s)
        else { clearStatus s with modeq := m, busy := true, seq := .init } := rfl
  rw [e]
  by_cases h1 : s.len.getLsbD 31 = true
  · exact .inl ⟨by simp [h1], hbit.1 h1⟩
  · have h1' : s.len.toNat < 2 ^ 31 := by
      have := mt hbit.2 h1; omega
    by_cases h2 : s.len ≠ 0#32 ∧ s.addr.toNat + s.len.toNat > 2 ^ 32
    · exact .inr (.inl ⟨by rw [if_neg h1, if_pos h2], h1', h2.1, h2.2⟩)
    · refine .inr (.inr ⟨by rw [if_neg h1, if_neg h2], h1', ?_⟩)
      by_cases h3 : s.len = 0#32
      · exact .inl h3
      · exact .inr (by by_contra h; exact h2 ⟨h3, by omega⟩)

/-- What a step can find: the MIXER's turn, the HOST's turn, a reset, a store by another agent. -/
theorem fetch_cases (s : State) :
    (s.agenda = [] ∧ fetch s = mixerTurn s) ∨
    (∃ es, s.agenda = .mixer :: es ∧ fetch s = mixerTurn { s with agenda := es }) ∨
    (∃ w es, s.agenda = .txn w :: es ∧ fetch s = hostTurn w { s with agenda := es }) ∨
    (∃ we a n d es, s.agenda = .access we a n d :: es ∧ fetch s = accessTurn we a n d { s with agenda := es }) ∨
    (∃ es, s.agenda = .reset :: es ∧ fetch s = .settled (resetRegisters { s with agenda := es })) ∨
    (∃ a b es, s.agenda = .store a b :: es ∧ fetch s = .settled (storeByte a b { s with agenda := es })) := by
  unfold fetch
  cases h : s.agenda with
  | nil => simp
  | cons e es => cases e <;> simp

/-- The MIXER's turn (R240). -/
theorem mixerTurn_cases (s : State) :
    (s.busy = false ∧ mixerTurn s = .settled s) ∨
    (s.busy = true ∧ s.seq = .idle ∧ mixerTurn s = .stuck .mixerHasNoStep) ∨
    (s.busy = true ∧ s.seq ≠ .idle ∧
      ((∃ i, decodeUop (issue s) = .instr i ∧ mixerTurn s = .run i s) ∨
       (∃ b, mixerTurn s = .refuse (.reservedUop b) ∧ ∀ i, decodeUop (issue s) ≠ .instr i))) := by
  unfold mixerTurn
  by_cases hb : s.busy = true
  · by_cases hq : s.seq = .idle
    · exact .inr (.inl ⟨hb, hq, by simp [hb, hq]⟩)
    · refine .inr (.inr ⟨hb, hq, ?_⟩)
      cases hd : decodeUop (issue s) <;> simp [hb, hq]
  · exact .inl ⟨by simpa using hb, by simp [hb]⟩

/-- A MIXER turn never runs a HOST instruction. -/
theorem decodeUop_isHost {b : Byte} {i : Instr} (h : decodeUop b = .instr i) : isHost i = false := by
  have hd : ∀ op arg, ∀ i ∈ decodeOp op arg, isHost i = false := by decide +kernel
  unfold decodeUop at h
  cases ho : decodeOp (uopOp b) (uopArg b) with
  | none => rw [ho] at h; cases h
  | some j =>
    rw [ho] at h
    simp only at h
    split at h
    · cases h; exact hd _ _ _ ho
    · cases h

/-- The operation code of a micro-operation (R96); 0 for a HOST instruction. -/
def opOf : Instr → BitVec 5
  | .init32 => 0x01#5
  | .wstep => 0x02#5
  | .tstep _ => 0x03#5
  | .fin32 => 0x04#5
  | .asetup _ => 0x05#5
  | .astep => 0x06#5
  | .apack _ => 0x07#5
  | .winit => 0x10#5
  | .gstep _ => 0x11#5
  | .small _ => 0x12#5
  | .blk _ => 0x13#5
  | .sstep => 0x14#5
  | .lstep => 0x15#5
  | .wfin => 0x16#5
  | .rd _ | .wrAddr _ | .wrLen _ | .wrSeed _ | .wrStatus _ | .wrDigest _ | .wrFaddr _ | .wrRsvd1c _ | .nop
  | .startSimple | .startAligned | .startWide | .clr => 0x00#5

theorem decodeUop_opOf {b : Byte} {i : Instr} (h : decodeUop b = .instr i) : opOf i = uopOp b := by
  have hd : ∀ op arg, ∀ i ∈ decodeOp op arg, opOf i = op := by decide +kernel
  unfold decodeUop at h
  cases ho : decodeOp (uopOp b) (uopArg b) with
  | none => rw [ho] at h; cases h
  | some j =>
    rw [ho] at h
    simp only at h
    split at h
    · cases h; exact hd _ _ _ ho
    · cases h

/-- What the sequencer issues has the operation code of its state, or is the reserved byte 0x00. -/
theorem uopOp_opByte (op : BitVec 5) (n : Nat) : uopOp (opByte op n) = op ∨ uopOp (opByte op n) = 0x00#5 := by
  unfold opByte
  split
  · exact .inl (uopOp_packUop _ _)
  · exact .inr (by decide)

/-- FIN32 and WFIN are issued in their own states only (R241). -/
theorem issue_last {s : State} {i : Instr} (h : decodeUop (issue s) = .instr i) :
    (i = .fin32 → s.seq = .fin) ∧ (i = .wfin → s.seq = .wfins) := by
  have ho := decodeUop_opOf h
  have key : ∀ op n, uopOp (opByte op n) = 0x04#5 → op = 0x04#5 := fun op n h => by
    rcases uopOp_opByte op n with e | e <;> rw [e] at h
    · exact h
    · exact absurd h (by decide)
  have key' : ∀ op n, uopOp (opByte op n) = 0x16#5 → op = 0x16#5 := fun op n h => by
    rcases uopOp_opByte op n with e | e <;> rw [e] at h
    · exact h
    · exact absurd h (by decide)
  unfold issue at ho
  constructor <;> rintro rfl <;> cases hq : s.seq <;> rw [hq] at ho <;> simp only [opOf] at ho <;> try trivial
  all_goals
    first
      | exact absurd ho (by decide)
      | (split at ho <;> exact absurd ho (by decide))
      | exact absurd (key _ _ ho.symm) (by decide)
      | exact absurd (key' _ _ ho.symm) (by decide)

/-- The HOST leaves memory, the parameters, the pending events, the port and DIGEST alone. -/
theorem exec_host_frame {i : Instr} {s t : State} (hi : isHost i = true) (h : exec i s = .next t) :
    t.mem = s.mem ∧ t.cfg = s.cfg ∧ t.agenda = s.agenda ∧ t.portLog = s.portLog ∧ t.digest = s.digest := by
  rcases exec_host_cases hi h with ⟨off, -, -, rfl⟩ | rfl | ⟨hb, ⟨v, -, rfl⟩ | ⟨v, -, rfl⟩ | ⟨v, -, rfl⟩ | ⟨-, rfl⟩ | ⟨m, -, rfl⟩⟩
  any_goals simp
  rcases startCommand_cases m s with ⟨e, _⟩ | ⟨e, _⟩ | ⟨e, ho⟩ <;> rw [e] <;> simp

/-- What a step found, as the outcome of a fetch. -/
def outcome : Fetched → Host.Outcome State Fault Refusal
  | .run i t => exec i t
  | .settled t => .next t
  | .stuck f => .fault f
  | .refuse r => .refused r

theorem step_eq (s : State) : step s = outcome (fetch s) := by
  unfold step outcome
  cases fetch s <;> rfl

/-- `u` is `s` with its first event, if there is one, taken off the agenda. -/
def Popped (s u : State) : Prop :=
  (s.agenda = [] ∧ u = s) ∨ ∃ e, s.agenda = e :: u.agenda ∧ u = { s with agenda := u.agenda }

/-- The MIXER has the turn in `s`. -/
def MixerMoves (s u : State) : Prop := s.agenda = [] ∨ s.agenda = .mixer :: u.agenda

theorem mixer_kinds {u t : State} (h : outcome (mixerTurn u) = .next t) :
    t = u ∨ ∃ i, u.busy = true ∧ u.seq ≠ .idle ∧ decodeUop (issue u) = .instr i ∧ exec i u = .next t := by
  rcases mixerTurn_cases u with ⟨-, e⟩ | ⟨-, -, e⟩ | ⟨hb, hq, ⟨i, hi, e⟩ | ⟨b, e, -⟩⟩ <;> rw [e] at h
  · cases h; exact .inl rfl
  · cases h
  · exact .inr ⟨i, hb, hq, hi, h⟩
  · cases h

theorem host_kinds {w : BitVec 38} {u t : State} (h : outcome (hostTurn w u) = .next t) :
    t = u ∨ (∃ i, isHost i = true ∧ hostTurn w u = .run i u ∧ exec i u = .next t) ∨
    (u.busy = false ∧ t = badCommand u) := by
  rcases hostTurn_cases w u with ⟨i, d, e⟩ | ⟨v, d, e⟩ | e
  · rw [e] at h
    exact .inr (.inl ⟨i, (decodeTxn_isHost d).1, e, h⟩)
  · rw [e] at h
    cases h
    unfold whenIdle
    cases hb : u.busy with
    | true => exact .inl rfl
    | false => exact .inr (.inr ⟨rfl, rfl⟩)
  · rw [e] at h
    cases h

/-- Everything a step that answers a next state can have done: nothing, a micro-operation, a HOST instruction, BADCMD,
a reset, a store by another agent. -/
theorem step_kinds {s t : State} (h : step s = .next t) : ∃ u, Popped s u ∧
    (t = u ∨
     (∃ i, MixerMoves s u ∧ u.busy = true ∧ u.seq ≠ .idle ∧ decodeUop (issue u) = .instr i ∧ exec i u = .next t) ∨
     (∃ i, isHost i = true ∧ fetch s = .run i u ∧ exec i u = .next t) ∨
     (u.busy = false ∧ t = badCommand u) ∨
     (s.agenda = .reset :: u.agenda ∧ t = resetRegisters u) ∨
     (∃ a b, s.agenda = .store a b :: u.agenda ∧ t = storeByte a b u)) := by
  rw [step_eq] at h
  rcases fetch_cases s with ⟨ha, e⟩ | ⟨es, ha, e⟩ | ⟨w, es, ha, e⟩ | ⟨we, a, n, d, es, ha, e⟩ | ⟨es, ha, e⟩ |
    ⟨a, b, es, ha, e⟩
  · rw [e] at h
    refine ⟨s, .inl ⟨ha, rfl⟩, ?_⟩
    rcases mixer_kinds h with h | ⟨i, h⟩
    · exact .inl h
    · exact .inr (.inl ⟨i, .inl ha, h⟩)
  · rw [e] at h
    refine ⟨{ s with agenda := es }, .inr ⟨_, ha, rfl⟩, ?_⟩
    rcases mixer_kinds h with h | ⟨i, h⟩
    · exact .inl h
    · exact .inr (.inl ⟨i, .inr ha, h⟩)
  · rw [e] at h
    refine ⟨{ s with agenda := es }, .inr ⟨_, ha, rfl⟩, ?_⟩
    rcases host_kinds h with h | ⟨i, hi, hr, he⟩ | h
    · exact .inl h
    · exact .inr (.inr (.inl ⟨i, hi, e.trans hr, he⟩))
    · exact .inr (.inr (.inr (.inl h)))
  · refine ⟨{ s with agenda := es }, .inr ⟨_, ha, rfl⟩, ?_⟩
    rcases accessTurn_cases we a n d { s with agenda := es } with ⟨off, -, e'⟩ | ⟨-, e'⟩
    · rw [e, e'] at h
      rcases host_kinds h with h | ⟨i, hi, hr, he⟩ | h
      · exact .inl h
      · exact .inr (.inr (.inl ⟨i, hi, e.trans (e'.trans hr), he⟩))
      · exact .inr (.inr (.inr (.inl h)))
    · rw [e, e'] at h
      cases h
  · rw [e] at h
    cases h
    exact ⟨{ s with agenda := es }, .inr ⟨_, ha, rfl⟩, .inr (.inr (.inr (.inr (.inl ⟨ha, rfl⟩))))⟩
  · rw [e] at h
    cases h
    exact ⟨{ s with agenda := es }, .inr ⟨_, ha, rfl⟩, .inr (.inr (.inr (.inr (.inr ⟨a, b, ha, rfl⟩))))⟩

end Sys2Proof.Machine
end

