-- ==== Sys2Proof/Laws/Exec.lean ====
section
/-! SUPPORT. What each reading micro-operation does, said once: its requests are those of `reads`, and its register
writes follow if the port serves them all; otherwise BUSERR. -/

namespace Sys2Proof.Machine

/-- The two outcomes of a micro-operation with the requests `qs`. -/
def readThen {α : Type} (s : State) (qs : List ReadReq) (v : α) (write : α → State → State) : State :=
  match firstFailure s.cfg qs with
  | none => write v (logReads qs s)
  | some a => busFaulted a (issuedReads s.cfg qs) s

theorem afterReads_eq_readThen {α : Type} (s : State) (qs : List ReadReq) (v : α) (write : α → State → State) :
    afterReads (answer s.cfg qs v) write s = readThen s qs v write := by
  rw [afterReads_answer, readThen]
  cases firstFailure s.cfg qs <;> rfl

theorem readThen_of_served {α : Type} {s : State} {qs : List ReadReq} (h : qs.all (served s.cfg) = true) (v : α)
    (write : α → State → State) : readThen s qs v write = write v (logReads qs s) := by
  rw [readThen, firstFailure_eq_none.2 h]

theorem readThen_of_failure {α : Type} {s : State} {qs : List ReadReq} {a : Addr} (h : firstFailure s.cfg qs = some a)
    (v : α) (write : α → State → State) : readThen s qs v write = busFaulted a (issuedReads s.cfg qs) s := by
  rw [readThen, h]

/-- A micro-operation's reads end in its writes or in BUSERR, and only requests of its list are issued. -/
theorem readThen_cases {α : Type} (s : State) (qs : List ReadReq) (v : α) (write : α → State → State) :
    (qs.all (served s.cfg) = true ∧ readThen s qs v write = write v (logReads qs s)) ∨
    (∃ a log, readThen s qs v write = busFaulted a log s ∧ firstFailure s.cfg qs = some a ∧ ∀ q ∈ log, q ∈ qs) := by
  cases h : firstFailure s.cfg qs with
  | none => exact .inl ⟨firstFailure_eq_none.1 h, readThen_of_served (firstFailure_eq_none.1 h) v write⟩
  | some a => exact .inr ⟨a, _, readThen_of_failure h v write, rfl, fun _ hq => mem_issuedReads hq⟩

theorem exec_wstep (s : State) :
    exec .wstep s = .next (readThen s (reads s .wstep) (memWord s s.ptr) writeWstep) := by
  simp only [exec, execWstep, rd32_eq, afterReads_eq_readThen, reads]

theorem exec_tstep (s : State) {n : BitVec 3} (h : legalArg13 n = true) :
    exec (.tstep n) s = .next (readThen s (reads s (.tstep n)) (tailValue s s.ptr n.toNat) (writeTstep n)) := by
  simp only [exec, execTstep, h, if_true, tg_eq, afterReads_eq_readThen, reads]

theorem exec_asetup (s : State) {a : BitVec 3} (h : legalArg13 a = true) :
    exec (.asetup a) s
      = .next (readThen s (reads s (.asetup a)) (tailValue s s.ptr (4 - a.toNat)) (writeAsetup a)) := by
  simp only [exec, execAsetup, h, if_true, tg_eq, afterReads_eq_readThen, reads]

theorem exec_astep (s : State) :
    exec .astep s = .next (readThen s (reads s .astep) (memWord s s.ptr) writeAstep) := by
  simp only [exec, execAstep, rd32_eq, afterReads_eq_readThen, reads]

theorem exec_apack (s : State) {p : BitVec 3} (h : legalArg03 p = true) :
    exec (.apack p) s = .next (readThen s (reads s (.apack p)) (tailValue s s.ptr p.toNat) (writeApack p)) := by
  simp only [exec, execApack, h, if_true, tg_eq, afterReads_eq_readThen, reads]

theorem exec_gstep (s : State) {n : BitVec 3} (h : legalArg13 n = true) :
    exec (.gstep n) s = .next (readThen s (reads s (.gstep n)) (gatherValue s s.ptr n.toNat) (writeGstep n)) := by
  simp only [exec, execGstep, h, if_true, g3_eq, afterReads_eq_readThen, reads]

theorem exec_small (s : State) {c : BitVec 3} (h : legalArg13 c = true) :
    exec (.small c) s = .next (readThen s (reads s (.small c)) (smallValue s c) writeSmall) := by
  simp only [exec, execSmall, h, if_true, smallPairs_eq, afterReads_eq_readThen]

theorem exec_blk (s : State) {k : BitVec 3} (h : legalArg14 k = true) :
    exec (.blk k) s = .next (readThen s (reads s (.blk k)) (pairsValue s s.ptr k.toNat) (writeBlk k)) := by
  simp only [exec, execBlk, h, if_true, rdPairs_eq, afterReads_eq_readThen, reads, blockAddrs_eq]

theorem exec_sstep (s : State) :
    exec .sstep s = .next (readThen s (reads s .sstep) (memWord s s.ptr) writeSstep) := by
  simp only [exec, execSstep, rd32_eq, afterReads_eq_readThen, reads]

/-- The legal operands, as the lists of R96. -/
theorem legalArg13_iff {n : BitVec 3} : legalArg13 n = true ↔ n ∈ [1#3, 2#3, 3#3] := by
  simp [legalArg13, or_assoc]

theorem legalArg03_iff {n : BitVec 3} : legalArg03 n = true ↔ n ∈ [0#3, 1#3, 2#3, 3#3] := by
  simp [legalArg03, legalArg13, or_assoc]

theorem legalArg14_iff {n : BitVec 3} : legalArg14 n = true ↔ n ∈ [1#3, 2#3, 3#3, 4#3] := by
  simp [legalArg14, legalArg13, or_assoc]

/-! ### All fourteen micro-operations at once -/

/-- The state a micro-operation leaves when its reads are served; a HOST instruction leaves `s`. -/
def uopResult (i : Instr) (s : State) : State :=
  let r := logReads (reads s i) s
  match i with
  | .init32 =>
    { s with
      h := initialH s.cfg s.seed s.len, ptr := s.addr, rem := s.len, align := s.addr.extractLsb' 0 2
      seq := afterInit32 s }
  | .wstep => writeWstep (memWord s s.ptr) r
  | .tstep n => writeTstep n (tailValue s s.ptr n.toNat) r
  | .fin32 => finish (finalH s.cfg s.h) { s with h := finalH s.cfg s.h }
  | .asetup a => writeAsetup a (tailValue s s.ptr (4 - a.toNat)) r
  | .astep => writeAstep (memWord s s.ptr) r
  | .apack p => writeApack p (tailValue s s.ptr p.toNat) r
  | .winit =>
    { s with
      lanes := { s.lanes with l0 := seedLane s.seed }, olen := s.len, ptr := s.addr, rem := s.len
      align := s.addr.extractLsb' 0 2, seq := afterWinit s.len }
  | .gstep n => writeGstep n (gatherValue s s.ptr n.toNat) r
  | .small c => writeSmall (smallValue s c) r
  | .blk k => writeBlk k (pairsValue s s.ptr k.toNat) r
  | .sstep => writeSstep (memWord s s.ptr) r
  | .lstep => { s with lanes := smixPrimary s.cfg s.cfg.cpair.len s.olen s.lanes, seq := .wfins }
  | .wfin => finish (laneDigest s.lanes.l0) s
  | .rd _ | .wrAddr _ | .wrLen _ | .wrSeed _ | .wrStatus _ | .wrDigest _ | .wrFaddr _ | .wrRsvd1c _ | .nop
  | .startSimple | .startAligned | .startWide | .clr => s

/-- A micro-operation completes with its result, or with BUSERR at the first read not served; with a reserved operand
it is refused. -/
theorem exec_uop_cases {i : Instr} {s t : State} (hi : isHost i = false) (h : exec i s = .next t) :
    ((reads s i).all (served s.cfg) = true ∧ t = uopResult i s) ∨
    (∃ a, firstFailure s.cfg (reads s i) = some a ∧ t = busFaulted a (issuedReads s.cfg (reads s i)) s) := by
  have key : ∀ {α : Type} (v : α) (w : α → State → State),
      exec i s = .next (readThen s (reads s i) v w) → w v (logReads (reads s i) s) = uopResult i s →
      ((reads s i).all (served s.cfg) = true ∧ t = uopResult i s) ∨
      (∃ a, firstFailure s.cfg (reads s i) = some a ∧ t = busFaulted a (issuedReads s.cfg (reads s i)) s) := by
    intro α v w e hw
    rw [e] at h
    cases h
    cases hf : firstFailure s.cfg (reads s i) with
    | none =>
      have hs := firstFailure_eq_none.1 hf
      exact .inl ⟨hs, (readThen_of_served hs v w).trans hw⟩
    | some a => exact .inr ⟨a, rfl, readThen_of_failure hf v w⟩
  cases i <;> simp only [isHost, Bool.true_eq_false] at hi
  case init32 => cases h; exact .inl ⟨rfl, rfl⟩
  case fin32 => cases h; exact .inl ⟨rfl, rfl⟩
  case winit => cases h; exact .inl ⟨rfl, rfl⟩
  case lstep => cases h; exact .inl ⟨rfl, rfl⟩
  case wfin => cases h; exact .inl ⟨rfl, rfl⟩
  case wstep => exact key _ _ (exec_wstep s) rfl
  case astep => exact key _ _ (exec_astep s) rfl
  case sstep => exact key _ _ (exec_sstep s) rfl
  case tstep n =>
    by_cases hl : legalArg13 n = true
    · exact key _ _ (exec_tstep s hl) rfl
    · simp [exec, execTstep, hl] at h
  case asetup n =>
    by_cases hl : legalArg13 n = true
    · exact key _ _ (exec_asetup s hl) rfl
    · simp [exec, execAsetup, hl] at h
  case gstep n =>
    by_cases hl : legalArg13 n = true
    · exact key _ _ (exec_gstep s hl) rfl
    · simp [exec, execGstep, hl] at h
  case small n =>
    by_cases hl : legalArg13 n = true
    · exact key _ _ (exec_small s hl) rfl
    · simp [exec, execSmall, hl] at h
  case apack n =>
    by_cases hl : legalArg03 n = true
    · exact key _ _ (exec_apack s hl) rfl
    · simp [exec, execApack, hl] at h
  case blk n =>
    by_cases hl : legalArg14 n = true
    · exact key _ _ (exec_blk s hl) rfl
    · simp [exec, execBlk, hl] at h

/-- What the result of a micro-operation leaves unchanged, and the requests it made. -/
theorem uopResult_frame (i : Instr) (s : State) :
    (uopResult i s).mem = s.mem ∧ (uopResult i s).cfg = s.cfg ∧ (uopResult i s).agenda = s.agenda ∧
    (uopResult i s).hostReads = s.hostReads ∧ (uopResult i s).addr = s.addr ∧ (uopResult i s).len = s.len ∧
    (uopResult i s).seed = s.seed ∧ (uopResult i s).modeq = s.modeq ∧
    (uopResult i s).portLog = s.portLog ++ reads s i := by
  cases i <;>
    simp [uopResult, reads, writeWstep, writeTstep, writeAsetup, writeAstep, writeApack, writeGstep, writeSmall,
      writeBlk, writeSstep]

/-- Only FIN32 and WFIN write DIGEST and the display. -/
theorem uopResult_status {i : Instr} (s : State) (h : i ≠ .fin32) (h' : i ≠ .wfin) :
    (uopResult i s).digest = s.digest ∧ (uopResult i s).busy = s.busy ∧ (uopResult i s).done = s.done ∧
    (uopResult i s).fault = s.fault ∧ (uopResult i s).fcode = s.fcode ∧ (uopResult i s).faddr = s.faddr := by
  cases i <;>
    simp_all [uopResult, writeWstep, writeTstep, writeAsetup, writeAstep, writeApack, writeGstep, writeSmall,
      writeBlk, writeSstep]

end Sys2Proof.Machine
end

