-- ==== Sys2Proof/Laws/Memory.lean ====
section
/-! SUPPORT. The buffer space: every operation keeps the canonical form, a read after a write gives the byte written,
and a write leaves every other byte alone. -/

namespace Sys2Proof.Machine

theorem wfFrom_mono {lo lo' : Nat} (h : lo' ≤ lo) : ∀ {m : Memory}, Memory.wfFrom lo m = true → Memory.wfFrom lo' m = true
  | [], _ => rfl
  | (k, c) :: m, hm => by
    simp only [Memory.wfFrom, Bool.and_eq_true, decide_eq_true_eq] at hm ⊢
    obtain ⟨⟨⟨h1, h2⟩, h3⟩, h4⟩ := hm
    exact ⟨⟨⟨by omega, h2⟩, h3⟩, h4⟩

/-- An address below every listed one reads as unlisted. -/
theorem readByte_below : ∀ {m : Memory} {lo a : Nat}, Memory.wfFrom lo m = true → a < lo → m.readByte a = unlistedByte
  | [], _, _, _, _ => rfl
  | (k, c) :: m, lo, a, hm, ha => by
    simp only [Memory.wfFrom, Bool.and_eq_true, decide_eq_true_eq] at hm
    obtain ⟨⟨⟨h1, _⟩, _⟩, h4⟩ := hm
    have hk : a ≠ k := by omega
    simp only [Memory.readByte, hk, if_false]
    exact readByte_below h4 (by omega)

/-- A write keeps the canonical form. -/
theorem writeByte_wfFrom : ∀ {m : Memory} {lo a : Nat} {b : Byte}, Memory.wfFrom lo m = true → lo ≤ a → a < 2 ^ 32 →
    Memory.wfFrom lo (m.writeByte a b) = true
  | [], lo, a, b, _, hlo, ha => by
    have ha' : a < 4294967296 := ha
    by_cases hb : b = unlistedByte <;> simp [Memory.writeByte, Memory.wfFrom, hb, hlo, ha']
  | (k, c) :: m, lo, a, b, hm, hlo, ha => by
    have hm' := hm
    simp only [Memory.wfFrom, Bool.and_eq_true, decide_eq_true_eq] at hm
    obtain ⟨⟨⟨h1, h2⟩, h3⟩, h4⟩ := hm
    unfold Memory.writeByte
    by_cases hak : a < k
    · by_cases hb : b = unlistedByte
      · simpa [hak, hb] using hm'
      · simp only [hak, if_true, hb, if_false, Memory.wfFrom, Bool.and_eq_true, decide_eq_true_eq]
        exact ⟨⟨⟨hlo, ha⟩, hb⟩, ⟨⟨⟨by omega, h2⟩, h3⟩, h4⟩⟩
    · by_cases hak' : a = k
      · subst hak'
        by_cases hb : b = unlistedByte
        · simpa [hb] using wfFrom_mono (by omega) h4
        · simp only [Nat.lt_irrefl, if_false, if_true, hb, Memory.wfFrom, Bool.and_eq_true, decide_eq_true_eq]
          exact ⟨⟨⟨hlo, ha⟩, hb⟩, h4⟩
      · simp only [hak, hak', if_false, Memory.wfFrom, Bool.and_eq_true, decide_eq_true_eq]
        exact ⟨⟨⟨h1, h2⟩, h3⟩, writeByte_wfFrom h4 (by omega) ha⟩

/-- A write keeps the canonical form of memory. -/
theorem writeByte_wf {m : Memory} {a : Nat} {b : Byte} (hm : m.wf = true) (ha : a < 2 ^ 32) :
    Memory.wf (m.writeByte a b) = true := writeByte_wfFrom hm (Nat.zero_le _) ha

/-- A write leaves every other byte alone, in canonical form or not. -/
theorem readByte_writeByte_ne : ∀ (m : Memory) {a a' : Nat} (b : Byte), a' ≠ a →
    (m.writeByte a b).readByte a' = m.readByte a'
  | [], a, a', b, h => by
    by_cases hb : b = unlistedByte <;> simp [Memory.writeByte, Memory.readByte, hb, h]
  | (k, c) :: m, a, a', b, h => by
    unfold Memory.writeByte
    by_cases hak : a < k
    · by_cases hb : b = unlistedByte <;> simp [hak, hb, Memory.readByte, h]
    · by_cases hak' : a = k
      · subst hak'
        by_cases hb : b = unlistedByte <;> simp [hb, Memory.readByte, h]
      · simp only [hak, hak', if_false, Memory.readByte]
        rw [readByte_writeByte_ne m b h]

theorem readByte_writeByte_from : ∀ {m : Memory} {lo : Nat} (a : Nat) (b : Byte), Memory.wfFrom lo m = true →
    (m.writeByte a b).readByte a = b
  | [], _, a, b, _ => by
    by_cases hb : b = unlistedByte <;> simp [Memory.writeByte, Memory.readByte, hb]
  | (k, c) :: m, lo, a, b, hm => by
    simp only [Memory.wfFrom, Bool.and_eq_true, decide_eq_true_eq] at hm
    obtain ⟨⟨⟨_, _⟩, _⟩, h4⟩ := hm
    unfold Memory.writeByte
    by_cases hak : a < k
    · by_cases hb : b = unlistedByte
      · have hne : a ≠ k := by omega
        simp [hak, hb, Memory.readByte, hne, readByte_below h4 (show a < k + 1 by omega)]
      · simp [hak, hb, Memory.readByte]
    · by_cases hak' : a = k
      · subst hak'
        by_cases hb : b = unlistedByte
        · simp [hb, readByte_below h4 (show a < a + 1 by omega)]
        · simp [hb, Memory.readByte]
      · simp only [hak, hak', if_false, Memory.readByte]
        exact readByte_writeByte_from a b h4

/-- A read after a write to the same address gives the byte written. -/
theorem readByte_writeByte_self {m : Memory} (hm : m.wf = true) (a : Nat) (b : Byte) :
    (m.writeByte a b).readByte a = b := readByte_writeByte_from a b hm

theorem storeByte_wf {s : State} (a : Addr) (b : Byte) (h : s.mem.wf = true) : (storeByte a b s).mem.wf = true :=
  writeByte_wf h a.isLt

theorem reset_memory_wf : State.reset.mem.wf = true := rfl

end Sys2Proof.Machine
end

