-- ==== Sys2Proof/Laws/PerInstr.lean ====
section
/-! SUPPORT. The per-instruction family EncodingLevel: on which of the two levels an instruction is encoded (R90, R95),
at a full-word offset exactly when it is well formed, and under the operation code of its row of R96. -/

namespace Sys2Proof.Laws.EncodingLevel

open Sys2Proof Sys2Proof.Machine

/-- A HOST instruction is a transaction whose offset is a full word exactly if the instruction is well formed; a
micro-operation is a byte with the operation code of its row, never the unused code 0. -/
def Statement (i : Instr) : Prop :=
  match encode i with
  | .txn w => isHost i = true ∧ legalOffset (txnOff w) = i.wellFormed
  | .uop b => isHost i = false ∧ uopOp b = opOf i ∧ opOf i ≠ 0x00#5

theorem txn_statement {i : Instr} {we : Bool} {off : BitVec 5} {v : Word} (h : encode i = .txn (packTxn we off v))
    (hi : isHost i = true) (hl : legalOffset off = i.wellFormed) : Statement i := by
  unfold Statement
  rw [h]
  exact ⟨hi, by rw [txnOff_packTxn]; exact hl⟩

theorem uop_statement {i : Instr} {arg : BitVec 3} (h : encode i = .uop (packUop (opOf i) arg))
    (hi : isHost i = false) (ho : opOf i ≠ 0x00#5) : Statement i := by
  unfold Statement
  rw [h]
  exact ⟨hi, uopOp_packUop _ _, ho⟩

theorem rd (off : BitVec 5) : Statement (.rd off) := txn_statement rfl rfl rfl
theorem wrAddr (v : Word) : Statement (.wrAddr v) := txn_statement rfl rfl rfl
theorem wrLen (v : Word) : Statement (.wrLen v) := txn_statement rfl rfl rfl
theorem wrSeed (v : Word) : Statement (.wrSeed v) := txn_statement rfl rfl rfl
theorem wrStatus (v : Word) : Statement (.wrStatus v) := txn_statement rfl rfl rfl
theorem wrDigest (v : Word) : Statement (.wrDigest v) := txn_statement rfl rfl rfl
theorem wrFaddr (v : Word) : Statement (.wrFaddr v) := txn_statement rfl rfl rfl
theorem wrRsvd1c (v : Word) : Statement (.wrRsvd1c v) := txn_statement rfl rfl rfl
theorem nop : Statement .nop := txn_statement rfl rfl rfl
theorem startSimple : Statement .startSimple := txn_statement rfl rfl rfl
theorem startAligned : Statement .startAligned := txn_statement rfl rfl rfl
theorem startWide : Statement .startWide := txn_statement rfl rfl rfl
theorem clr : Statement .clr := txn_statement rfl rfl rfl
theorem init32 : Statement .init32 := uop_statement rfl rfl (by simp [opOf])
theorem wstep : Statement .wstep := uop_statement rfl rfl (by simp [opOf])
theorem tstep (n : BitVec 3) : Statement (.tstep n) := uop_statement rfl rfl (by simp [opOf])
theorem fin32 : Statement .fin32 := uop_statement rfl rfl (by simp [opOf])
theorem asetup (a : BitVec 3) : Statement (.asetup a) := uop_statement rfl rfl (by simp [opOf])
theorem astep : Statement .astep := uop_statement rfl rfl (by simp [opOf])
theorem apack (p : BitVec 3) : Statement (.apack p) := uop_statement rfl rfl (by simp [opOf])
theorem winit : Statement .winit := uop_statement rfl rfl (by simp [opOf])
theorem gstep (n : BitVec 3) : Statement (.gstep n) := uop_statement rfl rfl (by simp [opOf])
theorem small (c : BitVec 3) : Statement (.small c) := uop_statement rfl rfl (by simp [opOf])
theorem blk (k : BitVec 3) : Statement (.blk k) := uop_statement rfl rfl (by simp [opOf])
theorem sstep : Statement .sstep := uop_statement rfl rfl (by simp [opOf])
theorem lstep : Statement .lstep := uop_statement rfl rfl (by simp [opOf])
theorem wfin : Statement .wfin := uop_statement rfl rfl (by simp [opOf])

end Sys2Proof.Laws.EncodingLevel
end

