-- ==== Sys2Proof/Laws/Sequencer.lean ====
section
/-! SUPPORT. The sequencer under the conditions R241 says always hold: the instruction of each state, and its operand
is legal. -/

namespace Sys2Proof.Machine

/-- The instruction the row of R241 for the current state issues, its operand taken without a range check. -/
def rowInstr (s : State) : Instr :=
  match s.seq with
  | .idle => .init32
  | .init => if s.modeq = .wide then .winit else .init32
  | .words => .wstep
  | .aset => .asetup (BitVec.ofNat 3 s.align.toNat)
  | .awords => .astep
  | .apacks => .apack (BitVec.ofNat 3 (min s.rem.toNat s.align.toNat))
  | .tail => .tstep (BitVec.ofNat 3 s.rem.toNat)
  | .fin => .fin32
  | .wsmall => .small (BitVec.ofNat 3 (smallClass s.len))
  | .wblk => .blk 4#3
  | .wcasc => .blk (BitVec.ofNat 3 (cascadeLanes s.rem))
  | .wword => .sstep
  | .wtail => .gstep (BitVec.ofNat 3 s.rem.toNat)
  | .wlen => .lstep
  | .wfins => .wfin

/-- A count 1, 2 or 3 is a legal operand. -/
theorem legalArg13_ofNat {n : Nat} (h1 : 1 ≤ n) (h3 : n ≤ 3) : legalArg13 (BitVec.ofNat 3 n) = true := by
  have : n = 1 ∨ n = 2 ∨ n = 3 := by omega
  rcases this with rfl | rfl | rfl <;> rfl

theorem legalArg03_ofNat {n : Nat} (h3 : n ≤ 3) : legalArg03 (BitVec.ofNat 3 n) = true := by
  have : n = 0 ∨ n = 1 ∨ n = 2 ∨ n = 3 := by omega
  rcases this with rfl | rfl | rfl | rfl <;> rfl

/-- The operation codes whose operand is a count of R96, each with the operand's legal range. -/
theorem decodeUop_opByte {op : BitVec 5} {n : Nat} {i : Instr} (hn : n < 8)
    (hop : decodeOp op (BitVec.ofNat 3 n) = some i) (hw : i.wellFormed = true) :
    decodeUop (opByte op n) = .instr i := by
  rw [opByte, if_pos hn, decodeUop_packUop, hop]
  simp [hw]

theorem smallClass_range (len : Word) : 1 ≤ smallClass len ∧ smallClass len ≤ 3 := by
  unfold smallClass; split_ifs <;> omega

theorem cascadeLanes_range (rem : Word) : 1 ≤ cascadeLanes rem ∧ cascadeLanes rem ≤ 3 := by
  unfold cascadeLanes; split_ifs <;> omega

theorem legalArg14_of_13 {k : BitVec 3} (h : legalArg13 k = true) : legalArg14 k = true := by simp [legalArg14, h]

theorem align_pos {s : State} (h : s.align ≠ 0#2) : 1 ≤ s.align.toNat := by
  by_contra hc
  exact h (by apply BitVec.eq_of_toNat_eq; simp; omega)

/-- The row's instruction is well formed. -/
theorem rowInstr_wellFormed {s : State} (h : SequencerOk s) : (rowInstr s).wellFormed = true := by
  obtain ⟨h1, h2, h3, h4, h5, h6, h7, h8, h9, h10, h11, h12, h13⟩ := h
  have ha := s.align.isLt
  unfold rowInstr
  cases hq : s.seq <;> try rfl
  case init => by_cases hm : s.modeq = .wide <;> simp [hm, Instr.wellFormed]
  case aset => exact legalArg13_ofNat (align_pos (h2 hq).2.1) (by omega)
  case apacks => exact legalArg03_ofNat (by omega)
  case tail => exact legalArg13_ofNat (h5 hq).2.1 (h5 hq).2.2
  case wsmall => exact legalArg13_ofNat (smallClass_range _).1 (smallClass_range _).2
  case wcasc => exact legalArg14_of_13 (legalArg13_ofNat (cascadeLanes_range _).1 (cascadeLanes_range _).2)
  case wtail => exact legalArg13_ofNat (h11 hq).2.1 (h11 hq).2.2.1

/-- The byte the sequencer issues is the row's instruction (R241). -/
theorem decode_issue {s : State} (h : SequencerOk s) (hq : s.seq ≠ .idle) :
    decodeUop (issue s) = .instr (rowInstr s) := by
  have hw := rowInstr_wellFormed h
  obtain ⟨h1, h2, h3, h4, h5, h6, h7, h8, h9, h10, h11, h12, h13⟩ := h
  have ha := s.align.isLt
  unfold rowInstr at hw ⊢
  unfold issue
  cases hs : s.seq <;> simp only [hs] at hw ⊢
  case idle => exact absurd hs hq
  case init => by_cases hm : s.modeq = .wide <;> simp only [hm] <;> decide
  case aset => exact decodeUop_opByte (by omega) rfl hw
  case apacks => exact decodeUop_opByte (by omega) rfl hw
  case tail => exact decodeUop_opByte (by have := (h5 hs).2.2; omega) rfl hw
  case wsmall => exact decodeUop_opByte (by have := (smallClass_range s.len).2; omega) rfl hw
  case wcasc => exact decodeUop_opByte (by have := (cascadeLanes_range s.rem).2; omega) rfl hw
  case wtail => exact decodeUop_opByte (by have := (h11 hs).2.2.1; omega) rfl hw
  all_goals decide

/-- A MIXER turn of a busy machine runs the row's instruction. -/
theorem mixerTurn_run {s : State} (h : SequencerOk s) (hb : s.busy = true) (hq : s.seq ≠ .idle) :
    mixerTurn s = .run (rowInstr s) s := by
  unfold mixerTurn
  rw [decode_issue h hq]
  simp [hb, hq]

/-! ### The conditions of R241, a state at a time -/

theorem sequencerOk_of_idle {t : State} (hq : t.seq = .idle) : SequencerOk t := by
  unfold SequencerOk; rw [hq]; simp only [reduceCtorEq, false_implies, and_self]

theorem sequencerOk_of_init {t : State} (hq : t.seq = .init) : SequencerOk t := by
  unfold SequencerOk; rw [hq]; simp only [reduceCtorEq, false_implies, and_self]

theorem sequencerOk_of_words {t : State} (hq : t.seq = .words) (h : t.modeq ≠ .wide ∧ 4 ≤ t.rem.toNat ∧ (t.modeq = .aligned → t.align = 0#2 ∧ t.ptr.toNat % 4 = 0)) :
    SequencerOk t := by
  unfold SequencerOk; rw [hq]; simp only [reduceCtorEq, false_implies, true_implies, and_true]; exact h

theorem sequencerOk_of_aset {t : State} (hq : t.seq = .aset) (h : t.modeq = .aligned ∧ t.align ≠ 0#2 ∧ 4 ≤ t.len.toNat ∧ t.rem = t.len) :
    SequencerOk t := by
  unfold SequencerOk; rw [hq]; simp only [reduceCtorEq, false_implies, true_implies, true_and, and_true]; exact h

theorem sequencerOk_of_awords {t : State} (hq : t.seq = .awords) (h : t.modeq = .aligned ∧ ShiftsOk t ∧ 4 ≤ t.rem.toNat) :
    SequencerOk t := by
  unfold SequencerOk; rw [hq]; simp only [reduceCtorEq, false_implies, true_implies, true_and, and_true]; exact h

theorem sequencerOk_of_apacks {t : State} (hq : t.seq = .apacks) (h : t.modeq = .aligned ∧ ShiftsOk t ∧ t.rem.toNat ≤ 3) :
    SequencerOk t := by
  unfold SequencerOk; rw [hq]; simp only [reduceCtorEq, false_implies, true_implies, true_and, and_true]; exact h

theorem sequencerOk_of_tail {t : State} (hq : t.seq = .tail) (h : t.modeq ≠ .wide ∧ 1 ≤ t.rem.toNat ∧ t.rem.toNat ≤ 3) :
    SequencerOk t := by
  unfold SequencerOk; rw [hq]; simp only [reduceCtorEq, false_implies, true_implies, true_and, and_true]; exact h

theorem sequencerOk_of_fin {t : State} (hq : t.seq = .fin) (h : t.modeq ≠ .wide ∧ t.rem = 0#32) :
    SequencerOk t := by
  unfold SequencerOk; rw [hq]; simp only [reduceCtorEq, false_implies, true_implies, true_and, and_true]; exact h

theorem sequencerOk_of_wsmall {t : State} (hq : t.seq = .wsmall) (h : t.modeq = .wide ∧ 4 ≤ t.len.toNat ∧ t.len.toNat ≤ 16 ∧ t.rem = t.len ∧ t.olen = t.len) :
    SequencerOk t := by
  unfold SequencerOk; rw [hq]; simp only [reduceCtorEq, false_implies, true_implies, true_and, and_true]; exact h

theorem sequencerOk_of_wblk {t : State} (hq : t.seq = .wblk) (h : t.modeq = .wide ∧ 32 ≤ t.rem.toNat ∧ t.olen = t.len) :
    SequencerOk t := by
  unfold SequencerOk; rw [hq]; simp only [reduceCtorEq, false_implies, true_implies, true_and, and_true]; exact h

theorem sequencerOk_of_wcasc {t : State} (hq : t.seq = .wcasc) (h : t.modeq = .wide ∧ 8 ≤ t.rem.toNat ∧ t.rem.toNat ≤ 31 ∧ t.olen = t.len) :
    SequencerOk t := by
  unfold SequencerOk; rw [hq]; simp only [reduceCtorEq, false_implies, true_implies, true_and, and_true]; exact h

theorem sequencerOk_of_wword {t : State} (hq : t.seq = .wword) (h : t.modeq = .wide ∧ 4 ≤ t.rem.toNat ∧ t.rem.toNat ≤ 7 ∧ t.olen = t.len) :
    SequencerOk t := by
  unfold SequencerOk; rw [hq]; simp only [reduceCtorEq, false_implies, true_implies, true_and, and_true]; exact h

theorem sequencerOk_of_wtail {t : State} (hq : t.seq = .wtail) (h : t.modeq = .wide ∧ 1 ≤ t.rem.toNat ∧ t.rem.toNat ≤ 3 ∧ t.olen = t.len) :
    SequencerOk t := by
  unfold SequencerOk; rw [hq]; simp only [reduceCtorEq, false_implies, true_implies, true_and, and_true]; exact h

theorem sequencerOk_of_wlen {t : State} (hq : t.seq = .wlen) (h : t.modeq = .wide ∧ t.rem = 0#32 ∧ t.olen = t.len) :
    SequencerOk t := by
  unfold SequencerOk; rw [hq]; simp only [reduceCtorEq, false_implies, true_implies, true_and, and_true]; exact h

theorem sequencerOk_of_wfins {t : State} (hq : t.seq = .wfins) (h : t.modeq = .wide ∧ t.rem = 0#32 ∧ t.olen = t.len) :
    SequencerOk t := by
  unfold SequencerOk; rw [hq]; simp only [reduceCtorEq, false_implies, true_implies, true_and]; exact h

/-- The invariant of a busy state outside INIT. -/
theorem consistent_of_running {t : State} (hb : t.busy = true) (hd : t.done = false) (hf : t.fault = false)
    (hc : t.fcode = .none) (ha : t.faddr = 0#32) (hq : t.seq ≠ .idle) (ho : OperandsOk t) (hp : CursorOk t)
    (hs : SequencerOk t) : Consistent t := by
  refine ⟨⟨fun _ => ⟨hd, hf⟩, fun _ => hf, ?_, ?_, fun _ => ha⟩, fun _ => ho, fun _ _ => hp, hs⟩
  · rw [hf, hc]; simp
  · exact ⟨fun h => absurd h hq, fun h => by rw [hb] at h; cases h⟩

/-- The invariant of an idle state. -/
theorem consistent_of_idle {t : State} (hb : t.busy = false) (hd : t.done = true → t.fault = false)
    (hf : t.fault = true ↔ t.fcode ≠ .none) (hq : t.seq = .idle) (ha : t.fcode ≠ .buserr → t.faddr = 0#32) :
    Consistent t :=
  have hn : ¬ t.busy = true := by rw [hb]; simp
  ⟨⟨fun h => absurd h hn, hd, hf, ⟨fun _ => hb, fun _ => hq⟩, ha⟩, fun h => absurd h hn, fun h => absurd h hn,
    sequencerOk_of_idle hq⟩

/-- BUSERR leaves a state that meets the invariant. -/
theorem consistent_busFaulted (a : Addr) (log : List ReadReq) (s : State) : Consistent (busFaulted a log s) :=
  consistent_of_idle rfl (fun h => by cases h) (by simp [busFaulted]) rfl (fun h => absurd rfl h)

theorem sub_toNat {x : Word} {n : Nat} (h : n ≤ x.toNat) : (x - BitVec.ofNat 32 n).toNat = x.toNat - n := by
  have := x.isLt
  rw [BitVec.toNat_sub, BitVec.toNat_ofNat]; omega

theorem word_eq_zero {x : Word} (h : x.toNat = 0) : x = 0#32 := BitVec.eq_of_toNat_eq h

/-- Consuming `n` of the remaining bytes keeps the pointer invariant (R28). -/
theorem cursor_advance {s t : State} {n : Nat} (hc : CursorOk s) (hn : n ≤ s.rem.toNat)
    (hp : t.ptr = s.ptr + BitVec.ofNat 32 n) (hr : t.rem = s.rem - BitVec.ofNat 32 n) (ha : t.addr = s.addr)
    (hl : t.len = s.len) (hg : t.align = s.align) : CursorOk t := by
  obtain ⟨h1, h2, h3⟩ := hc
  refine ⟨?_, ?_, by rw [hg, ha]; exact h3⟩
  · rw [hr, hl, sub_toNat hn]; omega
  · rw [hp, hr, ha, hl, h2]; ring

/-! ### The next states of R241 keep its conditions -/

theorem sequencerOk_of_nw {t : State} (hq : t.seq = nw t.rem) (hm : t.modeq ≠ .wide)
    (ha : t.modeq = .aligned → 4 ≤ t.rem.toNat → t.align = 0#2 ∧ t.ptr.toNat % 4 = 0) : SequencerOk t := by
  unfold nw at hq
  by_cases h4 : t.rem.toNat ≥ 4
  · exact sequencerOk_of_words (hq.trans (if_pos h4)) ⟨hm, h4, fun h => ha h h4⟩
  · rw [if_neg h4] at hq
    by_cases h1 : t.rem.toNat ≥ 1
    · exact sequencerOk_of_tail (hq.trans (if_pos h1)) ⟨hm, h1, by omega⟩
    · exact sequencerOk_of_fin (hq.trans (if_neg h1)) ⟨hm, word_eq_zero (by omega)⟩

theorem sequencerOk_of_afterAligned {t : State} (hq : t.seq = afterAligned t.rem) (hm : t.modeq = .aligned)
    (hs : ShiftsOk t) : SequencerOk t := by
  unfold afterAligned at hq
  by_cases h4 : t.rem.toNat ≥ 4
  · exact sequencerOk_of_awords (hq.trans (if_pos h4)) ⟨hm, hs, h4⟩
  · exact sequencerOk_of_apacks (hq.trans (if_neg h4)) ⟨hm, hs, by omega⟩

theorem sequencerOk_of_afterApack {t : State} (hq : t.seq = afterApack t.rem) (hm : t.modeq ≠ .wide)
    (hr : t.rem.toNat ≤ 3) : SequencerOk t := by
  unfold afterApack at hq
  by_cases h1 : t.rem.toNat ≥ 1
  · exact sequencerOk_of_tail (hq.trans (if_pos h1)) ⟨hm, h1, hr⟩
  · exact sequencerOk_of_fin (hq.trans (if_neg h1)) ⟨hm, word_eq_zero (by omega)⟩

theorem sequencerOk_of_afterSstep {t : State} (hq : t.seq = afterSstep t.rem) (hm : t.modeq = .wide)
    (ho : t.olen = t.len) (hr : t.rem.toNat ≤ 3) : SequencerOk t := by
  unfold afterSstep at hq
  by_cases h1 : t.rem.toNat ≥ 1
  · exact sequencerOk_of_wtail (hq.trans (if_pos h1)) ⟨hm, h1, hr, ho⟩
  · exact sequencerOk_of_wlen (hq.trans (if_neg h1)) ⟨hm, word_eq_zero (by omega), ho⟩

theorem sequencerOk_of_nt {t : State} (hq : t.seq = nt t.rem) (hm : t.modeq = .wide) (ho : t.olen = t.len)
    (hr : t.rem.toNat ≤ 7) : SequencerOk t := by
  unfold nt at hq
  by_cases h4 : t.rem.toNat ≥ 4
  · exact sequencerOk_of_wword (hq.trans (if_pos h4)) ⟨hm, h4, hr, ho⟩
  · exact sequencerOk_of_afterSstep (hq.trans (if_neg h4)) hm ho (by omega)

theorem sequencerOk_of_afterBlk4 {t : State} (hq : t.seq = afterBlk 4#3 t.rem) (hm : t.modeq = .wide)
    (ho : t.olen = t.len) : SequencerOk t := by
  unfold afterBlk nc at hq
  rw [if_pos rfl] at hq
  by_cases h32 : t.rem.toNat ≥ 32
  · exact sequencerOk_of_wblk (hq.trans (if_pos h32)) ⟨hm, h32, ho⟩
  · rw [if_neg h32] at hq
    by_cases h8 : 8 ≤ t.rem.toNat ∧ t.rem.toNat ≤ 31
    · exact sequencerOk_of_wcasc (hq.trans (if_pos h8)) ⟨hm, h8.1, h8.2, ho⟩
    · exact sequencerOk_of_nt (hq.trans (if_neg h8)) hm ho (by omega)

theorem sequencerOk_of_afterWinit {t : State} (hq : t.seq = afterWinit t.len) (hm : t.modeq = .wide)
    (ho : t.olen = t.len) (hr : t.rem = t.len) : SequencerOk t := by
  unfold afterWinit at hq
  by_cases h1 : t.len.toNat ≥ 32
  · exact sequencerOk_of_wblk (hq.trans (if_pos h1)) ⟨hm, by rw [hr]; exact h1, ho⟩
  rw [if_neg h1] at hq
  by_cases h2 : t.len.toNat ≥ 17
  · exact sequencerOk_of_wcasc (hq.trans (if_pos h2)) ⟨hm, by rw [hr]; omega, by rw [hr]; omega, ho⟩
  rw [if_neg h2] at hq
  by_cases h3 : t.len.toNat ≥ 4
  · exact sequencerOk_of_wsmall (hq.trans (if_pos h3)) ⟨hm, h3, by omega, hr, ho⟩
  rw [if_neg h3] at hq
  by_cases h4 : t.len.toNat ≥ 1
  · exact sequencerOk_of_wtail (hq.trans (if_pos h4)) ⟨hm, by rw [hr]; exact h4, by rw [hr]; omega, ho⟩
  · exact sequencerOk_of_wlen (hq.trans (if_neg h4)) ⟨hm, by rw [hr]; exact word_eq_zero (by omega), ho⟩

/-- The lanes BLK takes in state WCASC leave at most 7 bytes (R241). -/
theorem cascadeLanes_bound {r : Word} (h8 : 8 ≤ r.toNat) (h31 : r.toNat ≤ 31) :
    8 * cascadeLanes r ≤ r.toNat ∧ r.toNat - 8 * cascadeLanes r ≤ 7 := by
  unfold cascadeLanes; split_ifs <;> omega

theorem cascadeLanes_ne_four (r : Word) : BitVec.ofNat 3 (cascadeLanes r) ≠ 4#3 := by
  have h := cascadeLanes_range r
  intro hc
  have := congrArg BitVec.toNat hc
  rw [BitVec.toNat_ofNat] at this
  simp at this
  omega

/-! ### What a MIXER step of a busy machine does -/

/-- The state the row's instruction leaves when its reads are served (R241). -/
def rowResult (s : State) : State :=
  let r := logReads (reads s (rowInstr s)) s
  match s.seq with
  | .idle => s
  | .init =>
    if s.modeq = .wide then
      { s with
        lanes := { s.lanes with l0 := seedLane s.seed }, olen := s.len, ptr := s.addr, rem := s.len
        align := s.addr.extractLsb' 0 2, seq := afterWinit s.len }
    else
      { s with
        h := initialH s.cfg s.seed s.len, ptr := s.addr, rem := s.len, align := s.addr.extractLsb' 0 2
        seq := afterInit32 s }
  | .words => writeWstep (memWord s s.ptr) r
  | .aset => writeAsetup (BitVec.ofNat 3 s.align.toNat) (tailValue s s.ptr (4 - s.align.toNat)) r
  | .awords => writeAstep (memWord s s.ptr) r
  | .apacks =>
    writeApack (BitVec.ofNat 3 (min s.rem.toNat s.align.toNat)) (tailValue s s.ptr (min s.rem.toNat s.align.toNat)) r
  | .tail => writeTstep (BitVec.ofNat 3 s.rem.toNat) (tailValue s s.ptr s.rem.toNat) r
  | .fin => finish (finalH s.cfg s.h) { s with h := finalH s.cfg s.h }
  | .wsmall => writeSmall (smallValue s (BitVec.ofNat 3 (smallClass s.len))) r
  | .wblk => writeBlk 4#3 (pairsValue s s.ptr 4) r
  | .wcasc => writeBlk (BitVec.ofNat 3 (cascadeLanes s.rem)) (pairsValue s s.ptr (cascadeLanes s.rem)) r
  | .wword => writeSstep (memWord s s.ptr) r
  | .wtail => writeGstep (BitVec.ofNat 3 s.rem.toNat) (gatherValue s s.ptr s.rem.toNat) r
  | .wlen => { s with lanes := smixPrimary s.cfg s.cfg.cpair.len s.olen s.lanes, seq := .wfins }
  | .wfins => finish (laneDigest s.lanes.l0) s

theorem ofNat3_toNat {n : Nat} (h : n < 8) : (BitVec.ofNat 3 n).toNat = n := by
  rw [BitVec.toNat_ofNat]; omega

theorem ofNat3_setWidth {n : Nat} (h : n < 8) : (BitVec.ofNat 3 n).setWidth 32 = BitVec.ofNat 32 n := by
  apply BitVec.eq_of_toNat_eq
  rw [BitVec.toNat_setWidth, BitVec.toNat_ofNat, BitVec.toNat_ofNat]
  omega

/-- The row's instruction completes with its row's result, or with BUSERR at the first read not served. -/
theorem exec_row {s : State} (h : SequencerOk s) (hq : s.seq ≠ .idle) :
    exec (rowInstr s) s = .next (
      match firstFailure s.cfg (reads s (rowInstr s)) with
      | none => rowResult s
      | some a => busFaulted a (issuedReads s.cfg (reads s (rowInstr s))) s) := by
  have hw := rowInstr_wellFormed h
  obtain ⟨h1, h2, h3, h4, h5, h6, h7, h8, h9, h10, h11, h12, h13⟩ := h
  have ha := s.align.isLt
  unfold rowResult
  unfold rowInstr at hw ⊢
  cases hs : s.seq <;> simp only [hs] at hw ⊢
  case idle => exact absurd hs hq
  case init =>
    by_cases hm : s.modeq = .wide
    · rw [if_pos hm, if_pos hm]; rfl
    · rw [if_neg hm, if_neg hm]; rfl
  case words => exact exec_wstep s
  case aset =>
    refine (exec_asetup s hw).trans ?_
    rw [ofNat3_toNat (by omega)]
    rfl
  case awords => exact exec_astep s
  case apacks =>
    refine (exec_apack s hw).trans ?_
    rw [ofNat3_toNat (by omega)]
    rfl
  case tail =>
    have := (h5 hs).2.2
    refine (exec_tstep s hw).trans ?_
    rw [ofNat3_toNat (by omega)]
    rfl
  case fin => rfl
  case wsmall => exact exec_small s hw
  case wblk => exact exec_blk s hw
  case wcasc =>
    refine (exec_blk s hw).trans ?_
    rw [ofNat3_toNat (by have := (cascadeLanes_range s.rem).2; omega)]
    rfl
  case wword => exact exec_sstep s
  case wtail =>
    have := (h11 hs).2.2.1
    refine (exec_gstep s hw).trans ?_
    rw [ofNat3_toNat (by omega)]
    rfl
  case wlen => rfl
  case wfins => rfl

/-- The result of a row keeps the pointer invariant and the conditions of R241, and is neither IDLE nor INIT. -/
theorem rowResult_sequencing {s : State} (h : Consistent s) (hb : s.busy = true) (hq : s.seq ≠ .idle)
    (hf : s.seq ≠ .fin) (hf' : s.seq ≠ .wfins) :
    CursorOk (rowResult s) ∧ SequencerOk (rowResult s) ∧ (rowResult s).seq ≠ .idle ∧ (rowResult s).seq ≠ .init := by
  obtain ⟨-, ho, hcur, hS⟩ := h
  obtain ⟨h1, h2, h3, h4, h5, h6, h7, h8, h9, h10, h11, h12, h13⟩ := hS
  have ho := ho hb
  have hcur := hcur hb
  have hal := s.align.isLt
  unfold rowResult
  cases hs : s.seq <;> simp only
  case idle => exact absurd hs hq
  case fin => exact absurd hs hf
  case wfins => exact absurd hs hf'
  case init =>
    clear h1 h2 h3 h4 h5 h6 h7 h8 h9 h10 h11 h12 h13
    by_cases hm : s.modeq = .wide
    · rw [if_pos hm]
      refine ⟨⟨le_refl _, by simp, rfl⟩, sequencerOk_of_afterWinit rfl hm rfl rfl, ?_⟩
      simp only [afterWinit]; split_ifs <;> simp
    · rw [if_neg hm]
      refine ⟨⟨le_refl _, by simp, rfl⟩, ?_, ?_⟩
      · by_cases k0 : s.modeq = .aligned ∧ s.addr.extractLsb' 0 2 ≠ 0#2 ∧ s.len.toNat ≥ 4
        · exact sequencerOk_of_aset (by simp only [afterInit32, if_pos k0]) ⟨k0.1, k0.2.1, k0.2.2, rfl⟩
        · refine sequencerOk_of_nw (by simp only [afterInit32, if_neg k0]) hm (fun ha h4 => ?_)
          have hz : s.addr.extractLsb' 0 2 = 0#2 := by by_contra hc; exact k0 ⟨ha, hc, h4⟩
          exact ⟨hz, by simpa using congrArg BitVec.toNat hz⟩
      · simp only [afterInit32, nw]; split_ifs <;> simp
  case words =>
    obtain ⟨k1, k2, k3⟩ := h1 hs
    clear h1 h2 h3 h4 h5 h6 h7 h8 h9 h10 h11 h12 h13
    refine ⟨cursor_advance (hcur (by simp [hs])) k2 rfl rfl rfl rfl rfl, sequencerOk_of_nw rfl k1 (fun h _ => ⟨(k3 h).1, ?_⟩), ?_⟩
    · have := (k3 h).2
      simp only [writeWstep, advance, logReads, BitVec.toNat_add, BitVec.toNat_ofNat]; omega
    simp only [writeWstep, nw]; split_ifs <;> simp
  case aset =>
    obtain ⟨k1, k2, k3, k4⟩ := h2 hs
    clear h1 h2 h3 h4 h5 h6 h7 h8 h9 h10 h11 h12 h13
    have hp := align_pos k2
    have han : (BitVec.ofNat 3 s.align.toNat).toNat = s.align.toNat := ofNat3_toNat (by omega)
    have hr : 4 - s.align.toNat ≤ s.rem.toNat := by rw [k4]; omega
    have hcu := hcur (by simp [hs])
    have hal2 : s.align.toNat = s.addr.toNat % 4 := by rw [hcu.2.2]; simp
    have hpt : s.ptr = s.addr := by rw [hcu.2.1, k4]; simp
    refine ⟨cursor_advance hcu hr (by simp only [writeAsetup, han]; rfl) (by simp only [writeAsetup, han]; rfl) rfl rfl rfl,
      sequencerOk_of_afterAligned rfl k1 ⟨k2, ?_, ?_, ?_⟩, ?_⟩
    · simp only [writeAsetup, han, advance, logReads, BitVec.toNat_ofNat]; omega
    · simp only [writeAsetup, han, advance, logReads, BitVec.toNat_ofNat]; omega
    · simp only [writeAsetup, han, advance, logReads, BitVec.toNat_add, BitVec.toNat_ofNat, hpt]; omega
    · simp only [writeAsetup, afterAligned]; split_ifs <;> simp
  case awords =>
    obtain ⟨k1, ⟨k2, k3, k4, k5⟩, k6⟩ := h3 hs
    clear h1 h2 h3 h4 h5 h6 h7 h8 h9 h10 h11 h12 h13
    refine ⟨cursor_advance (hcur (by simp [hs])) k6 rfl rfl rfl rfl rfl,
      sequencerOk_of_afterAligned rfl k1 ⟨k2, k3, k4, ?_⟩, ?_⟩
    · simp only [writeAstep, advance, logReads, BitVec.toNat_add, BitVec.toNat_ofNat]; omega
    · simp only [writeAstep, afterAligned]; split_ifs <;> simp
  case apacks =>
    obtain ⟨k1, -, k6⟩ := h4 hs
    clear h1 h2 h3 h4 h5 h6 h7 h8 h9 h10 h11 h12 h13
    have hn : min s.rem.toNat s.align.toNat ≤ s.rem.toNat := by omega
    have hsw := ofNat3_setWidth (n := min s.rem.toNat s.align.toNat) (by omega)
    refine ⟨cursor_advance (hcur (by simp [hs])) hn (by simp [writeApack, hsw]) (by simp [writeApack, hsw]) rfl rfl rfl, 
      sequencerOk_of_afterApack rfl (by show s.modeq ≠ .wide; rw [k1]; simp) ?_, ?_⟩
    · have e := sub_toNat hn
      simp only [writeApack, hsw, advance, logReads_rem]; omega
    · simp only [writeApack, afterApack]; split_ifs <;> simp
  case tail =>
    obtain ⟨k1, k2, k3⟩ := h5 hs
    clear h1 h2 h3 h4 h5 h6 h7 h8 h9 h10 h11 h12 h13
    have hsw := ofNat3_setWidth (n := s.rem.toNat) (by omega)
    refine ⟨cursor_advance (hcur (by simp [hs])) (le_refl _) (by simp only [writeTstep, hsw]; rfl) (by simp [writeTstep]) rfl rfl rfl, ?_, by simp [writeTstep]⟩
    exact sequencerOk_of_fin rfl ⟨k1, rfl⟩
  case wsmall =>
    obtain ⟨k1, k2, k3, k4, k5⟩ := h7 hs
    clear h1 h2 h3 h4 h5 h6 h7 h8 h9 h10 h11 h12 h13
    refine ⟨cursor_advance (hcur (by simp [hs])) (le_refl _) (by simp [writeSmall, k4]) (by simp [writeSmall]) rfl rfl rfl, ?_, by simp [writeSmall]⟩
    exact sequencerOk_of_wlen rfl ⟨k1, rfl, k5⟩
  case wblk =>
    obtain ⟨k1, k2, k3⟩ := h8 hs
    clear h1 h2 h3 h4 h5 h6 h7 h8 h9 h10 h11 h12 h13
    refine ⟨cursor_advance (hcur (by simp [hs])) k2 rfl rfl rfl rfl rfl, sequencerOk_of_afterBlk4 rfl k1 k3, ?_⟩
    simp only [writeBlk, afterBlk, nc, nt]; split_ifs <;> simp
  case wcasc =>
    obtain ⟨k1, k2, k2', k3⟩ := h9 hs
    clear h1 h2 h3 h4 h5 h6 h7 h8 h9 h10 h11 h12 h13
    have hc8 := cascadeLanes_bound k2 k2'
    have han := ofNat3_toNat (n := cascadeLanes s.rem) (by omega)
    have e := sub_toNat hc8.1
    refine ⟨cursor_advance (hcur (by simp [hs])) hc8.1 (by simp [writeBlk, han]) (by simp [writeBlk, han]) rfl rfl rfl,
      sequencerOk_of_nt (by simp only [writeBlk, afterBlk, if_neg (cascadeLanes_ne_four s.rem)]; rfl) k1 k3 ?_, ?_⟩
    · simp only [writeBlk, han, advance, logReads_rem]; omega
    · simp only [writeBlk, afterBlk, nc, nt]; split_ifs <;> simp
  case wword =>
    obtain ⟨k1, k2, k2', k3⟩ := h10 hs
    clear h1 h2 h3 h4 h5 h6 h7 h8 h9 h10 h11 h12 h13
    have e := sub_toNat (n := 4) k2
    refine ⟨cursor_advance (hcur (by simp [hs])) k2 rfl rfl rfl rfl rfl, sequencerOk_of_afterSstep rfl k1 k3 ?_, ?_⟩
    · show (s.rem - 4#32).toNat ≤ 3; omega
    · simp only [writeSstep, afterSstep]; split_ifs <;> simp
  case wtail =>
    obtain ⟨k1, k2, k3, k4⟩ := h11 hs
    clear h1 h2 h3 h4 h5 h6 h7 h8 h9 h10 h11 h12 h13
    have hsw := ofNat3_setWidth (n := s.rem.toNat) (by omega)
    refine ⟨cursor_advance (hcur (by simp [hs])) (le_refl _) (by simp only [writeGstep, hsw]; rfl) (by simp [writeGstep]) rfl rfl rfl, ?_, by simp [writeGstep]⟩
    exact sequencerOk_of_wlen rfl ⟨k1, rfl, k4⟩
  case wlen =>
    obtain ⟨k1, k2, k3⟩ := h12 hs
    exact ⟨hcur (by simp [hs]), sequencerOk_of_wfins rfl ⟨k1, k2, k3⟩, by simp⟩

/-- The registers no row but FIN32 and WFIN writes. -/
theorem rowResult_frame (s : State) (hf : s.seq ≠ .fin) (hf' : s.seq ≠ .wfins) :
    (rowResult s).busy = s.busy ∧ (rowResult s).done = s.done ∧ (rowResult s).fault = s.fault ∧
    (rowResult s).fcode = s.fcode ∧ (rowResult s).faddr = s.faddr ∧ (rowResult s).addr = s.addr ∧
    (rowResult s).len = s.len ∧ (rowResult s).digest = s.digest ∧ (rowResult s).modeq = s.modeq ∧
    (rowResult s).cfg = s.cfg ∧ (rowResult s).mem = s.mem ∧ (rowResult s).agenda = s.agenda ∧
    (rowResult s).seed = s.seed := by
  unfold rowResult
  cases hs : s.seq <;> simp only
  case init => split <;> simp
  case fin => exact absurd hs hf
  case wfins => exact absurd hs hf'
  all_goals simp [writeWstep, writeAsetup, writeAstep, writeApack, writeTstep, writeSmall, writeBlk, writeSstep, writeGstep]

end Sys2Proof.Machine
end

