-- ==== Sys2Proof/Tests/Slice0.lean ====
section
/-! SUPPORT. The model's own tests: ill-formed terms, words written out from the spec's encodings, one step of each
instruction with the values of spec/95_test_vectors.md, and a state that meets the hypotheses of each statement of
Certificates/Slice0/Obligations.lean. -/

namespace Sys2Proof.Tests

-- One after another: the kernel evaluations would otherwise each wait in a thread of their own.
set_option Elab.async false

open Sys2Proof Sys2Proof.Machine

/-! ### WellFormed refuses an ill-formed term for each check (spec/30_encoding.md R90, R96) -/

theorem test_rd_offset_not_a_word : (Instr.rd 0x06#5).wellFormed = false := by decide
theorem test_rd_offset_top : (Instr.rd 0x1C#5).wellFormed = true := by decide
theorem test_tstep_0_ill_formed : (Instr.tstep 0#3).wellFormed = false := by decide
theorem test_tstep_4_ill_formed : (Instr.tstep 4#3).wellFormed = false := by decide
theorem test_asetup_0_ill_formed : (Instr.asetup 0#3).wellFormed = false := by decide
theorem test_apack_4_ill_formed : (Instr.apack 4#3).wellFormed = false := by decide
theorem test_gstep_0_ill_formed : (Instr.gstep 0#3).wellFormed = false := by decide
theorem test_small_4_ill_formed : (Instr.small 4#3).wellFormed = false := by decide
theorem test_blk_0_ill_formed : (Instr.blk 0#3).wellFormed = false := by decide
theorem test_blk_5_ill_formed : (Instr.blk 5#3).wellFormed = false := by decide

/-! ### Words written out from R90, R91, R94 (heads of spec/95_test_vectors.md section 3) and bytes from R96 -/

theorem test_decode_rd : decode (.txn (0b0#1 ++ 0b00100#5 ++ 0x00000000#32)) = .instr (.rd 0x04#5) := by decide
theorem test_decode_rd_ignores_data : decode (.txn (0b0#1 ++ 0b11100#5 ++ 0xDEADBEEF#32)) = .instr (.rd 0x1C#5) := by
  decide
theorem test_decode_wr_addr : decode (.txn (0b1#1 ++ 0b01000#5 ++ 0x00001001#32)) = .instr (.wrAddr 0x00001001#32) := by
  decide
theorem test_decode_wr_len : decode (.txn 0x2C00000005#38) = .instr (.wrLen 0x00000005#32) := by decide
theorem test_decode_wr_seed : decode (.txn 0x30FFFFFFFF#38) = .instr (.wrSeed 0xFFFFFFFF#32) := by decide
theorem test_decode_wr_status : decode (.txn 0x24FFFFFFFF#38) = .instr (.wrStatus 0xFFFFFFFF#32) := by decide
theorem test_decode_wr_digest : decode (.txn 0x3400000001#38) = .instr (.wrDigest 0x00000001#32) := by decide
theorem test_decode_wr_faddr : decode (.txn 0x3800000001#38) = .instr (.wrFaddr 0x00000001#32) := by decide
theorem test_decode_wr_rsvd1c : decode (.txn 0x3C00000001#38) = .instr (.wrRsvd1c 0x00000001#32) := by decide
theorem test_decode_nop : decode (.txn 0x2000000000#38) = .instr .nop := by decide
theorem test_decode_start_simple : decode (.txn 0x2000000001#38) = .instr .startSimple := by decide
theorem test_decode_start_aligned : decode (.txn 0x2000000003#38) = .instr .startAligned := by decide
theorem test_decode_start_wide : decode (.txn 0x2000000005#38) = .instr .startWide := by decide
theorem test_decode_clr : decode (.txn 0x2000000008#38) = .instr .clr := by decide
theorem test_decode_ctrl_all_32_bits : decode (.txn 0x2080000001#38) = .badCommand 0x80000001#32 := by decide
theorem test_decode_misaligned : decode (.txn 0x2100000001#38) = .notATransaction 0x2100000001#38 := by decide
theorem test_decode_init32 : decode (.uop (0b00001#5 ++ 0b000#3)) = .instr .init32 := by decide
theorem test_decode_wstep : decode (.uop (0b00010#5 ++ 0b000#3)) = .instr .wstep := by decide
theorem test_decode_tstep : decode (.uop (0b00011#5 ++ 0b001#3)) = .instr (.tstep 1#3) := by decide
theorem test_decode_fin32 : decode (.uop (0b00100#5 ++ 0b000#3)) = .instr .fin32 := by decide
theorem test_decode_asetup : decode (.uop (0b00101#5 ++ 0b011#3)) = .instr (.asetup 3#3) := by decide
theorem test_decode_astep : decode (.uop (0b00110#5 ++ 0b000#3)) = .instr .astep := by decide
theorem test_decode_apack : decode (.uop (0b00111#5 ++ 0b000#3)) = .instr (.apack 0#3) := by decide
theorem test_decode_winit : decode (.uop (0b10000#5 ++ 0b000#3)) = .instr .winit := by decide
theorem test_decode_gstep : decode (.uop (0b10001#5 ++ 0b010#3)) = .instr (.gstep 2#3) := by decide
theorem test_decode_small : decode (.uop (0b10010#5 ++ 0b011#3)) = .instr (.small 3#3) := by decide
theorem test_decode_blk : decode (.uop (0b10011#5 ++ 0b100#3)) = .instr (.blk 4#3) := by decide
theorem test_decode_sstep : decode (.uop (0b10100#5 ++ 0b000#3)) = .instr .sstep := by decide
theorem test_decode_lstep : decode (.uop (0b10101#5 ++ 0b000#3)) = .instr .lstep := by decide
theorem test_decode_wfin : decode (.uop (0b10110#5 ++ 0b000#3)) = .instr .wfin := by decide
theorem test_decode_reserved_arg : decode (.uop 0x98#8) = .reservedUop 0x98#8 := by decide
theorem test_decode_reserved_op : decode (.uop 0xB8#8) = .reservedUop 0xB8#8 := by decide
theorem test_table_word_apack : decodeTableWord 8 0x38 = some (.apack 0#3) := by decide
theorem test_table_word_past_38_bits : decodeTableWord 40 0x4000000000 = none := by decide

/-! ### One step of each instruction, with the values of spec/95_test_vectors.md -/

/-- The reference configuration REF of spec/95_test_vectors.md section 1, over a wholly readable space. -/
def ref : Config where
  m := 0xC6A4A793
  c1 := 0x9E3779B97F4A7C15
  c2 := 0xC2B2AE3D27D4EB4F
  c3 := 0x165667B19E3779F9
  c4 := 0x85EBCA77C2B2AE63
  c5 := 0x27D4EB2F165667C5
  cpair := .standard
  unalignedOk := true
  readable := [⟨0, 2 ^ 32⟩]
  base := 0x40000000

/-- Bytes 01, 02, .. from address `a` (data[i] = i + 1). -/
def counting (a n : Nat) : Memory := (List.range n).map fun i => (a + i, BitVec.ofNat 8 (i + 1))

/-- An idle machine under REF whose operands name `n` counting bytes at `a`. -/
def idleAt (a n : Nat) (seed : Word) : State :=
  { State.reset with
    cfg := ref, mem := counting a n, addr := BitVec.ofNat 32 a, len := BitVec.ofNat 32 n, seed := seed }

/-- The same machine with the command running: mode, sequencer state, pointer and remaining length. -/
def busyAt (m : Mode) (q : SeqState) (a n p r : Nat) : State :=
  { idleAt a n 0#32 with
    busy := true, modeq := m, seq := q, ptr := BitVec.ofNat 32 p, rem := BitVec.ofNat 32 r
    align := BitVec.ofNat 2 a, olen := BitVec.ofNat 32 n }

/-- A view of an outcome's next state. -/
def view {α : Type} (f : State → α) : Host.Outcome State Fault Refusal → Option α
  | .next t => some (f t)
  | .fault _ => none
  | .refused _ => none

/-- The refusal of an outcome. -/
def refusal : Host.Outcome State Fault Refusal → Option Refusal
  | .next _ => none
  | .fault _ => none
  | .refused r => some r

/-- The registers the sequencer moves. -/
def cursor (t : State) : Word × Word × SeqState := (t.ptr, t.rem, t.seq)

-- spec/95_test_vectors.md 3.1, 3.4: RD reads the register; STATUS while busy is 0x00000001.
theorem test_rd_status_busy :
    view (·.hostReads) (exec (.rd 0x04#5) (busyAt .wide .wlen 0x1000 5 0x1005 0)) = some [0x00000001#32] := by
  decide +kernel
theorem test_rd_ctrl_reads_mode :
    view (·.hostReads) (exec (.rd 0x00#5) (busyAt .aligned .fin 0x1000 5 0x1005 0)) = some [0x00000002#32] := by
  decide +kernel
theorem test_wr_addr : view (·.addr) (exec (.wrAddr 0x00001001#32) (idleAt 0 0 0)) = some 0x00001001#32 := by
  decide +kernel
theorem test_wr_len_dropped_while_busy :
    view (·.len) (exec (.wrLen 0x77#32) (busyAt .simple .fin 0x1000 5 0x1005 0)) = some 5#32 := by decide +kernel
theorem test_wr_seed : view (·.seed) (exec (.wrSeed 0xFFFFFFFF#32) (idleAt 0 0 0)) = some 0xFFFFFFFF#32 := by
  decide +kernel
theorem test_wr_status_ignored : view statusWord (exec (.wrStatus 0xFFFFFFFF#32) (idleAt 0 0 0)) = some 0#32 := by
  decide +kernel
theorem test_wr_digest_ignored : view (·.digest) (exec (.wrDigest 0x1#32) (idleAt 0 0 0)) = some 0#32 := by
  decide +kernel
theorem test_wr_faddr_ignored : view (·.faddr) (exec (.wrFaddr 0x1#32) (idleAt 0 0 0)) = some 0#32 := by
  decide +kernel
theorem test_wr_rsvd1c_ignored : view (regRead · 0x1C#5) (exec (.wrRsvd1c 0x1#32) (idleAt 0 0 0)) = some 0#32 := by
  decide +kernel
theorem test_nop : view statusWord (exec .nop { idleAt 0 0 0 with done := true }) = some 0x2#32 := by decide +kernel
-- 3.3: ADDR = 0xFFFFFFFF, LEN = 1 is accepted; LEN = 2 is RANGE; LEN = 0x80000000 is BADLEN.
theorem test_start_simple_accepted :
    view statusWord (exec .startSimple (idleAt 0xFFFFFFFF 1 0)) = some 0x00000001#32 := by decide +kernel
theorem test_start_aligned_range :
    view statusWord (exec .startAligned (idleAt 0xFFFFFFFF 2 0)) = some 0x00000034#32 := by decide +kernel
theorem test_start_wide_badlen :
    view statusWord (exec .startWide { idleAt 0 0 0 with len := 0x80000000 }) = some 0x00000024#32 := by decide +kernel
theorem test_clr :
    view statusWord (exec .clr { idleAt 0 0 0 with fault := true, fcode := .buserr, faddr := 0x2010 }) = some 0#32 := by
  decide +kernel
-- 3.2: CTRL <- 2 with BUSY = 0 is BADCMD, STATUS 0x00000014.
theorem test_badcmd_step :
    view statusWord (step { idleAt 0 0 0 with done := true, agenda := [.txn 0x2000000002#38] }) = some 0x14#32 := by
  decide +kernel

-- 4.2, 4.6 step 1: LEN = 5 gives H = 0xE13745DF and SEQ = WORDS.
theorem test_init32 :
    view (fun t => (t.h, t.seq)) (exec .init32 (busyAt .simple .init 0x1001 5 0 0)) = some (0xE13745DF#32, .words) := by
  decide +kernel
-- 4.6 step 2.
theorem test_wstep :
    view (fun t => (t.h, cursor t)) (exec .wstep { busyAt .simple .words 0x1001 5 0x1001 5 with h := 0xE13745DF })
      = some (0xF0DA957A#32, 0x1005#32, 1#32, .tail) := by decide +kernel
-- 4.6 step 3.
theorem test_tstep :
    view (fun t => (t.h, cursor t))
      (exec (.tstep 1#3) { busyAt .simple .tail 0x1001 5 0x1005 1 with h := 0xF0DA957A })
      = some (0xE4655488#32, 0x1006#32, 0#32, .fin) := by decide +kernel
theorem test_tstep_reserved :
    refusal (exec (.tstep 4#3) (busyAt .simple .tail 0x1001 5 0x1005 1)) = some (.reservedUop 0x1C#8) := by
  decide +kernel
-- 4.6 step 4.
theorem test_fin32 :
    view (fun t => (t.digest, statusWord t)) (exec .fin32 { busyAt .simple .fin 0x1001 5 0x1006 0 with h := 0xE4655488 })
      = some (0x33BC9046#32, 0x2#32) := by decide +kernel
-- 5.3 steps 2, 3, 4.
theorem test_asetup :
    view (fun t => (t.t, t.sl, t.sr, cursor t)) (exec (.asetup 1#3) (busyAt .aligned .aset 0x1001 9 0x1001 9))
      = some (0x03020100#32, 24#5, 8#5, 0x1004#32, 6#32, .awords) := by decide +kernel
theorem test_astep :
    view (fun t => (t.h, t.t, cursor t))
      (exec .astep { busyAt .aligned .awords 0x1001 9 0x1004 6 with
        h := 0xE9FDB253, t := 0x03020100, sl := 24, sr := 8 })
      = some (0x9DDAC5E6#32, 0x07060504#32, 0x1008#32, 2#32, .apacks) := by decide +kernel
theorem test_apack :
    view (fun t => (t.h, cursor t))
      (exec (.apack 1#3) { busyAt .aligned .apacks 0x1001 9 0x1008 2 with
        h := 0x9DDAC5E6, t := 0x07060504, sl := 24, sr := 8 })
      = some (0xF13A95CB#32, 0x1009#32, 1#32, .tail) := by decide +kernel
-- 6.1: SEED = 0 gives the pair (1, 0xFFFFFFFF); 6.2: LEN = 17 goes to WCASC.
theorem test_winit :
    view (fun t => (t.lanes.l0, t.olen, t.seq)) (exec .winit (idleAt 0x3000 17 0#32))
      = some (⟨0x00000001#32, 0xFFFFFFFF#32⟩, 17#32, .wcasc) := by decide +kernel
-- 6.5, LEN = 3.
theorem test_gstep :
    view (fun t => (t.lanes.l0, cursor t))
      (exec (.gstep 3#3) { busyAt .wide .wtail 0x3000 3 0x3000 3 with
        lanes := { State.reset.lanes with l0 := ⟨0x00000001, 0xFFFFFFFF⟩ } })
      = some (⟨0xFF9D7BD0#32, 0xCFE4EF05#32⟩, 0x3003#32, 0#32, .wlen) := by decide +kernel
-- 6.5, LEN = 9.
theorem test_small :
    view (fun t => (t.lanes.l0, t.lanes.l1, t.seq))
      (exec (.small 2#3) { busyAt .wide .wsmall 0x3000 9 0x3000 9 with
        lanes := { State.reset.lanes with l0 := ⟨0x00000001, 0xFFFFFFFF⟩ } })
      = some (⟨0x4F61D2D9#32, 0x739EA8C7#32⟩, ⟨0x5E0E4C00#32, 0x3F3AFA24#32⟩, .wlen) := by decide +kernel
-- 6.5, LEN = 47, step 2: the scratch lanes keep what the mix left.
theorem test_blk :
    view (fun t => (t.lanes.l0, t.lanes.l3, cursor t))
      (exec (.blk 4#3) { busyAt .wide .wblk 0x3000 47 0x3000 47 with
        lanes := { State.reset.lanes with l0 := ⟨0x12345679, 0x12345677⟩ } })
      = some (⟨0x7809A258#32, 0x4C8BC1F4#32⟩, ⟨0xA3E30D0D#32, 0xAA91C2E2#32⟩, 0x3020#32, 15#32, .wcasc) := by
  decide +kernel
-- 7, row START.WIDE, LEN = 17: only 0x2000..0x200F is readable, GSTEP 1 takes BUSERR at 0x2010.
theorem test_buserr :
    view (fun t => (t.faddr, statusWord t, t.seq, t.portLog))
      (exec (.gstep 1#3) { busyAt .wide .wtail 0x2000 17 0x2010 1 with
        cfg := { ref with readable := [⟨0x2000, 16⟩] } })
      = some (0x2010#32, 0x44#32, .idle, [⟨0x2010, .byte⟩]) := by decide +kernel
-- 6.5, LEN = 47, steps 4, 6, 7.
theorem test_sstep :
    view (fun t => (t.lanes.l0, cursor t))
      (exec .sstep { busyAt .wide .wword 0x3000 47 0x3028 7 with
        lanes := { State.reset.lanes with l0 := ⟨0xF850DAA8, 0x77C2532E⟩ } })
      = some (⟨0xCF88A414#32, 0xAD39DBD9#32⟩, 0x302C#32, 3#32, .wtail) := by decide +kernel
theorem test_lstep :
    view (·.lanes.l0)
      (exec .lstep { busyAt .wide .wlen 0x3000 47 0x302F 0 with
        lanes := { State.reset.lanes with l0 := ⟨0x5F58DEF4, 0x301B39CC⟩ } })
      = some ⟨0xB9DE006E#32, 0x32F5B73C#32⟩ := by decide +kernel
theorem test_wfin :
    view (fun t => (t.digest, statusWord t))
      (exec .wfin { busyAt .wide .wfins 0x3000 47 0x302F 0 with
        lanes := { State.reset.lanes with l0 := ⟨0xB9DE006E, 0x32F5B73C⟩ } })
      = some (0x8B2BB752#32, 0x2#32) := by decide +kernel

/-! ### An opcode-table word runs as the first instruction after reset -/

theorem test_fetch_word_start :
    view (·.seq) (step (State.reset.withFetchWord 40 0x2000000005)) = some .init := by decide +kernel
theorem test_fetch_word_blk :
    fetch (State.reset.withFetchWord 8 0x9B)
      = .run (.blk 3#3) { State.reset with busy := true, seq := .wcasc, rem := 24 } := by rfl

/-! ### A state that meets the hypotheses of each statement, each clause at the ends of its range -/

/-- The state on a port with the given UNALIGNED_OK and readable regions. -/
def onPort (u : Bool) (rs : List Region) (s : State) : State :=
  { s with cfg := { ref with unalignedOk := u, readable := rs } }

/-- The DONE bit of a run's last state. -/
def doneAfter (k : Nat) (s : State) : Bool :=
  match Host.Core.run Sys2Proof.core k s with
  | .next t => State.done t
  | .fault _ => false
  | .refused _ => false

/-- The BUSY bit of a run's last state. -/
def busyAfter (k : Nat) (s : State) : Bool :=
  match Host.Core.run Sys2Proof.core k s with
  | .next t => State.busy t
  | .fault _ => false
  | .refused _ => false

theorem busyBefore_of {k : Nat} {s : State} (h : ∀ j, j < k → busyAfter j s = true) : BusyBefore k s := by
  intro j hj
  have hb := h j hj
  unfold busyAfter at hb
  split at hb
  · exact ⟨_, ‹_›, hb⟩
  · cases hb
  · cases hb

theorem done_of {k : Nat} {s : State} (h : doneAfter k s = true) :
    ∃ t, Host.Core.run Sys2Proof.core k s = .next t ∧ t.done = true := by
  unfold doneAfter at h
  split at h
  · exact ⟨_, ‹_›, h⟩
  · cases h
  · cases h

theorem readableBuffer_ref {s : State} (hc : s.cfg = ref) (hl : s.addr.toNat + s.len.toNat ≤ 2 ^ 32) :
    ReadableBuffer s := by
  intro a ha
  have h : a < 2 ^ 32 := by have := ha.2; omega
  simp only [readable, hc, ref, List.any_cons, List.any_nil, Bool.or_false, Bool.and_eq_true, decide_eq_true_eq]
  omega

/-- A command just accepted: mode, address, length (R214). -/
def startedAt (m : Mode) (a n : Nat) : State := busyAt m .init a n 0 0

/-- An accepted command meets the invariant. -/
theorem consistent_startedAt (m : Mode) (a n : Nat) (ha : a < 2 ^ 32) (hn : n < 2 ^ 31) (hr : a + n ≤ 2 ^ 32) :
    Consistent (startedAt m a n) := by
  have hl : (BitVec.ofNat 32 n).toNat = n := by rw [BitVec.toNat_ofNat]; omega
  have had : (BitVec.ofNat 32 a).toNat = a := by rw [BitVec.toNat_ofNat]; omega
  have hf : (startedAt m a n).fault = false := rfl
  have hc : (startedAt m a n).fcode = .none := rfl
  have hq : (startedAt m a n).seq = .init := rfl
  have hb : (startedAt m a n).busy = true := rfl
  refine ⟨⟨fun _ => ⟨rfl, rfl⟩, fun _ => rfl, ?_, ?_, fun _ => rfl⟩, fun _ => ⟨?_, .inr ?_⟩, fun _ h => absurd rfl h,
    sequencerOk_of_init rfl⟩
  · rw [hf, hc]; simp
  · rw [hq, hb]; simp
  · show (BitVec.ofNat 32 n).toNat < 2 ^ 31
    omega
  · show (BitVec.ofNat 32 a).toNat + (BitVec.ofNat 32 n).toNat ≤ 2 ^ 32
    omega

/-- The state before ASTEP of spec/95_test_vectors.md 5.3. -/
def recombining : State := { busyAt .aligned .awords 0x1001 9 0x1004 6 with t := 0x03020100, sl := 24, sr := 8 }

theorem consistent_recombining : Consistent recombining :=
  consistent_of_running rfl rfl rfl rfl rfl (by decide) (by decide) (by decide)
    (sequencerOk_of_awords rfl (by decide))

/-- The invariant of a busy state outside INIT, with its BUSY bit. -/
theorem consistent_row (s : State) (hb : s.busy = true) (hd : s.done = false) (hf : s.fault = false)
    (hc : s.fcode = .none) (ha : s.faddr = 0#32) (hq : s.seq ≠ .idle) (ho : OperandsOk s) (hp : CursorOk s)
    (hs : SequencerOk s) : Consistent s ∧ s.busy = true := ⟨consistent_of_running hb hd hf hc ha hq ho hp hs, hb⟩

theorem witness_DecodeInvertsEncode :
    (Instr.rd 0x1C#5).wellFormed = true ∧ (Instr.apack 0#3).wellFormed = true ∧ (Instr.apack 3#3).wellFormed = true ∧
    (Instr.tstep 1#3).wellFormed = true ∧ (Instr.tstep 3#3).wellFormed = true ∧ (Instr.blk 1#3).wellFormed = true ∧
    (Instr.blk 4#3).wellFormed = true := by decide

theorem witness_EncodeInvertsDecode :
    decode (.uop 0x9C#8) = .instr (.blk 4#3) ∧
    (decode (.txn 0x2000000008#38) = .instr .clr ∧ txnWe 0x2000000008#38 = true) ∧
    (decode (.txn 0x1CFFFFFFFF#38) = .instr (.rd 0x1C#5) ∧ txnWe 0x1CFFFFFFFF#38 = false) := by decide

theorem witness_ReservedBytesAreRefused :
    decode (.uop 0x00#8) = .reservedUop 0x00#8 ∧ decode (.uop 0x40#8) = .reservedUop 0x40#8 ∧
    decode (.uop 0x7F#8) = .reservedUop 0x7F#8 ∧ decode (.uop 0xB8#8) = .reservedUop 0xB8#8 ∧
    decode (.uop 0xFF#8) = .reservedUop 0xFF#8 ∧ decode (.uop 0x09#8) = .reservedUop 0x09#8 ∧
    decode (.uop 0x18#8) = .reservedUop 0x18#8 ∧ decode (.uop 0x1C#8) = .reservedUop 0x1C#8 ∧
    decode (.uop 0x3C#8) = .reservedUop 0x3C#8 ∧ decode (.uop 0x98#8) = .reservedUop 0x98#8 ∧
    decode (.uop 0x9D#8) = .reservedUop 0x9D#8 := by decide

theorem witness_StepRunsTheTransaction :
    ({ idleAt 0 0 0 with agenda := [.txn 0x2000000005#38, .mixer] } : State).agenda = .txn 0x2000000005#38 :: [.mixer] ∧
    decode (.txn 0x2000000005#38) = .instr .startWide := ⟨rfl, by decide⟩

theorem witness_StepRunsTheIssuedByte :
    (startedAt .wide 0x1000 5).busy = true ∧ (startedAt .wide 0x1000 5).seq ≠ .idle ∧
    decode (.uop (issue (startedAt .wide 0x1000 5))) = .instr .winit ∧ (startedAt .wide 0x1000 5).agenda = [] ∧
    ({ startedAt .wide 0x1000 5 with agenda := [.mixer] } : State).agenda = .mixer :: [] := by decide +kernel

theorem witness_IdleMixerHasNoStep :
    (idleAt 0x1000 5 0).busy = false ∧ (idleAt 0x1000 5 0).agenda = [] ∧
    ({ idleAt 0x1000 5 0 with agenda := [.mixer] } : State).agenda = .mixer :: [] := by decide +kernel

theorem witness_RdReturnsTheRegister : (0x00#5).toNat % 4 = 0 ∧ (0x1C#5).toNat % 4 = 0 := by decide

theorem witness_MemReadChecksThenReads : (0xFFFFFFFC#32).toNat + 3 < 2 ^ 32 ∧ (0x00000000#32).toNat + 3 < 2 ^ 32 := by
  decide

theorem witness_OperandWritesStore : (idleAt 0x1000 5 0).busy = false := rfl

theorem witness_BusyWritesAreDropped :
    (startedAt .simple 0x1000 5).busy = true ∧ 0x10#5 ∈ [0x00#5, 0x08#5, 0x0C#5, 0x10#5] ∧
    0x00#5 ∈ [0x00#5, 0x08#5, 0x0C#5, 0x10#5] ∧
    ({ startedAt .simple 0x1000 5 with agenda := [.txn (packTxn true 0x00#5 0x9#32)] } : State).agenda
      = .txn (packTxn true 0x00#5 0x9#32) :: [] := by decide +kernel

/-- Every branch of START at its boundary: LEN = 2^31, a buffer one byte past the space, one that ends at its end, the
longest length, and the empty buffer anywhere. -/
theorem witness_StartCommandOutcome :
    (idleAt 0 0x80000000 0).busy = false ∧ (idleAt 0 0x80000000 0).len.toNat ≥ 2 ^ 31 ∧
    ((idleAt 0xFFFFFFFF 2 0).busy = false ∧ (idleAt 0xFFFFFFFF 2 0).len ≠ 0#32 ∧
      (idleAt 0xFFFFFFFF 2 0).addr.toNat + (idleAt 0xFFFFFFFF 2 0).len.toNat > 2 ^ 32) ∧
    ((idleAt 0xFFFFFFFF 1 0).busy = false ∧
      (idleAt 0xFFFFFFFF 1 0).addr.toNat + (idleAt 0xFFFFFFFF 1 0).len.toNat = 2 ^ 32) ∧
    (idleAt 0xFFFFFFFF 0 0).len = 0#32 ∧
    (Instr.startSimple, Mode.simple) ∈
      [(Instr.startSimple, Mode.simple), (.startAligned, .aligned), (.startWide, .wide)] := by
  refine ⟨rfl, ?_, ⟨rfl, ?_, ?_⟩, ⟨rfl, ?_⟩, rfl, ?_⟩ <;> simp [idleAt]

theorem witness_ClrAndIllegalValues :
    (idleAt 0 0 0).busy = false ∧ (idleAt 0 0 0).seq = .idle ∧ 0x2#32 ∉ [0x0#32, 0x1#32, 0x3#32, 0x5#32, 0x8#32] ∧
    0x80000001#32 ∉ [0x0#32, 0x1#32, 0x3#32, 0x5#32, 0x8#32] ∧
    ({ idleAt 0 0 0 with agenda := [.txn (packTxn true 0x00#5 0x2#32)] } : State).agenda
      = .txn (packTxn true 0x00#5 0x2#32) :: [] := by decide +kernel

theorem witness_NonTransactionsAreRefused :
    (0x01#5).toNat % 4 ≠ 0 ∧ (0x1F#5).toNat % 4 ≠ 0 ∧
    ({ idleAt 0 0 0 with agenda := [.txn (packTxn true 0x1F#5 0#32)] } : State).agenda
      = .txn (packTxn true 0x1F#5 0#32) :: [] ∧
    0x3FFFFFFC < (idleAt 0 0 0).cfg.base ∧ (0x40000002 - (idleAt 0 0 0).cfg.base) % 4 ≠ 0 ∧
    (idleAt 0 0 0).cfg.base + 32 ≤ 0x40000020 ∧
    ({ idleAt 0 0 0 with agenda := [.access true 0x40000020 4 0#32] } : State).agenda
      = .access true 0x40000020 4 0#32 :: [] := by decide +kernel

/-- A narrow and a wide access at offset 0x08, the neighbours of the width 4 that a transaction has. -/
theorem witness_NonTransactionsAreRefused_width :
    2 ≠ 4 ∧ 8 ≠ 4 ∧
    ({ idleAt 0 0 0 with agenda := [.access false 0x40000008 2 0#32] } : State).agenda
      = .access false 0x40000008 2 0#32 :: [] ∧
    ({ idleAt 0 0 0 with agenda := [.access true 0x40000008 8 0#32] } : State).agenda
      = .access true 0x40000008 8 0#32 :: [] := by decide +kernel

theorem witness_WindowAccessIsTransaction :
    ({ idleAt 0 0 0 with agenda := [.access true (0x40000000 + (0x1F#5).toNat) 4 0#32] } : State).agenda
      = .access true ((idleAt 0 0 0).cfg.base + (0x1F#5).toNat) 4 0#32 :: [] := by decide +kernel

theorem witness_WordIsItsFourBytes :
    rd32 (idleAt 0x1000 4 0) 0x1000#32 = .ok 0x04030201#32 [⟨0x1000, .word⟩] ∧
    rd8 (idleAt 0x1000 4 0) 0x1000#32 = .ok 0x01#32 [⟨0x1000, .byte⟩] ∧
    rd8 (idleAt 0x1000 4 0) (0x1000#32 + 1#32) = .ok 0x02#32 [⟨0x1001, .byte⟩] ∧
    rd8 (idleAt 0x1000 4 0) (0x1000#32 + 2#32) = .ok 0x03#32 [⟨0x1002, .byte⟩] ∧
    rd8 (idleAt 0x1000 4 0) (0x1000#32 + 3#32) = .ok 0x04#32 [⟨0x1003, .byte⟩] := by decide +kernel

theorem witness_Init32Result :
    (startedAt .simple 0x1001 4).modeq ≠ .wide ∧ (startedAt .aligned 0x1001 4).modeq ≠ .wide ∧
    (startedAt .aligned 0x1001 4).seq = .init := by decide +kernel

theorem witness_WinitResult : (startedAt .wide 0x1001 4).modeq = .wide ∧ (startedAt .wide 0x1001 4).seq = .init := by
  decide +kernel

theorem witness_WfinResult : (busyAt .wide .wfins 0x1000 3 0x1003 0).seq = .wfins := rfl

theorem witness_word_reads_served_or_not :
    served (busyAt .simple .words 0x1001 5 0x1001 5).cfg ⟨0x1001#32, .word⟩ = true ∧
    served (onPort false [⟨0, 2 ^ 32⟩] (busyAt .simple .words 0x1001 5 0x1001 5)).cfg ⟨0x1001#32, .word⟩ = false ∧
    served (onPort true [⟨0x1000, 3⟩] (busyAt .simple .words 0x1000 5 0x1000 5)).cfg ⟨0x1000#32, .word⟩ = false := by
  decide +kernel

theorem witness_TstepResult :
    [1#3, 3#3].all (fun n => n ∈ [1#3, 2#3, 3#3] ∧ (reads (busyAt .simple .tail 0x1000 3 0x1000 3) (.tstep n)).all
      (served (busyAt .simple .tail 0x1000 3 0x1000 3).cfg) = true) = true ∧
    firstFailure (onPort true [⟨0x1000, 2⟩] (busyAt .simple .tail 0x1000 3 0x1000 3)).cfg
      (reads (onPort true [⟨0x1000, 2⟩] (busyAt .simple .tail 0x1000 3 0x1000 3)) (.tstep 3#3)) = some 0x1002#32 := by decide +kernel

theorem witness_Fin32Result :
    (busyAt .simple .fin 0x1000 4 0x1004 0).seq = .fin ∧
    (0xE4655488#32 * ref.m) ^^^ ((0xE4655488#32 * ref.m) >>> 10) = 0x97519F08#32 ∧
    (0x97519F08#32 * ref.m) ^^^ ((0x97519F08#32 * ref.m) >>> 17) = 0x33BC9046#32 := by decide +kernel

theorem witness_MsxStage : 16 ∈ [16, 10, 17] ∧ 10 ∈ [16, 10, 17] ∧ 17 ∈ [16, 10, 17] := by decide

theorem witness_TailGatherIsLowBytes :
    (tailReqs 0x1000#32 3).all (served (idleAt 0x1000 3 0).cfg) = true ∧
    (tailReqs 0x1000#32 0).all (served (idleAt 0x1000 3 0).cfg) = true ∧ (0xFFFFFFFC#32).toNat + 3 < 2 ^ 32 := by
  decide +kernel

theorem witness_RecombineJoinsBytes : 1 ∈ [1, 2, 3] ∧ 3 ∈ [1, 2, 3] := by decide

theorem witness_AsetupResult :
    [1#3, 3#3].all (fun a => a ∈ [1#3, 2#3, 3#3] ∧ (reads (busyAt .aligned .aset 0x1001 9 0x1001 9) (.asetup a)).all
      (served (busyAt .aligned .aset 0x1001 9 0x1001 9).cfg) = true) = true ∧
    firstFailure (onPort true [⟨0x1001, 1⟩] (busyAt .aligned .aset 0x1001 9 0x1001 9)).cfg
      (reads (onPort true [⟨0x1001, 1⟩] (busyAt .aligned .aset 0x1001 9 0x1001 9)) (.asetup 1#3)) = some 0x1003#32 := by decide +kernel

theorem witness_AstepResult :
    served recombining.cfg ⟨recombining.ptr, .word⟩ = true ∧
    0x04030201#32 = (recombining.t >>> recombining.sr.toNat)
      ||| (memWord recombining recombining.ptr <<< recombining.sl.toNat) := by decide +kernel

theorem witness_ApackResult :
    [0#3, 3#3].all (fun p => p ∈ [0#3, 1#3, 2#3, 3#3] ∧ (reads recombining (.apack p)).all
      (served recombining.cfg) = true) = true ∧
    firstFailure (onPort true [⟨0x1004, 1⟩] recombining).cfg
      (reads (onPort true [⟨0x1004, 1⟩] recombining) (.apack 2#3)) = some 0x1005#32 := by decide +kernel

theorem witness_GstepResult :
    [1#3, 3#3].all (fun n => n ∈ [1#3, 2#3, 3#3] ∧ (reads (busyAt .wide .wtail 0x1000 3 0x1000 3) (.gstep n)).all
      (served (busyAt .wide .wtail 0x1000 3 0x1000 3).cfg) = true) = true ∧
    firstFailure (onPort true [⟨0x1000, 2⟩] (busyAt .wide .wtail 0x1000 3 0x1000 3)).cfg
      (reads (onPort true [⟨0x1000, 2⟩] (busyAt .wide .wtail 0x1000 3 0x1000 3)) (.gstep 3#3)) = some 0x1002#32 := by decide +kernel

theorem witness_SmallResult :
    [1#3, 3#3].all (fun c => c ∈ [1#3, 2#3, 3#3] ∧ (reads (busyAt .wide .wsmall 0x1000 13 0x1000 13) (.small c)).all
      (served (busyAt .wide .wsmall 0x1000 13 0x1000 13).cfg) = true) = true ∧
    firstFailure (onPort false [⟨0, 2 ^ 32⟩] (busyAt .wide .wsmall 0x1000 13 0x1000 13)).cfg
      (reads (onPort false [⟨0, 2 ^ 32⟩] (busyAt .wide .wsmall 0x1000 13 0x1000 13)) (.small 1#3)) = some 0x1009#32 := by decide +kernel

theorem witness_BlkResult :
    [1#3, 4#3].all (fun k => k ∈ [1#3, 2#3, 3#3, 4#3] ∧ (reads (busyAt .wide .wblk 0x1000 39 0x1000 39) (.blk k)).all
      (served (busyAt .wide .wblk 0x1000 39 0x1000 39).cfg) = true) = true ∧
    7#32 = (busyAt .wide .wblk 0x1000 39 0x1000 39).rem - BitVec.ofNat 32 (8 * (4#3).toNat) ∧
    (busyAt .wide .wcasc 0x1000 15 0x1000 15).rem - BitVec.ofNat 32 (8 * (1#3).toNat) = 7#32 ∧
    firstFailure (onPort true [⟨0x1000, 31⟩] (busyAt .wide .wblk 0x1000 39 0x1000 39)).cfg
      (reads (onPort true [⟨0x1000, 31⟩] (busyAt .wide .wblk 0x1000 39 0x1000 39)) (.blk 4#3)) = some 0x101C#32 := by decide +kernel

theorem witness_ReservedOperandsAreRefused :
    (0x01#5).toNat % 4 ≠ 0 ∧ (0x1F#5).toNat % 4 ≠ 0 ∧
    0#3 ∉ [1#3, 2#3, 3#3] ∧ 4#3 ∉ [1#3, 2#3, 3#3] ∧ 4#3 ∉ [0#3, 1#3, 2#3, 3#3] ∧ 0#3 ∉ [1#3, 2#3, 3#3, 4#3] ∧
    5#3 ∉ [1#3, 2#3, 3#3, 4#3] := by decide

theorem witness_BusErrorEntry :
    (Instr.gstep 3#3).wellFormed = true ∧
    firstFailure (onPort true [⟨0x1000, 2⟩] (busyAt .wide .wtail 0x1000 3 0x1000 3)).cfg
      (reads (onPort true [⟨0x1000, 2⟩] (busyAt .wide .wtail 0x1000 3 0x1000 3)) (.gstep 3#3)) = some 0x1002#32 := by
  decide +kernel

/-- The states of R241's rows at the ends of their ranges; the rows of INIT are `consistent_startedAt`. -/
theorem witness_SequencerIssuesTheTable :
    (Consistent (startedAt .wide 0 0) ∧ (startedAt .wide 0 0).busy = true ∧ (startedAt .wide 0 0).agenda = []) ∧
    (Consistent recombining ∧ recombining.busy = true) ∧
    (Consistent (busyAt .simple .words 0x1001 4 0x1001 4) ∧ (busyAt .simple .words 0x1001 4 0x1001 4).busy = true) ∧
    (Consistent (busyAt .aligned .aset 0x1003 4 0x1003 4) ∧ (busyAt .aligned .aset 0x1003 4 0x1003 4).busy = true) ∧
    (Consistent { recombining with seq := .apacks, ptr := 0x1008, rem := 2 }) ∧
    (Consistent (busyAt .simple .tail 0x1000 3 0x1000 3) ∧ (busyAt .simple .tail 0x1000 3 0x1000 3).busy = true) ∧
    (Consistent (busyAt .simple .fin 0x1000 4 0x1004 0)) ∧
    (Consistent (busyAt .wide .wsmall 0x1000 8 0x1000 8)) ∧ (Consistent (busyAt .wide .wsmall 0x1000 9 0x1000 9)) ∧
    (Consistent (busyAt .wide .wsmall 0x1000 12 0x1000 12)) ∧ (Consistent (busyAt .wide .wsmall 0x1000 13 0x1000 13)) ∧
    (Consistent (busyAt .wide .wblk 0x1000 32 0x1000 32)) ∧ (Consistent (busyAt .wide .wcasc 0x1000 24 0x1000 24)) ∧
    (Consistent (busyAt .wide .wcasc 0x1000 23 0x1000 23)) ∧ (Consistent (busyAt .wide .wcasc 0x1000 47 0x1020 15)) ∧
    (Consistent (busyAt .wide .wword 0x1000 39 0x1020 7)) ∧ (Consistent (busyAt .wide .wtail 0x1000 3 0x1000 3)) ∧
    (Consistent (busyAt .wide .wlen 0x1000 3 0x1003 0)) ∧ (Consistent (busyAt .wide .wfins 0x1000 3 0x1003 0)) := by
  refine ⟨⟨consistent_startedAt _ _ _ (by decide) (by decide) (by decide), rfl, rfl⟩, ⟨consistent_recombining, rfl⟩,
    consistent_row _ rfl rfl rfl rfl rfl ?_ ?_ ?_ (sequencerOk_of_words rfl ?_),
    consistent_row _ rfl rfl rfl rfl rfl ?_ ?_ ?_ (sequencerOk_of_aset rfl ?_),
    (consistent_row _ rfl rfl rfl rfl rfl ?_ ?_ ?_ (sequencerOk_of_apacks rfl ?_)).1,
    consistent_row _ rfl rfl rfl rfl rfl ?_ ?_ ?_ (sequencerOk_of_tail rfl ?_),
    (consistent_row _ rfl rfl rfl rfl rfl ?_ ?_ ?_ (sequencerOk_of_fin rfl ?_)).1,
    (consistent_row _ rfl rfl rfl rfl rfl ?_ ?_ ?_ (sequencerOk_of_wsmall rfl ?_)).1,
    (consistent_row _ rfl rfl rfl rfl rfl ?_ ?_ ?_ (sequencerOk_of_wsmall rfl ?_)).1,
    (consistent_row _ rfl rfl rfl rfl rfl ?_ ?_ ?_ (sequencerOk_of_wsmall rfl ?_)).1,
    (consistent_row _ rfl rfl rfl rfl rfl ?_ ?_ ?_ (sequencerOk_of_wsmall rfl ?_)).1,
    (consistent_row _ rfl rfl rfl rfl rfl ?_ ?_ ?_ (sequencerOk_of_wblk rfl ?_)).1,
    (consistent_row _ rfl rfl rfl rfl rfl ?_ ?_ ?_ (sequencerOk_of_wcasc rfl ?_)).1,
    (consistent_row _ rfl rfl rfl rfl rfl ?_ ?_ ?_ (sequencerOk_of_wcasc rfl ?_)).1,
    (consistent_row _ rfl rfl rfl rfl rfl ?_ ?_ ?_ (sequencerOk_of_wcasc rfl ?_)).1,
    (consistent_row _ rfl rfl rfl rfl rfl ?_ ?_ ?_ (sequencerOk_of_wword rfl ?_)).1,
    (consistent_row _ rfl rfl rfl rfl rfl ?_ ?_ ?_ (sequencerOk_of_wtail rfl ?_)).1,
    (consistent_row _ rfl rfl rfl rfl rfl ?_ ?_ ?_ (sequencerOk_of_wlen rfl ?_)).1,
    (consistent_row _ rfl rfl rfl rfl rfl ?_ ?_ ?_ (sequencerOk_of_wfins rfl ?_)).1⟩
  all_goals decide

/-- The MIXER is next when no event is pending, and on its turn, whatever is pending after it. -/
theorem witness_SequencerIssuesTheTable_turn :
    (MixerNext recombining recombining) ∧
    (Consistent { recombining with agenda := [.mixer, .reset] } ∧
      MixerNext { recombining with agenda := [.mixer, .reset] } { recombining with agenda := [.reset] }) :=
  ⟨.inl ⟨rfl, rfl⟩, consistent_recombining, .inr ⟨_, rfl, rfl⟩⟩

theorem witness_ResetZeroesEveryRegister :
    ({ recombining with agenda := [.reset] } : State).agenda = .reset :: [] := rfl

theorem witness_EveryStepKeepsTheInvariant :
    Consistent recombining ∧ (view (·.seq) (step recombining) = some .apacks) :=
  ⟨consistent_recombining, by decide +kernel⟩

theorem witness_MixerNeverGetsStuck :
    Consistent recombining ∧
    refusal (step { recombining with agenda := [.txn (packTxn false 0x02#5 0#32)] }) = some .notATransaction :=
  ⟨consistent_recombining, by decide +kernel⟩

theorem witness_InstructionsNeverWriteMemory : ∃ t, exec .astep recombining = .next t := ⟨_, rfl⟩

theorem witness_StoresChangeOneByte :
    ({ recombining with agenda := [.store 0x1004#32 0#8] } : State).mem.wf = true ∧
    ({ recombining with agenda := [.store 0x1004#32 0#8] } : State).agenda = .store 0x1004#32 0#8 :: [] ∧
    view (·.mem.length) (step { recombining with agenda := [.store 0x1004#32 0#8] }) = some 8 := by decide +kernel

/-- A state whose next step delivers a digest that differs from the one held. -/
theorem witness_OnlyFinishingWritesDigest :
    view (·.digest) (step { busyAt .simple .fin 0x1001 5 0x1006 0 with h := 0xE4655488 }) = some 0x33BC9046#32 ∧
    ({ busyAt .simple .fin 0x1001 5 0x1006 0 with h := 0xE4655488 } : State).digest ≠ 0x33BC9046#32 := by
  decide +kernel

theorem witness_BusyIsSetByStartOnly :
    (Consistent (idleAt 0x1000 5 0) ∧ (idleAt 0x1000 5 0).busy = false ∧
      view (·.busy) (step { idleAt 0x1000 5 0 with agenda := [.txn 0x2000000005#38] }) = some true) ∧
    (Consistent (busyAt .simple .fin 0x1000 4 0x1004 0) ∧ (busyAt .simple .fin 0x1000 4 0x1004 0).busy = true ∧
      view (·.busy) (step (busyAt .simple .fin 0x1000 4 0x1004 0)) = some false) :=
  ⟨⟨consistent_of_idle rfl (fun h => by cases h) (by decide) rfl (fun _ => rfl), rfl, by decide +kernel⟩,
    ⟨(consistent_row _ rfl rfl rfl rfl rfl (by decide) (by decide) (by decide) (sequencerOk_of_fin rfl (by decide))).1,
      rfl, by decide +kernel⟩⟩

theorem witness_HostCannotDisturbARun :
    (recombining.busy = true ∧
      view (·.hostReads) (step { recombining with agenda := [.txn 0x0400000000#38] }) = some [1#32]) ∧
    (view (·.hostReads) (step { recombining with agenda := [.txn 0x2000000008#38] }) = some [] ∧
      txnWe 0x2000000008#38 = true ∧ txnWe 0x0400000000#38 = false) := by decide +kernel

theorem witness_ReadsStayInTheBuffer :
    Consistent recombining ∧ view (·.portLog) (step recombining) = some [⟨0x1004#32, .word⟩] :=
  ⟨consistent_recombining, by decide +kernel⟩

theorem witness_AlignedModeReadsAligned :
    Consistent recombining ∧ recombining.busy = true ∧ recombining.modeq = .aligned ∧
    view (·.fault) (step recombining) = some false ∧ ReadableBuffer recombining :=
  ⟨consistent_recombining, rfl, rfl, by decide +kernel, readableBuffer_ref rfl (by decide)⟩

/-- `recombining` with another seed, accumulator, combining buffer and memory. -/
def otherData : State := { recombining with seed := 7, h := 9, t := 1, mem := [] }

theorem witness_TraceIgnoresDataAndSeed :
    (otherData.addr = recombining.addr ∧ otherData.len = recombining.len ∧ otherData.modeq = recombining.modeq ∧
      otherData.busy = recombining.busy ∧ otherData.ptr = recombining.ptr ∧ otherData.rem = recombining.rem ∧
      otherData.align = recombining.align ∧ otherData.seq = recombining.seq ∧ otherData.cfg = recombining.cfg ∧
      otherData.agenda = recombining.agenda) ∧
    otherData.mem ≠ recombining.mem ∧
    (∃ t, step recombining = .next t) ∧ view (·.seq) (step otherData) = some .apacks :=
  ⟨by decide +kernel, by decide +kernel, ⟨_, rfl⟩, by decide +kernel⟩

theorem witness_BusyCommandEnds :
    Consistent recombining ∧ recombining.busy = true ∧ recombining.agenda = [] := ⟨consistent_recombining, rfl, rfl⟩

/-- A SIMPLE command of one byte whose run meets a store outside the buffer. -/
def simpleRun : State :=
  { startedAt .simple 0x1000 1 with agenda := [.mixer, .store 0x1001#32 0xFF#8, .mixer] }

theorem stable_of_store {s : State} (h : s.agenda = [.mixer, .store 0x1001#32 0xFF#8, .mixer]) (ha : s.addr = 0x1000#32)
    (hl : s.len = 1#32) : StableBuffer s := by
  intro a b hm
  rw [h] at hm
  simp only [List.mem_cons, reduceCtorEq, Event.store.injEq, List.not_mem_nil, or_false, false_or] at hm
  intro hi
  have := hi.2
  rw [hm.1, ha, hl] at this
  exact absurd this (by decide)

theorem witness_SimpleCommandDigest :
    Consistent simpleRun ∧ Started .simple simpleRun ∧ StableBuffer simpleRun ∧ BusyBefore 4 simpleRun ∧
    ∃ t, Host.Core.run Sys2Proof.core 4 simpleRun = .next t ∧ t.done = true :=
  ⟨consistent_startedAt .simple 0x1000 1 (by decide) (by decide) (by decide), ⟨rfl, rfl, rfl⟩,
    stable_of_store rfl rfl rfl, busyBefore_of (by decide +kernel), done_of (by decide +kernel)⟩

/-- An ALIGNED command over a misaligned buffer, left to the MIXER. -/
theorem witness_AlignedCommandDigest :
    Consistent (startedAt .aligned 0x1001 4) ∧ Started .aligned (startedAt .aligned 0x1001 4) ∧
    StableBuffer (startedAt .aligned 0x1001 4) ∧ BusyBefore 4 (startedAt .aligned 0x1001 4) ∧
    ∃ t, Host.Core.run Sys2Proof.core 4 (startedAt .aligned 0x1001 4) = .next t ∧ t.done = true :=
  ⟨consistent_startedAt .aligned 0x1001 4 (by decide) (by decide) (by decide), ⟨rfl, rfl, rfl⟩,
    fun _ _ h => absurd h (List.not_mem_nil), busyBefore_of (by decide +kernel), done_of (by decide +kernel)⟩

theorem witness_WideCommandDigest :
    Consistent (startedAt .wide 0x1001 5) ∧ Started .wide (startedAt .wide 0x1001 5) ∧
    StableBuffer (startedAt .wide 0x1001 5) ∧ BusyBefore 4 (startedAt .wide 0x1001 5) ∧
    ∃ t, Host.Core.run Sys2Proof.core 4 (startedAt .wide 0x1001 5) = .next t ∧ t.done = true :=
  ⟨consistent_startedAt .wide 0x1001 5 (by decide) (by decide) (by decide), ⟨rfl, rfl, rfl⟩,
    fun _ _ h => absurd h (List.not_mem_nil), busyBefore_of (by decide +kernel), done_of (by decide +kernel)⟩

/-- The command `m` just accepted over `n` bytes at `a`, on the port whose UNALIGNED_OK is `u`. -/
def runOn (u : Bool) (m : Mode) (a n : Nat) : State := onPort u ref.readable (startedAt m a n)

/-- The premises the statements of a run's length share, with the values of their variables. -/
abbrev RunPremises (u : Bool) (m : Mode) (a n : Nat) (s : State) : Prop :=
  Consistent s ∧ s.agenda = [] ∧ Started m s ∧ ReadableBuffer s ∧ n = s.len.toNat ∧ a = s.addr.toNat ∧
  s.cfg.unalignedOk = u

theorem runPremises_runOn (u : Bool) (m : Mode) (a n : Nat) (ha : a < 2 ^ 32) (hn : n < 2 ^ 31) (hr : a + n ≤ 2 ^ 32) :
    RunPremises u m a n (runOn u m a n) := by
  have hl : (BitVec.ofNat 32 n).toNat = n := by rw [BitVec.toNat_ofNat]; omega
  have had : (BitVec.ofNat 32 a).toNat = a := by rw [BitVec.toNat_ofNat]; omega
  have hb : ReadableBuffer (startedAt m a n) :=
    readableBuffer_ref rfl (show (BitVec.ofNat 32 a).toNat + (BitVec.ofNat 32 n).toNat ≤ 2 ^ 32 by omega)
  exact ⟨consistent_startedAt m a n ha hn hr, rfl, ⟨rfl, rfl, rfl⟩, hb, hl.symm, had.symm, rfl⟩

/-- Each way a SIMPLE run meets no BusError, and each ALIGNED run without recombination. -/
theorem witness_SimpleRunLength :
    RunPremises true .simple 0x1001 5 (runOn true .simple 0x1001 5) ∧
    (RunPremises false .simple 0x1000 5 (runOn false .simple 0x1000 5) ∧ 0x1000 % 4 = 0) ∧
    RunPremises false .simple 0x1003 3 (runOn false .simple 0x1003 3) ∧
    (RunPremises false .aligned 0x1000 5 (runOn false .aligned 0x1000 5) ∧ 0x1000 % 4 = 0) ∧
    RunPremises false .aligned 0x1001 3 (runOn false .aligned 0x1001 3) := by
  refine ⟨?_, ⟨?_, rfl⟩, ?_, ⟨?_, rfl⟩, ?_⟩ <;> exact runPremises_runOn _ _ _ _ (by decide) (by decide) (by decide)

/-- An ALIGNED run with `u = a` at the shortest length, and one with `u > a`, where a TSTEP follows the APACK. -/
theorem witness_AlignedRunLength :
    (RunPremises true .aligned 0x1001 4 (runOn true .aligned 0x1001 4) ∧
      1 = 0x1001 % 4 ∧ 0 = (4 - (4 - 1)) / 4 ∧ 1 = (4 - (4 - 1)) % 4) ∧
    (RunPremises false .aligned 0x1001 9 (runOn false .aligned 0x1001 9) ∧
      1 = 0x1001 % 4 ∧ 1 = (9 - (4 - 1)) / 4 ∧ 2 = (9 - (4 - 1)) % 4 ∧ 2 > 1) := by
  refine ⟨⟨?_, by decide⟩, ⟨?_, by decide⟩⟩ <;> exact runPremises_runOn _ _ _ _ (by decide) (by decide) (by decide)

/-- A WIDE run on a port that serves every word read, at the ends of R288's rows. -/
theorem witness_WideRunLength :
    RunPremises true .wide 0x1001 0 (runOn true .wide 0x1001 0) ∧
    RunPremises true .wide 0x1001 1 (runOn true .wide 0x1001 1) ∧
    RunPremises true .wide 0x1001 16 (runOn true .wide 0x1001 16) ∧
    RunPremises true .wide 0x1001 17 (runOn true .wide 0x1001 17) ∧
    (RunPremises true .wide 0x1001 47 (runOn true .wide 0x1001 47) ∧
      15 = 47 % 32 ∧ 7 = (if 15 ≥ 8 then 15 % 8 else 15)) := by
  refine ⟨?_, ?_, ?_, ?_, ⟨?_, by decide⟩⟩ <;> exact runPremises_runOn _ _ _ _ (by decide) (by decide) (by decide)

/-- The WIDE runs of R189, on a port with UNALIGNED_OK false: no word read, SMALL with every word aligned, and the
general path. -/
theorem witness_WideRunLength_aligned_port :
    RunPremises false .wide 0x1001 3 (runOn false .wide 0x1001 3) ∧
    (RunPremises false .wide 0x1000 4 (runOn false .wide 0x1000 4) ∧
      RunPremises false .wide 0x1000 16 (runOn false .wide 0x1000 16) ∧
      RunPremises false .wide 0x1000 17 (runOn false .wide 0x1000 17) ∧ 0x1000 % 4 = 0 ∧ 4 % 4 = 0 ∧ 16 % 4 = 0) := by
  refine ⟨?_, ⟨?_, ?_, ?_, by decide⟩⟩ <;> exact runPremises_runOn _ _ _ _ (by decide) (by decide) (by decide)

theorem witness_EmptyBufferReadsNothing :
    (startedAt .wide 0xFFFFFFFF 0).agenda = [] ∧ (startedAt .wide 0xFFFFFFFF 0).len = 0#32 ∧
    (startedAt .wide 0xFFFFFFFF 0).busy = true ∧ (startedAt .wide 0xFFFFFFFF 0).seq = .init ∧
    (startedAt .simple 0xFFFFFFFF 0).modeq ≠ .wide := by decide +kernel

end Sys2Proof.Tests
end

section
/-! PROOFS. The statements of the scope family (spec/00_scope.md R11): what a step does with a transaction of the HOST
(spec/44_host_interface.md R210, R211, R219, R220), and what an idle MIXER does with its turn
(spec/45_sequencer.md R240). -/

namespace Sys2Proof.Proofs.Scope

open Sys2Proof Sys2Proof.Machine

/-! ### What is fetched -/

theorem fetch_of_txn {s : State} {w : BitVec 38} {es : List Event} (h : s.agenda = .txn w :: es) :
    fetch s = hostTurn w { s with agenda := es } := by
  simp [fetch, h]

theorem fetch_of_mixer {s : State} {es : List Event} (h : s.agenda = .mixer :: es) :
    fetch s = mixerTurn { s with agenda := es } := by
  simp [fetch, h]

theorem fetch_of_nil {s : State} (h : s.agenda = []) : fetch s = mixerTurn s := by
  simp [fetch, h]

theorem hostTurn_of_instr {w : BitVec 38} {i : Instr} (h : decodeTxn w = .instr i) (s : State) :
    hostTurn w s = .run i s := by
  simp [hostTurn, h]

theorem mixerTurn_of_idle {s : State} (h : s.busy = false) : mixerTurn s = .settled s := by
  simp [mixerTurn, h]

/-! ### Reads and writes are told apart by `we` -/

theorem decodeCommand_ne_rd (v : Word) (off : BitVec 5) : decodeCommand v ≠ .instr (.rd off) := by
  unfold decodeCommand
  repeat' split
  all_goals simp

/-- A write never decodes to RD (R90). -/
theorem decodeTxn_ne_rd_of_write {w : BitVec 38} (hw : txnWe w = true) (off : BitVec 5) :
    decodeTxn w ≠ .instr (.rd off) := by
  simp only [decodeTxn, hw, Bool.true_eq_false, if_false]
  repeat' split
  all_goals simp [decodeCommand_ne_rd]

/-- A HOST instruction other than RD changes nothing while a command runs (R219, R220). -/
theorem exec_host_busy {i : Instr} {s t : State} (hi : isHost i = true) (hrd : ∀ off, i ≠ .rd off)
    (hb : s.busy = true) (h : exec i s = .next t) : t = s := by
  rcases exec_host_cases hi h with ⟨off, rfl, -⟩ | rfl | ⟨hidle, -⟩
  · exact absurd rfl (hrd off)
  · rfl
  · simp [hb] at hidle

/-- A read, if it is a transaction at all, gives the register's value to the HOST and does nothing else (R210). -/
theorem hostTurn_read {w : BitVec 38} {u t : State} (hw : txnWe w = false)
    (h : outcome (hostTurn w u) = .next t) : t = giveToHost (regRead u (txnOff w)) u := by
  cases hl : legalOffset (txnOff w) with
  | true =>
    rw [hostTurn_of_instr (decodeTxn_read hl hw)] at h
    simpa [outcome, exec, execRd, hl, eq_comm] using h
  | false => simp [hostTurn, decodeTxn_misaligned hl, outcome] at h

/-- A write, an illegal command included, is dropped or ignored while a command runs (R219, R220). -/
theorem hostTurn_write_busy {w : BitVec 38} {u t : State} (hw : txnWe w = true) (hb : u.busy = true)
    (h : outcome (hostTurn w u) = .next t) : t = u := by
  rcases hostTurn_cases w u with ⟨i, hd, e⟩ | ⟨v, -, e⟩ | e <;> rw [e] at h
  · have hrd : ∀ off, i ≠ .rd off := by
      rintro off rfl
      exact decodeTxn_ne_rd_of_write hw off hd
    exact exec_host_busy (decodeTxn_isHost hd).1 hrd hb h
  · simpa [outcome, whenIdle, hb, eq_comm] using h
  · cases h

/-! ### The statements -/

/-- Settles O49: a write leaves the state it finds, a read adds one value to what the HOST has been given. -/
theorem hostCannotDisturbARun : Obligations.HostCannotDisturbARun := by
  intro s t w es hb ha h
  rw [step_eq, fetch_of_txn ha] at h
  cases hw : txnWe w with
  | true =>
    obtain rfl := hostTurn_write_busy (u := { s with agenda := es }) hw hb h
    exact ⟨rfl, fun _ => rfl, nofun⟩
  | false =>
    obtain rfl := hostTurn_read hw h
    exact ⟨rfl, nofun, fun _ => ⟨_, rfl⟩⟩

/-- Settles O6: the fetch takes the transaction off the agenda and runs the instruction it decodes to. -/
theorem stepRunsTheTransaction : Obligations.StepRunsTheTransaction := by
  intro s w es i ha hd
  exact step_of_run ((fetch_of_txn ha).trans (hostTurn_of_instr hd _))

/-- Settles O8: with nothing pending and on a MIXER turn alike, the idle MIXER settles without an effect. -/
theorem idleMixerHasNoStep : Obligations.IdleMixerHasNoStep := by
  intro s hb
  refine ⟨fun ha => ?_, fun es ha => ?_⟩
  · exact step_of_settled ((fetch_of_nil ha).trans (mixerTurn_of_idle hb))
  · exact step_of_settled ((fetch_of_mixer ha).trans (mixerTurn_of_idle hb))

end Sys2Proof.Proofs.Scope
end

section
/-! PROOFS. The statements of the state family (spec/10_state.md): the invariant holds after reset and every step keeps
it (R23, R25, R28, R29, R31, R38), reset zeroes every register (R38), and who writes BUSY and DIGEST (R22, R24). -/

namespace Sys2Proof.Proofs.Registers

open Sys2Proof Sys2Proof.Machine

/-! ### Taking an event off the agenda -/

theorem popped_eq {s u : State} (h : Popped s u) : u = { s with agenda := u.agenda } := by
  rcases h with ⟨-, rfl⟩ | ⟨-, -, e⟩
  · rfl
  · exact e

theorem popped_busy {s u : State} (h : Popped s u) : u.busy = s.busy := by rw [popped_eq h]

theorem popped_seq {s u : State} (h : Popped s u) : u.seq = s.seq := by rw [popped_eq h]

theorem popped_digest {s u : State} (h : Popped s u) : u.digest = s.digest := by rw [popped_eq h]

theorem operandsOk_popped {s u : State} (h : Popped s u) (ho : OperandsOk u) : OperandsOk s := by
  rwa [popped_eq h] at ho

/-- The invariant speaks of registers only, so the pending events do not matter to it. -/
theorem consistent_popped {s u : State} (h : Popped s u) (hc : Consistent s) : Consistent u := by
  rw [popped_eq h]
  exact hc

theorem fetch_of_reset {s : State} {es : List Event} (h : s.agenda = .reset :: es) :
    fetch s = .settled (resetRegisters { s with agenda := es }) := by
  simp [fetch, h]

/-! ### What the invariant says of the status (R23) and the sequencer -/

theorem seq_idle_of_not_busy {s : State} (h : Consistent s) (hb : s.busy = false) : s.seq = .idle := by
  obtain ⟨⟨-, -, -, hseq, -⟩, -⟩ := h
  exact hseq.2 hb

theorem sequencerOk_of_consistent {s : State} (h : Consistent s) : SequencerOk s := by
  obtain ⟨-, -, -, hseq⟩ := h
  exact hseq

/-- The display is clear while a command runs. -/
theorem display_of_busy {s : State} (h : Consistent s) (hb : s.busy = true) :
    s.done = false ∧ s.fault = false ∧ s.fcode = .none ∧ s.faddr = 0#32 := by
  obtain ⟨⟨hbusy, -, hcode, -, haddr⟩, -⟩ := h
  obtain ⟨hd, hf⟩ := hbusy hb
  have hc : s.fcode = .none := by simpa [hf] using hcode
  exact ⟨hd, hf, hc, haddr (by simp [hc])⟩

/-! ### Each operation on the state leads to a state that meets the invariant -/

theorem consistent_reset : Consistent State.reset :=
  consistent_of_idle rfl nofun (by simp [State.reset]) rfl fun _ => rfl

theorem consistent_resetRegisters (s : State) : Consistent (resetRegisters s) := consistent_reset

/-- Fault entry (R256) with FADDR as R25 wants it. -/
theorem consistent_enterFault {c : FaultCode} {a : Word} (s : State) (hc : c ≠ .none)
    (ha : c ≠ .buserr → a = 0#32) : Consistent (enterFault c a s) :=
  consistent_of_idle rfl nofun (by simp [hc]) rfl ha

theorem consistent_clearStatus {s : State} (h : Consistent s) (hb : s.busy = false) :
    Consistent (clearStatus s) :=
  have hq : s.seq = .idle := seq_idle_of_not_busy h hb
  consistent_of_idle hb nofun (by simp) hq fun _ => rfl

/-- The operands are free while the block is idle (R212). -/
theorem consistent_operands {s : State} (h : Consistent s) (hb : s.busy = false) (a l : Word) :
    Consistent { s with addr := a, len := l } := by
  have hq := seq_idle_of_not_busy h hb
  obtain ⟨hstatus, -⟩ := h
  exact ⟨hstatus, by simp [hb], by simp [hb], sequencerOk_of_idle hq⟩

/-- START from any state ends refused with a fault, or accepted over operands that passed its checks (R214). -/
theorem consistent_startCommand (m : Mode) (s : State) : Consistent (startCommand m s) := by
  rcases startCommand_cases m s with ⟨e, -⟩ | ⟨e, -⟩ | ⟨e, ho⟩ <;> rw [e]
  · exact consistent_enterFault _ nofun fun _ => rfl
  · exact consistent_enterFault _ nofun fun _ => rfl
  · exact ⟨⟨fun _ => ⟨rfl, rfl⟩, nofun, by simp, by simp, fun _ => rfl⟩, fun _ => ho, fun _ hi => absurd rfl hi,
      sequencerOk_of_init rfl⟩

theorem consistent_finish {s : State} (d : Word) (h : Consistent s) (hb : s.busy = true) :
    Consistent (finish d s) := by
  obtain ⟨-, hf, hc, ha⟩ := display_of_busy h hb
  exact consistent_of_idle rfl (fun _ => hf) (by simp [hf, hc]) rfl fun _ => ha

/-- A row of R241 whose reads are served: the two last micro-operations end the run, every other keeps it running. -/
theorem consistent_rowResult {s : State} (h : Consistent s) (hb : s.busy = true) (hq : s.seq ≠ .idle) :
    Consistent (rowResult s) := by
  by_cases hfin : s.seq = .fin
  · have e : rowResult s = finish (finalH s.cfg s.h) { s with h := finalH s.cfg s.h } := by simp [rowResult, hfin]
    rw [e]
    exact consistent_finish _ h hb
  by_cases hwfin : s.seq = .wfins
  · have e : rowResult s = finish (laneDigest s.lanes.l0) s := by simp [rowResult, hwfin]
    rw [e]
    exact consistent_finish _ h hb
  obtain ⟨hd, hf, hc, ha⟩ := display_of_busy h hb
  obtain ⟨hcur, hseq, hnidle, -⟩ := rowResult_sequencing h hb hq hfin hwfin
  obtain ⟨eb, ed, ef, ec, ea, eaddr, elen, -⟩ := rowResult_frame s hfin hwfin
  obtain ⟨-, ho, -⟩ := h
  refine consistent_of_running (eb.trans hb) (ed.trans hd) (ef.trans hf) (ec.trans hc) (ea.trans ha) hnidle ?_
    hcur hseq
  rw [OperandsOk, eaddr, elen]
  exact ho hb

/-! ### Each kind of step keeps the invariant -/

theorem consistent_mixer {s t : State} {i : Instr} (h : Consistent s) (hb : s.busy = true) (hq : s.seq ≠ .idle)
    (hi : decodeUop (issue s) = .instr i) (he : exec i s = .next t) : Consistent t := by
  have hseq := sequencerOk_of_consistent h
  obtain rfl : rowInstr s = i := Decoded.instr.inj ((decode_issue hseq hq).symm.trans hi)
  rw [exec_row hseq hq] at he
  cases hf : firstFailure s.cfg (reads s (rowInstr s)) with
  | none =>
    simp only [hf] at he
    cases he
    exact consistent_rowResult h hb hq
  | some a =>
    simp only [hf] at he
    cases he
    exact consistent_busFaulted a _ s

theorem consistent_host {s t : State} {i : Instr} (h : Consistent s) (hi : isHost i = true)
    (he : exec i s = .next t) : Consistent t := by
  rcases exec_host_cases hi he with ⟨off, -, -, rfl⟩ | rfl | ⟨hb, hidle⟩
  · exact h
  · exact h
  rcases hidle with ⟨v, -, rfl⟩ | ⟨v, -, rfl⟩ | ⟨v, -, rfl⟩ | ⟨-, rfl⟩ | ⟨m, -, rfl⟩
  · exact consistent_operands h hb v s.len
  · exact consistent_operands h hb s.addr v
  · exact h
  · exact consistent_clearStatus h hb
  · exact consistent_startCommand m s

/-- Settles O43, by the kinds of step: the invariant is the sequencer's on the MIXER's turn, and of an idle or just
started block otherwise. -/
theorem everyStepKeepsTheInvariant : Obligations.EveryStepKeepsTheInvariant := by
  intro s t hs h
  obtain ⟨u, hu, hkind⟩ := step_kinds h
  have hcu := consistent_popped hu hs
  rcases hkind with rfl | ⟨i, -, hb, hq, hi, he⟩ | ⟨i, hi, -, he⟩ | ⟨-, rfl⟩ | ⟨-, rfl⟩ | ⟨a, b, -, rfl⟩
  · exact hcu
  · exact consistent_mixer hcu hb hq hi he
  · exact consistent_host hcu hi he
  · exact consistent_enterFault u nofun fun _ => rfl
  · exact consistent_resetRegisters u
  · exact hcu

/-! ### Who writes DIGEST and BUSY -/

/-- A micro-operation ends the run and may then write DIGEST, or it raises BUSERR, or it leaves both alone. -/
theorem exec_uop_ending {i : Instr} {s t : State} (hi : isHost i = false) (he : exec i s = .next t) :
    ((i = .fin32 ∨ i = .wfin) ∧ t.done = true ∧ t.busy = false) ∨
    (t.fcode = .buserr ∧ t.digest = s.digest) ∨
    (t.busy = s.busy ∧ t.digest = s.digest) := by
  rcases exec_uop_cases hi he with ⟨-, rfl⟩ | ⟨a, -, rfl⟩
  · by_cases hfin : i = .fin32
    · subst hfin
      exact .inl ⟨.inl rfl, rfl, rfl⟩
    by_cases hwfin : i = .wfin
    · subst hwfin
      exact .inl ⟨.inr rfl, rfl, rfl⟩
    obtain ⟨hd, hb, -⟩ := uopResult_status s hfin hwfin
    exact .inr (.inr ⟨hb, hd⟩)
  · exact .inr (.inl ⟨rfl, rfl⟩)

/-- A HOST instruction leaves BUSY alone, or it is a START accepted while idle (R214, R219). -/
theorem exec_host_busy_cases {i : Instr} {s t : State} (hi : isHost i = true) (he : exec i s = .next t) :
    t.busy = s.busy ∨
    (s.busy = false ∧ t.seq = .init ∧ OperandsOk s ∧
      ∃ m, (i, m) ∈ [(Instr.startSimple, Mode.simple), (.startAligned, .aligned), (.startWide, .wide)] ∧
        t.modeq = m) := by
  rcases exec_host_cases hi he with
    ⟨off, -, -, rfl⟩ | rfl | ⟨hb, ⟨v, -, rfl⟩ | ⟨v, -, rfl⟩ | ⟨v, -, rfl⟩ | ⟨-, rfl⟩ | ⟨m, hm, rfl⟩⟩
  · exact .inl rfl
  · exact .inl rfl
  · exact .inl rfl
  · exact .inl rfl
  · exact .inl rfl
  · exact .inl rfl
  · rcases startCommand_cases m s with ⟨e, -⟩ | ⟨e, -⟩ | ⟨e, ho⟩ <;> rw [e]
    · exact .inl hb.symm
    · exact .inl hb.symm
    · exact .inr ⟨hb, rfl, ho, m, hm, rfl⟩

/-- Settles O47: of the kinds of step only the last micro-operation of a run and reset write DIGEST. -/
theorem onlyFinishingWritesDigest : Obligations.OnlyFinishingWritesDigest := by
  intro s t h hne
  obtain ⟨u, hu, hkind⟩ := step_kinds h
  have same : t.digest ≠ u.digest := by rwa [popped_digest hu]
  rcases hkind with rfl | ⟨i, -, hb, -, hi, he⟩ | ⟨i, hi, -, he⟩ | ⟨-, rfl⟩ | ⟨ha, -⟩ | ⟨a, b, -, rfl⟩
  · exact absurd rfl same
  · rcases exec_uop_ending (decodeUop_isHost hi) he with ⟨hlast, hdone, hnb⟩ | ⟨-, hd⟩ | ⟨-, hd⟩
    · obtain ⟨hfin, hwfin⟩ := issue_last hi
      rw [popped_seq hu] at hfin hwfin
      exact .inr ⟨(popped_busy hu).symm.trans hb, hlast.imp hfin hwfin, hdone, hnb⟩
    · exact absurd hd same
    · exact absurd hd same
  · obtain ⟨-, -, -, -, hd⟩ := exec_host_frame hi he
    exact absurd hd same
  · exact absurd rfl same
  · exact .inl (by rw [ha]; rfl)
  · exact absurd rfl same

/-- A step that sets BUSY ran a START over legal operands. -/
theorem busy_set {s t : State} (h : step s = .next t) (hs : s.busy = false) (ht : t.busy = true) :
    t.seq = .init ∧ OperandsOk s ∧
      ∃ u i m, fetch s = .run i u ∧
        (i, m) ∈ [(Instr.startSimple, Mode.simple), (.startAligned, .aligned), (.startWide, .wide)] ∧
        t.modeq = m := by
  obtain ⟨u, hu, hkind⟩ := step_kinds h
  have hub : u.busy = false := (popped_busy hu).trans hs
  have changed : t.busy ≠ u.busy := by simp [ht, hub]
  rcases hkind with rfl | ⟨i, -, hb, -⟩ | ⟨i, hi, hr, he⟩ | ⟨-, rfl⟩ | ⟨-, rfl⟩ | ⟨a, b, -, rfl⟩
  · exact absurd rfl changed
  · simp [hub] at hb
  · rcases exec_host_busy_cases hi he with e | ⟨-, hq, ho, m, hm, hmode⟩
    · exact absurd e changed
    · exact ⟨hq, operandsOk_popped hu ho, u, i, m, hr, hm, hmode⟩
  · cases ht
  · cases ht
  · exact absurd rfl changed

/-- A step that clears BUSY ended the run, raised BUSERR or took a reset. -/
theorem busy_cleared {s t : State} (h : step s = .next t) (hs : s.busy = true) (ht : t.busy = false) :
    t.done = true ∨ t.fcode = .buserr ∨ s.agenda.head? = some .reset := by
  obtain ⟨u, hu, hkind⟩ := step_kinds h
  have hub : u.busy = true := (popped_busy hu).trans hs
  have changed : t.busy ≠ u.busy := by simp [ht, hub]
  rcases hkind with rfl | ⟨i, -, -, -, hi, he⟩ | ⟨i, hi, -, he⟩ | ⟨hb, -⟩ | ⟨ha, -⟩ | ⟨a, b, -, rfl⟩
  · exact absurd rfl changed
  · rcases exec_uop_ending (decodeUop_isHost hi) he with ⟨-, hdone, -⟩ | ⟨hcode, -⟩ | ⟨e, -⟩
    · exact .inl hdone
    · exact .inr (.inl hcode)
    · exact absurd e changed
  · rcases exec_host_busy_cases hi he with e | ⟨hb, -⟩
    · exact absurd e changed
    · simp [hub] at hb
  · simp [hub] at hb
  · exact .inr (.inr (by rw [ha]; rfl))
  · exact absurd rfl changed

/-- Settles O48: who sets BUSY, who clears it, and IDLE with BUSY = 0 by the invariant the step keeps. -/
theorem busyIsSetByStartOnly : Obligations.BusyIsSetByStartOnly := by
  intro s t hc h
  refine ⟨busy_set h, fun hs ht => ⟨?_, busy_cleared h hs ht⟩⟩
  exact seq_idle_of_not_busy (everyStepKeepsTheInvariant s t hc h) ht

/-! ### Reset -/

/-- Settles O41: the reset event takes every register from `State.reset` and the rest from the state it finds. -/
theorem resetZeroesEveryRegister : Obligations.ResetZeroesEveryRegister := by
  intro s es ha
  refine ⟨_, step_of_settled (fetch_of_reset ha), ?_⟩
  simp [State.reset]

/-- A constant the chip ends in a 1 bit is odd (R4, R5). -/
theorem getLsbD_zero_append_one {n : Nat} (x : BitVec n) : (x ++ 1#1).getLsbD 0 = true := by
  simp [BitVec.getLsbD_append]

theorem chip_wf : Config.chip.wf = true := by
  simp [Config.wf, Config.chip, getLsbD_zero_append_one]

/-- Settles O42: `State.reset` is idle with a clear display, and it carries the chip's parameters. -/
theorem resetMeetsTheInvariant : Obligations.ResetMeetsTheInvariant := ⟨consistent_reset, chip_wf⟩

end Sys2Proof.Proofs.Registers
end

section
/-! PROOFS. The statements of the memory family (spec/20_memory.md) about single reads, stores and steps: what MemRead
answers (R62 to R65), who writes memory (R67, R72, R286), and that every read stays in the buffer (R68). -/

namespace Sys2Proof.Proofs.MemoryPort

open Sys2Proof Sys2Proof.Machine

/-! ### The addresses of a request (R61, R62) -/

@[simp] theorem addresses_byte (a : Addr) : ReadReq.addresses ⟨a, .byte⟩ = [a.toNat] := by
  simp [ReadReq.addresses, ReadSize.bytes]

@[simp] theorem addresses_word (a : Addr) :
    ReadReq.addresses ⟨a, .word⟩ = [a.toNat, a.toNat + 1, a.toNat + 2, a.toNat + 3] := by
  simp [ReadReq.addresses, ReadSize.bytes, List.range_succ]

theorem mem_addresses {q : ReadReq} {a : Nat} :
    a ∈ q.addresses ↔ q.addr.toNat ≤ a ∧ a < q.addr.toNat + q.size.bytes := by
  simp only [ReadReq.addresses, List.mem_map, List.mem_range]
  refine ⟨?_, fun h => ⟨a - q.addr.toNat, by omega, by omega⟩⟩
  rintro ⟨i, hi, rfl⟩
  omega

@[simp] theorem refusedForAlignment_byte (cfg : Config) (a : Addr) : refusedForAlignment cfg ⟨a, .byte⟩ = false := by
  simp [refusedForAlignment]

theorem refusedForAlignment_word {cfg : Config} {a : Addr} :
    refusedForAlignment cfg ⟨a, .word⟩ = true ↔ a.toNat % 4 ≠ 0 ∧ cfg.unalignedOk = false := by
  simp [refusedForAlignment]

/-- Settles O17: the two checks of R62 over the addresses of a byte and of a word. -/
theorem memReadChecksThenReads : Obligations.MemReadChecksThenReads := by
  intro s a
  refine ⟨?_, fun _ => ?_⟩
  · simp [memRead]
  · by_cases hr : refusedForAlignment s.cfg ⟨a, .word⟩ = true
    · have hbad := refusedForAlignment_word.1 hr
      rw [memRead, if_pos hr, if_pos hbad]
    · have hgood := mt refusedForAlignment_word.2 hr
      rw [memRead, if_neg hr, if_neg hgood]
      simp

/-! ### A word and its bytes (R63, R64, R65) -/

/-- An answer that is a value is the value asked for, and the port served every request. -/
theorem of_answer_eq_ok {α : Type} {cfg : Config} {qs l : List ReadReq} {v w : α} (h : answer cfg qs v = .ok w l) :
    w = v ∧ qs.all (served cfg) = true := by
  unfold answer at h
  split at h
  next hnone =>
    cases h
    exact ⟨rfl, firstFailure_eq_none.1 hnone⟩
  next => cases h

theorem lt_of_readable {cfg : Config} {a : Nat} (h : readable cfg a = true) : a < 2 ^ 32 := by
  simp only [readable, Bool.and_eq_true, decide_eq_true_eq] at h
  exact h.1

/-- A word that is served does not run past the address space. -/
theorem word_fits_of_served {cfg : Config} {a : Addr} (h : (wordReqs [a]).all (served cfg) = true) :
    a.toNat + 3 < 2 ^ 32 := by
  simp only [wordReqs, served, List.map_cons, List.map_nil, List.all_cons, List.all_nil, addresses_word,
    Bool.and_eq_true] at h
  obtain ⟨⟨-, -, -, -, h3, -⟩, -⟩ := h
  exact lt_of_readable h3

theorem memByte_lt (s : State) (a : Addr) : (memByte s a).toNat < 256 := by
  have := (s.mem.readByte a.toNat).isLt
  simp only [memByte, BitVec.toNat_setWidth]
  omega

/-- The word at `a` is made of the bytes at the four addresses from `a`, unless it runs past the address space. -/
theorem memWord_eq_bytes {a : Addr} (s : State) (h : a.toNat + 3 < 2 ^ 32) :
    memWord s a
      = memByte s a + (memByte s (a + 1#32) <<< 8) + (memByte s (a + 2#32) <<< 16)
        + (memByte s (a + 3#32) <<< 24) := by
  have off : ∀ i ≤ 3, (a + BitVec.ofNat 32 i).toNat = a.toNat + i := by
    intro i hi
    simp only [BitVec.toNat_add, BitVec.toNat_ofNat]
    omega
  simp only [memWord, memByte, bufferWord, off 1 (by omega), off 2 (by omega), off 3 (by omega)]

/-- Settles O18: each read answers the bytes of memory at its own addresses. -/
theorem wordIsItsFourBytes : Obligations.WordIsItsFourBytes := by
  intro s a w b0 b1 b2 b3 l l0 l1 l2 l3 hw h0 h1 h2 h3
  rw [rd32_eq] at hw
  rw [rd8_eq] at h0 h1 h2 h3
  obtain ⟨rfl, hserved⟩ := of_answer_eq_ok hw
  obtain ⟨rfl, -⟩ := of_answer_eq_ok h0
  obtain ⟨rfl, -⟩ := of_answer_eq_ok h1
  obtain ⟨rfl, -⟩ := of_answer_eq_ok h2
  obtain ⟨rfl, -⟩ := of_answer_eq_ok h3
  exact ⟨memWord_eq_bytes s (word_fits_of_served hserved), memByte_lt .., memByte_lt .., memByte_lt ..,
    memByte_lt ..⟩

/-! ### Who writes memory (R67, R72) -/

/-- No instruction writes memory, the parameters or the pending events (R35, R67). -/
theorem exec_environment {i : Instr} {s t : State} (h : exec i s = .next t) :
    t.mem = s.mem ∧ t.cfg = s.cfg ∧ t.agenda = s.agenda := by
  cases hi : isHost i with
  | true =>
    obtain ⟨hm, hc, ha, -⟩ := exec_host_frame hi h
    exact ⟨hm, hc, ha⟩
  | false =>
    rcases exec_uop_cases hi h with ⟨-, rfl⟩ | ⟨a, -, rfl⟩
    · obtain ⟨hm, hc, ha, -⟩ := uopResult_frame i s
      exact ⟨hm, hc, ha⟩
    · exact ⟨rfl, rfl, rfl⟩

/-- Settles O45: the memory being the same, so is every byte of it. -/
theorem instructionsNeverWriteMemory : Obligations.InstructionsNeverWriteMemory := by
  intro i s t h
  obtain ⟨hm, hc, ha⟩ := exec_environment h
  exact ⟨fun a => by rw [hm], hm, hc, ha⟩

theorem fetch_of_store {s : State} {a : Addr} {b : Byte} {es : List Event} (h : s.agenda = .store a b :: es) :
    fetch s = .settled (storeByte a b { s with agenda := es }) := by
  simp [fetch, h]

theorem popped_mem {s u : State} (h : Popped s u) : u.mem = s.mem := by rw [Registers.popped_eq h]

/-- A step leaves memory as it is or makes the store of another agent (R67, R72). -/
theorem step_mem {s t : State} (h : step s = .next t) :
    t.mem = s.mem ∨ ∃ (a : Addr) (b : Byte), t.mem = s.mem.writeByte a.toNat b := by
  obtain ⟨u, hu, hkind⟩ := step_kinds h
  rw [← popped_mem hu]
  rcases hkind with rfl | ⟨i, -, -, -, -, he⟩ | ⟨i, -, -, he⟩ | ⟨-, rfl⟩ | ⟨-, rfl⟩ | ⟨a, b, -, rfl⟩
  · exact .inl rfl
  · exact .inl (exec_environment he).1
  · exact .inl (exec_environment he).1
  · exact .inl rfl
  · exact .inl rfl
  · exact .inr ⟨a, b, rfl⟩

/-- Settles O46. That another agent stores one byte, whole and at once, is the model's (log 17). -/
theorem storesChangeOneByte : Obligations.StoresChangeOneByte := by
  refine ⟨fun s a b es hwf ha => ?_, fun s t hwf h => ?_⟩
  · exact ⟨s.mem.writeByte a.toNat b, step_of_settled (fetch_of_store ha), readByte_writeByte_self hwf _ _,
      fun a' hne => readByte_writeByte_ne _ _ hne⟩
  · rcases step_mem h with e | ⟨a, b, e⟩ <;> rw [e]
    · exact hwf
    · exact writeByte_wf hwf a.isLt

/-! ### Every read lies in the buffer (R68) -/

/-- The request asks only for bytes the cursor has yet to pass: those from `PTR` on, `REM` of them (R28). -/
def AheadOfCursor (s : State) (q : ReadReq) : Prop :=
  ∃ i : Nat, q.addr = s.ptr + BitVec.ofNat 32 i ∧ i + q.size.bytes ≤ s.rem.toNat

/-- The cursor's bytes are the last `REM` of the buffer, so they wrap around nothing. -/
theorem cursor_offset_toNat {s : State} (hc : CursorOk s) (ho : OperandsOk s) {i : Nat} (hi : i < s.rem.toNat) :
    (s.ptr + BitVec.ofNat 32 i).toNat = s.addr.toNat + (s.len.toNat - s.rem.toNat) + i := by
  obtain ⟨hrem, hptr, -⟩ := hc
  obtain ⟨hlen, hfit⟩ := ho
  have hfit : s.addr.toNat + s.len.toNat ≤ 2 ^ 32 := by
    rcases hfit with h0 | h
    · simp only [h0, BitVec.toNat_ofNat] at hrem
      omega
    · exact h
  simp only [hptr, BitVec.toNat_add, BitVec.toNat_sub, BitVec.toNat_ofNat]
  omega

theorem inBuffer_of_ahead {s : State} {q : ReadReq} (hc : CursorOk s) (ho : OperandsOk s) (h : AheadOfCursor s q) :
    ∀ a ∈ q.addresses, InBuffer s a := by
  obtain ⟨i, hq, hi⟩ := h
  intro a ha
  rw [mem_addresses, hq] at ha
  have hpos : 0 < q.size.bytes := by cases q.size <;> decide
  rw [cursor_offset_toNat hc ho (by omega)] at ha
  have hrem : s.rem.toNat ≤ s.len.toNat := hc.1
  exact ⟨by omega, by omega⟩

theorem word_ahead {s : State} (h : 4 ≤ s.rem.toNat) : ∀ q ∈ wordReqs [s.ptr], AheadOfCursor s q := by
  intro q hq
  obtain rfl : q = ⟨s.ptr, .word⟩ := by simpa [wordReqs] using hq
  exact ⟨0, by simp, by simpa [ReadSize.bytes] using h⟩

/-- The tail gather of `n` bytes asks for bytes at offsets below `n` (R131). -/
theorem tail_ahead {s : State} {n : Nat} (h : n ≤ s.rem.toNat) : ∀ q ∈ tailReqs s.ptr n, AheadOfCursor s q := by
  intro q hq
  simp only [tailReqs, byteReqs, List.map_append, List.mem_append, List.mem_map] at hq
  rcases hq with (⟨a, ha, rfl⟩ | ⟨a, ha, rfl⟩) | ⟨a, ha, rfl⟩ <;> split at ha <;> simp only [List.mem_singleton,
    List.not_mem_nil] at ha <;> subst ha
  · exact ⟨2, rfl, by simp only [ReadSize.bytes]; omega⟩
  · exact ⟨1, rfl, by simp only [ReadSize.bytes]; omega⟩
  · exact ⟨0, by simp, by simp only [ReadSize.bytes]; omega⟩

/-- The wide gather asks for bytes at offsets 0, `n / 2` and `n - 1` (R175). -/
theorem gather_ahead {s : State} {n : Nat} (h1 : 1 ≤ n) (h : n ≤ s.rem.toNat) :
    ∀ q ∈ byteReqs [s.ptr, s.ptr + BitVec.ofNat 32 (n / 2), s.ptr + BitVec.ofNat 32 (n - 1)],
      AheadOfCursor s q := by
  intro q hq
  simp only [byteReqs, List.map_cons, List.map_nil, List.mem_cons, List.not_mem_nil, or_false] at hq
  rcases hq with rfl | rfl | rfl
  · exact ⟨0, by simp, by simp only [ReadSize.bytes]; omega⟩
  · exact ⟨n / 2, rfl, by simp only [ReadSize.bytes]; omega⟩
  · exact ⟨n - 1, rfl, by simp only [ReadSize.bytes]; omega⟩

/-- The words of BLK `k` stand at multiples of 4 from `PTR`, below `8 k` (R180). -/
theorem mem_reads_blk {s : State} {k : BitVec 3} {q : ReadReq} :
    q ∈ reads s (.blk k) ↔ ∃ i < 2 * k.toNat, q = ⟨s.ptr + BitVec.ofNat 32 (4 * i), .word⟩ := by
  simp [reads, wordReqs, eq_comm]

theorem block_ahead {s : State} {k : BitVec 3} (h : 8 * k.toNat ≤ s.rem.toNat) :
    ∀ q ∈ reads s (.blk k), AheadOfCursor s q := by
  intro q hq
  obtain ⟨i, hi, rfl⟩ := mem_reads_blk.1 hq
  exact ⟨4 * i, rfl, by simp only [ReadSize.bytes]; omega⟩

theorem sub_eq_ofNat {x : Word} {n : Nat} (h : n ≤ x.toNat) :
    x - BitVec.ofNat 32 n = BitVec.ofNat 32 (x.toNat - n) := by
  apply BitVec.eq_of_toNat_eq
  rw [sub_toNat h, BitVec.toNat_ofNat]
  have := x.isLt
  omega

/-- The words of SMALL lie in the buffer's length, at multiples of 4 from its start or from its end (R179). -/
theorem mem_reads_small {s : State} {q : ReadReq} (h4 : 4 ≤ s.len.toNat)
    (hq : q ∈ reads s (.small (BitVec.ofNat 3 (smallClass s.len)))) :
    ∃ i : Nat, q = ⟨s.addr + BitVec.ofNat 32 i, .word⟩ ∧ i + 4 ≤ s.len.toNat ∧
      (i % 4 = 0 ∨ (s.len.toNat - i) % 4 = 0) := by
  have first : s.addr = s.addr + BitVec.ofNat 32 0 := by simp
  have last4 : s.len - 4#32 = BitVec.ofNat 32 (s.len.toNat - 4) := sub_eq_ofNat h4
  unfold smallClass at hq
  split_ifs at hq with h8 h12
  · simp only [reads, wordReqs, if_true, List.map_cons, List.map_nil, List.mem_cons, List.not_mem_nil,
      or_false] at hq
    rcases hq with rfl | rfl
    · exact ⟨0, by rw [← first], by omega, by omega⟩
    · exact ⟨_, by rw [last4], by omega, by omega⟩
  · have last8 : s.len - 8#32 = BitVec.ofNat 32 (s.len.toNat - 8) := sub_eq_ofNat (by omega)
    simp only [reads, wordReqs, if_true, if_neg (show BitVec.ofNat 3 2 ≠ 1#3 by decide), List.map_cons,
      List.map_nil, List.mem_cons, List.not_mem_nil, or_false] at hq
    rcases hq with rfl | rfl | rfl | rfl
    · exact ⟨0, by rw [← first], by omega, by omega⟩
    · exact ⟨4, rfl, by omega, by omega⟩
    · exact ⟨_, by rw [last8], by omega, by omega⟩
    · exact ⟨_, by rw [last4], by omega, by omega⟩
  · simp only [reads, wordReqs, if_neg (show BitVec.ofNat 3 3 ≠ 1#3 by decide),
      if_neg (show BitVec.ofNat 3 3 ≠ 2#3 by decide), List.map_cons, List.map_nil, List.mem_cons,
      List.not_mem_nil, or_false] at hq
    rcases hq with rfl | rfl | rfl | rfl
    · exact ⟨0, by rw [← first], by omega, by omega⟩
    · exact ⟨4, rfl, by omega, by omega⟩
    · exact ⟨8, rfl, by omega, by omega⟩
    · exact ⟨_, by rw [last4], by omega, by omega⟩

/-- Before any byte is consumed `PTR` stands at ADDR (R28). -/
theorem ptr_eq_addr {s : State} (hc : CursorOk s) (hr : s.rem = s.len) : s.ptr = s.addr := by
  obtain ⟨-, hptr, -⟩ := hc
  simp [hptr, hr]

/-- Every row of R241 reads ahead of the cursor only. -/
theorem row_reads_ahead {s : State} (hc : s.seq ≠ .init → CursorOk s) (hS : SequencerOk s) (hq : s.seq ≠ .idle) :
    ∀ q ∈ reads s (rowInstr s), AheadOfCursor s q := by
  obtain ⟨hwords, haset, hawords, -, htail, -, hwsmall, hwblk, hwcasc, hwword, hwtail, -, -⟩ := hS
  have halign := s.align.isLt
  unfold rowInstr
  cases hs : s.seq <;> simp only
  case idle => exact absurd hs hq
  case init => split <;> exact nofun
  case words => exact word_ahead (hwords hs).2.1
  case aset =>
    obtain ⟨-, -, h4, hr⟩ := haset hs
    exact tail_ahead (by rw [ofNat3_toNat (by omega), hr]; omega)
  case awords => exact word_ahead (hawords hs).2.2
  case apacks => exact tail_ahead (by rw [ofNat3_toNat (by omega)]; exact min_le_left _ _)
  case tail =>
    obtain ⟨-, -, h3⟩ := htail hs
    exact tail_ahead (by rw [ofNat3_toNat (by omega)])
  case fin => exact nofun
  case wsmall =>
    obtain ⟨-, h4, -, hr, -⟩ := hwsmall hs
    intro q hq
    obtain ⟨i, rfl, hi, -⟩ := mem_reads_small h4 hq
    exact ⟨i, by rw [ptr_eq_addr (hc (by simp [hs])) hr], by rw [hr]; exact hi⟩
  case wblk => exact block_ahead (hwblk hs).2.1
  case wcasc =>
    obtain ⟨-, h8, h31, -⟩ := hwcasc hs
    have := cascadeLanes_range s.rem
    exact block_ahead (by rw [ofNat3_toNat (by omega)]; exact (cascadeLanes_bound h8 h31).1)
  case wword => exact word_ahead (hwword hs).2.1
  case wtail =>
    obtain ⟨-, h1, h3, -⟩ := hwtail hs
    have e : (BitVec.ofNat 3 s.rem.toNat).toNat = s.rem.toNat := ofNat3_toNat (by omega)
    exact gather_ahead (by rw [e]; exact h1) (by rw [e])
  case wlen => exact nofun
  case wfins => exact nofun

/-- The requests of the micro-operation the sequencer issues lie in the buffer. -/
theorem row_reads_inBuffer {s : State} (h : Consistent s) (hb : s.busy = true) (hq : s.seq ≠ .idle) :
    ∀ q ∈ reads s (rowInstr s), ∀ a ∈ q.addresses, InBuffer s a := by
  obtain ⟨-, ho, hc, hS⟩ := h
  by_cases hi : s.seq = .init
  · intro q hmem
    have hnil : reads s (rowInstr s) = [] := by
      simp only [rowInstr, hi]
      split <;> rfl
    rw [hnil] at hmem
    cases hmem
  · exact fun q hmem => inBuffer_of_ahead (hc hb hi) (ho hb) (row_reads_ahead (hc hb) hS hq q hmem)

/-- A micro-operation adds to the port's log only requests of its own list (R70, R71, R254). -/
theorem exec_uop_portLog {i : Instr} {s t : State} (hi : isHost i = false) (h : exec i s = .next t) :
    ∃ new, t.portLog = s.portLog ++ new ∧ ∀ q ∈ new, q ∈ reads s i := by
  rcases exec_uop_cases hi h with ⟨-, rfl⟩ | ⟨a, -, rfl⟩
  · obtain ⟨-, -, -, -, -, -, -, -, hlog⟩ := uopResult_frame i s
    exact ⟨_, hlog, fun _ hq => hq⟩
  · exact ⟨_, rfl, fun _ hq => mem_issuedReads hq⟩

theorem popped_portLog {s u : State} (h : Popped s u) : u.portLog = s.portLog := by rw [Registers.popped_eq h]

theorem inBuffer_popped {s u : State} (h : Popped s u) {a : Nat} (ha : InBuffer u a) : InBuffer s a := by
  rwa [Registers.popped_eq h] at ha

/-- Settles O50: of the kinds of step only a micro-operation asks the port, and for its own reads. -/
theorem readsStayInTheBuffer : Obligations.ReadsStayInTheBuffer := by
  intro s t hc h
  obtain ⟨u, hu, hkind⟩ := step_kinds h
  have hcu := Registers.consistent_popped hu hc
  rw [← popped_portLog hu]
  have quiet : t.portLog = u.portLog →
      ∃ new, t.portLog = u.portLog ++ new ∧ ∀ q ∈ new, ∀ a ∈ q.addresses, InBuffer s a :=
    fun e => ⟨[], by simp [e], nofun⟩
  rcases hkind with rfl | ⟨i, -, hb, hq, hi, he⟩ | ⟨i, hi, -, he⟩ | ⟨-, rfl⟩ | ⟨-, rfl⟩ | ⟨a, b, -, rfl⟩
  · exact quiet rfl
  · obtain ⟨new, hlog, hnew⟩ := exec_uop_portLog (decodeUop_isHost hi) he
    have hrow := decode_issue (Registers.sequencerOk_of_consistent hcu) hq
    obtain rfl : rowInstr u = i := Decoded.instr.inj (hrow.symm.trans hi)
    exact ⟨new, hlog, fun q hmem a ha => inBuffer_popped hu (row_reads_inBuffer hcu hb hq q (hnew q hmem) a ha)⟩
  · obtain ⟨-, -, -, hlog, -⟩ := exec_host_frame hi he
    exact quiet hlog
  · exact quiet rfl
  · exact quiet rfl
  · exact quiet rfl

end Sys2Proof.Proofs.MemoryPort
end

section
/-! PROOFS. Noninterference (spec/20_memory.md R76, spec/45_sequencer.md R243, spec/70_reset_and_hazards.md R290): what
runs and what is read is decided by ADDR, LEN, the mode and the sequencing registers, never by the data or the seed. -/

namespace Sys2Proof.Proofs.Noninterference

open Sys2Proof Sys2Proof.Machine

/-- The two states agree on everything that decides what runs and what is read. -/
structure SameControl (s u : State) : Prop where
  addr : u.addr = s.addr
  len : u.len = s.len
  modeq : u.modeq = s.modeq
  busy : u.busy = s.busy
  ptr : u.ptr = s.ptr
  rem : u.rem = s.rem
  align : u.align = s.align
  seq : u.seq = s.seq
  cfg : u.cfg = s.cfg
  agenda : u.agenda = s.agenda

/-- If the first answer, in `s`, is a next state, the second, in `u`, is one with the same control and the same new
requests. -/
def Alike (s u : State) (r r' : Result) : Prop :=
  ∀ t, r = .next t → ∃ v new, r' = .next v ∧ SameControl t v ∧ t.portLog = s.portLog ++ new ∧
    v.portLog = u.portLog ++ new

theorem alike_next {s u t v : State} {new : List ReadReq} (h : SameControl t v)
    (ht : t.portLog = s.portLog ++ new) (hv : v.portLog = u.portLog ++ new) : Alike s u (.next t) (.next v) := by
  intro t' e
  cases e
  exact ⟨v, new, rfl, h, ht, hv⟩

/-- Two answers that ask nothing of the port. -/
theorem alike_quiet {s u t v : State} (h : SameControl t v) (ht : t.portLog = s.portLog)
    (hv : v.portLog = u.portLog) : Alike s u (.next t) (.next v) :=
  alike_next (new := []) h (by simp [ht]) (by simp [hv])

theorem alike_fault {s u : State} (f : Fault) (r : Result) : Alike s u (.fault f) r := by
  intro t e
  cases e

theorem alike_refused {s u : State} (f : Refusal) (r : Result) : Alike s u (.refused f) r := by
  intro t e
  cases e

section
variable {s u : State} (h : SameControl s u)
include h

theorem sameControl_pop (es : List Event) : SameControl { s with agenda := es } { u with agenda := es } :=
  ⟨h.addr, h.len, h.modeq, h.busy, h.ptr, h.rem, h.align, h.seq, h.cfg, rfl⟩

/-! ### The HOST, reset and other agents -/

theorem sameControl_enterFault (c : FaultCode) (a : Word) :
    SameControl (enterFault c a s) (enterFault c a u) :=
  ⟨h.addr, h.len, h.modeq, rfl, h.ptr, h.rem, h.align, rfl, h.cfg, h.agenda⟩

theorem sameControl_clearStatus : SameControl (clearStatus s) (clearStatus u) :=
  ⟨h.addr, h.len, h.modeq, h.busy, h.ptr, h.rem, h.align, h.seq, h.cfg, h.agenda⟩

omit h in
theorem startCommand_eq (m : Mode) (s : State) : startCommand m s =
    if s.len.getLsbD 31 = true then enterFault .badlen 0 (clearStatus s)
    else if s.len ≠ 0#32 ∧ s.addr.toNat + s.len.toNat > 2 ^ 32 then enterFault .range 0 (clearStatus s)
    else { clearStatus s with modeq := m, busy := true, seq := .init } := rfl

/-- START decides by LEN and ADDR alone (R214). -/
theorem sameControl_startCommand (m : Mode) : SameControl (startCommand m s) (startCommand m u) := by
  have hclear := sameControl_clearStatus h
  rw [startCommand_eq, startCommand_eq, h.len, h.addr]
  by_cases hbad : s.len.getLsbD 31 = true
  · rw [if_pos hbad, if_pos hbad]
    exact sameControl_enterFault hclear _ _
  rw [if_neg hbad, if_neg hbad]
  by_cases hrange : s.len ≠ 0#32 ∧ s.addr.toNat + s.len.toNat > 2 ^ 32
  · rw [if_pos hrange, if_pos hrange]
    exact sameControl_enterFault hclear _ _
  · rw [if_neg hrange, if_neg hrange]
    exact ⟨h.addr, h.len, rfl, rfl, h.ptr, h.rem, h.align, rfl, h.cfg, h.agenda⟩

theorem sameControl_resetRegisters : SameControl (resetRegisters s) (resetRegisters u) :=
  ⟨rfl, rfl, rfl, rfl, rfl, rfl, rfl, rfl, h.cfg, h.agenda⟩

theorem sameControl_storeByte (a : Addr) (b : Byte) : SameControl (storeByte a b s) (storeByte a b u) :=
  ⟨h.addr, h.len, h.modeq, h.busy, h.ptr, h.rem, h.align, h.seq, h.cfg, h.agenda⟩

/-- A write the HOST may make while idle is dropped in both states or made in both (R219). -/
theorem alike_whenIdle {f : State → State} (hf : SameControl (f s) (f u)) (hs : (f s).portLog = s.portLog)
    (hu : (f u).portLog = u.portLog) : Alike s u (.next (whenIdle f s)) (.next (whenIdle f u)) := by
  cases hb : s.busy with
  | true => simpa [whenIdle, hb, h.busy] using alike_quiet h rfl rfl
  | false => simpa [whenIdle, hb, h.busy] using alike_quiet hf hs hu

omit h in
theorem startCommand_portLog (m : Mode) (s : State) : (startCommand m s).portLog = s.portLog := by
  rcases startCommand_cases m s with ⟨e, -⟩ | ⟨e, -⟩ | ⟨e, -⟩ <;> rw [e] <;> rfl

theorem alike_host {i : Instr} (hi : isHost i = true) : Alike s u (exec i s) (exec i u) := by
  cases i <;> simp only [isHost, Bool.false_eq_true] at hi
  case rd off =>
    cases hl : legalOffset off with
    | true =>
      simp only [exec, execRd, hl, if_true]
      exact alike_quiet ⟨h.addr, h.len, h.modeq, h.busy, h.ptr, h.rem, h.align, h.seq, h.cfg, h.agenda⟩ rfl rfl
    | false =>
      simp only [exec, execRd, hl, Bool.false_eq_true, if_false]
      exact alike_refused _ _
  case wrAddr v =>
    exact alike_whenIdle h ⟨rfl, h.len, h.modeq, h.busy, h.ptr, h.rem, h.align, h.seq, h.cfg, h.agenda⟩ rfl rfl
  case wrLen v =>
    exact alike_whenIdle h ⟨h.addr, rfl, h.modeq, h.busy, h.ptr, h.rem, h.align, h.seq, h.cfg, h.agenda⟩ rfl rfl
  case wrSeed v =>
    exact alike_whenIdle h ⟨h.addr, h.len, h.modeq, h.busy, h.ptr, h.rem, h.align, h.seq, h.cfg, h.agenda⟩ rfl rfl
  case wrStatus => exact alike_quiet h rfl rfl
  case wrDigest => exact alike_quiet h rfl rfl
  case wrFaddr => exact alike_quiet h rfl rfl
  case wrRsvd1c => exact alike_quiet h rfl rfl
  case nop => exact alike_whenIdle h h rfl rfl
  case startSimple =>
    exact alike_whenIdle h (sameControl_startCommand h _) (startCommand_portLog _ _) (startCommand_portLog _ _)
  case startAligned =>
    exact alike_whenIdle h (sameControl_startCommand h _) (startCommand_portLog _ _) (startCommand_portLog _ _)
  case startWide =>
    exact alike_whenIdle h (sameControl_startCommand h _) (startCommand_portLog _ _) (startCommand_portLog _ _)
  case clr => exact alike_whenIdle h (sameControl_clearStatus h) rfl rfl

theorem alike_hostTurn (w : BitVec 38) : Alike s u (outcome (hostTurn w s)) (outcome (hostTurn w u)) := by
  unfold hostTurn
  cases hd : decodeTxn w with
  | instr i => exact alike_host h (decodeTxn_isHost hd).1
  | badCommand v => exact alike_whenIdle h (sameControl_enterFault h _ _) rfl rfl
  | notATransaction w => exact alike_refused _ _
  | reservedUop b => exact alike_refused _ _

theorem alike_accessTurn (we : Bool) (a n : Nat) (v : Word) :
    Alike s u (outcome (accessTurn we a n v s)) (outcome (accessTurn we a n v u)) := by
  unfold accessTurn
  rw [h.cfg]
  cases windowOffset s.cfg a n with
  | some off => exact alike_hostTurn h _
  | none => exact alike_refused _ _

/-! ### The MIXER -/

theorem issue_eq : issue u = issue s := by
  simp only [issue, h.seq, h.modeq, h.align, h.rem, h.len]

/-- The requests of an instruction are made from PTR, ADDR and LEN (R70). -/
theorem reads_eq (i : Instr) : reads u i = reads s i := by
  cases i <;> simp only [reads, h.ptr, h.addr, h.len]

theorem sameControl_busFaulted (a : Addr) (log : List ReadReq) :
    SameControl (busFaulted a log s) (busFaulted a log u) :=
  ⟨h.addr, h.len, h.modeq, rfl, h.ptr, h.rem, h.align, rfl, h.cfg, h.agenda⟩

theorem afterInit32_eq : afterInit32 u = afterInit32 s := by
  simp only [afterInit32, h.modeq, h.addr, h.len]

/-- The sequencing registers a micro-operation leaves come from the control it found (R241). -/
theorem sameControl_uopResult (i : Instr) : SameControl (uopResult i s) (uopResult i u) := by
  obtain ⟨-, hcfg, hagenda, -, haddr, hlen, -, hmodeq, -⟩ := uopResult_frame i s
  obtain ⟨-, hcfg', hagenda', -, haddr', hlen', -, hmodeq', -⟩ := uopResult_frame i u
  refine ⟨by rw [haddr, haddr', h.addr], by rw [hlen, hlen', h.len], by rw [hmodeq, hmodeq', h.modeq], ?busy, ?ptr,
    ?rem, ?align, ?seq, by rw [hcfg, hcfg', h.cfg], by rw [hagenda, hagenda', h.agenda]⟩
  case busy => cases i <;> simp [uopResult, h.busy]
  case ptr => cases i <;> simp [uopResult, h.ptr, h.addr, h.len]
  case rem => cases i <;> simp [uopResult, h.rem, h.len]
  case align => cases i <;> simp [uopResult, h.align, h.addr]
  case seq => cases i <;> simp [uopResult, h.seq, h.rem, h.len, afterInit32_eq h]

omit h

/-- A micro-operation that is not refused has a legal operand (R98). -/
theorem wellFormed_of_exec_uop {i : Instr} {t : State} (hi : isHost i = false) (he : exec i s = .next t) :
    i.wellFormed = true := by
  cases i <;> simp only [isHost, Bool.true_eq_false] at hi <;> try rfl
  all_goals
    by_contra hw
    simp only [Instr.wellFormed] at hw
    simp [exec, execTstep, execAsetup, execApack, execGstep, execSmall, execBlk, hw] at he

/-- With a legal operand a micro-operation always answers a next state: whether by its writes or by BUSERR, the port
decides (R254). -/
theorem exec_uop_next {i : Instr} (hi : isHost i = false) (hw : i.wellFormed = true) (s : State) :
    ∃ t, exec i s = .next t := by
  cases i <;> simp only [isHost, Bool.true_eq_false] at hi
  case tstep n => exact ⟨_, exec_tstep s hw⟩
  case asetup a => exact ⟨_, exec_asetup s hw⟩
  case apack p => exact ⟨_, exec_apack s hw⟩
  case gstep n => exact ⟨_, exec_gstep s hw⟩
  case small c => exact ⟨_, exec_small s hw⟩
  case blk k => exact ⟨_, exec_blk s hw⟩
  all_goals exact ⟨_, rfl⟩

include h

/-- A micro-operation makes the same requests of the same port in both states, so it completes in both or faults in
both at the same read. -/
theorem alike_uop {i : Instr} (hi : isHost i = false) : Alike s u (exec i s) (exec i u) := by
  intro t he
  obtain ⟨v, hv⟩ := exec_uop_next hi (wellFormed_of_exec_uop hi he) u
  have hreads := reads_eq h i
  rcases exec_uop_cases hi he with ⟨hserved, rfl⟩ | ⟨a, hfail, rfl⟩ <;>
    rcases exec_uop_cases hi hv with ⟨hserved', rfl⟩ | ⟨a', hfail', rfl⟩ <;>
    rw [hv]
  · obtain ⟨-, -, -, -, -, -, -, -, hlog⟩ := uopResult_frame i s
    obtain ⟨-, -, -, -, -, -, -, -, hlog'⟩ := uopResult_frame i u
    exact ⟨_, reads s i, rfl, sameControl_uopResult h i, hlog, by rw [hlog', hreads]⟩
  · rw [hreads, h.cfg, firstFailure_eq_none.2 hserved] at hfail'
    cases hfail'
  · rw [hreads, h.cfg] at hserved'
    rw [firstFailure_eq_none.2 hserved'] at hfail
    cases hfail
  · rw [hreads, h.cfg, hfail] at hfail'
    cases hfail'
    rw [hreads, h.cfg]
    exact ⟨_, _, rfl, sameControl_busFaulted h _ _, rfl, rfl⟩

theorem alike_mixerTurn : Alike s u (outcome (mixerTurn s)) (outcome (mixerTurn u)) := by
  unfold mixerTurn
  rw [h.busy, h.seq, issue_eq h]
  split_ifs
  · exact alike_quiet h rfl rfl
  · exact alike_fault _ _
  · cases hd : decodeUop (issue s) with
    | instr i => exact alike_uop h (decodeUop_isHost hd)
    | badCommand v => exact alike_refused _ _
    | notATransaction w => exact alike_refused _ _
    | reservedUop b => exact alike_refused _ _

/-- Steps of states with the same control answer alike, by the event that is next. -/
theorem alike_step : Alike s u (step s) (step u) := by
  rw [step_eq, step_eq]
  unfold fetch
  rw [h.agenda]
  cases s.agenda with
  | nil => exact alike_mixerTurn h
  | cons e es =>
    have hpop := sameControl_pop h es
    cases e with
    | txn w => exact alike_hostTurn hpop w
    | access we a n v => exact alike_accessTurn hpop we a n v
    | mixer => exact alike_mixerTurn hpop
    | reset => exact alike_quiet (sameControl_resetRegisters hpop) rfl rfl
    | store a b => exact alike_quiet (sameControl_storeByte hpop a b) rfl rfl

end

/-- Settles O52: the statement's ten equations are the control, and every step keeps the control equal. -/
theorem traceIgnoresDataAndSeed : Obligations.TraceIgnoresDataAndSeed := by
  intro s u t haddr hlen hmodeq hbusy hptr hrem halign hseq hcfg hagenda h
  obtain ⟨v, new, hstep, hc, ht, hv⟩ :=
    alike_step ⟨haddr, hlen, hmodeq, hbusy, hptr, hrem, halign, hseq, hcfg, hagenda⟩ t h
  exact ⟨v, new, hstep, hc.addr, hc.len, hc.modeq, hc.busy, hc.ptr, hc.rem, hc.align, hc.seq, hc.cfg,
    hc.agenda, ht, hv⟩

end Sys2Proof.Proofs.Noninterference
end

section
/-! PROOFS. Runs of the MIXER with no event pending (log 5): the command over an empty buffer (spec/20_memory.md R69,
spec/41_simple_mixer.md R129, spec/43_wide_mixer.md R187) and the length of a WIDE run (R66, R184, R189, R288). -/

namespace Sys2Proof.Proofs.QuietRun

open Sys2Proof Sys2Proof.Machine

/-! ### A run, a step at a time -/

theorem run_succ {s t : State} (h : step s = .next t) (k : Nat) :
    Host.Core.run core (k + 1) s = Host.Core.run core k t := by
  have hcore : core.step s = .next t := h
  simp only [Host.Core.run, hcore]

theorem run_one {s t : State} (h : step s = .next t) : Host.Core.run core 1 s = .next t := run_succ h 0

theorem busyBefore_one {s : State} (hb : s.busy = true) : BusyBefore 1 s := by
  intro j hj
  obtain rfl : j = 0 := by omega
  exact ⟨s, rfl, hb⟩

theorem busyBefore_succ {s t : State} {k : Nat} (hb : s.busy = true) (h : step s = .next t) (ht : BusyBefore k t) :
    BusyBefore (k + 1) s := by
  intro j hj
  cases j with
  | zero => exact ⟨s, rfl, hb⟩
  | succ j => rw [run_succ h]; exact ht j (by omega)

/-- With no event pending a busy machine runs its row of R241 (log 5); if the port serves the row's reads, to the
row's result. -/
theorem step_row {s : State} (ha : s.agenda = []) (h : SequencerOk s) (hb : s.busy = true) (hq : s.seq ≠ .idle)
    (hserved : (reads s (rowInstr s)).all (served s.cfg) = true) : step s = .next (rowResult s) := by
  have hfetch : fetch s = .run (rowInstr s) s := (Scope.fetch_of_nil ha).trans (mixerTurn_run h hb hq)
  rw [step_of_run hfetch, exec_row h hq, firstFailure_eq_none.2 hserved]

/-! ### What each row of the wide path leaves (R241) -/

section
variable {s : State}

theorem rowResult_init32 (hs : s.seq = .init) (hm : s.modeq ≠ .wide) : rowResult s = { s with
    h := initialH s.cfg s.seed s.len, ptr := s.addr, rem := s.len, align := s.addr.extractLsb' 0 2
    seq := afterInit32 s } := by
  simp [rowResult, hs, hm]

theorem rowResult_winit (hs : s.seq = .init) (hm : s.modeq = .wide) : rowResult s = { s with
    lanes := { s.lanes with l0 := seedLane s.seed }, olen := s.len, ptr := s.addr, rem := s.len
    align := s.addr.extractLsb' 0 2, seq := afterWinit s.len } := by
  simp [rowResult, hs, hm]

theorem rowResult_fin (hs : s.seq = .fin) :
    rowResult s = finish (finalH s.cfg s.h) { s with h := finalH s.cfg s.h } := by
  simp [rowResult, hs]

theorem rowResult_wsmall (hs : s.seq = .wsmall) : rowResult s
    = writeSmall (smallValue s (BitVec.ofNat 3 (smallClass s.len))) (logReads (reads s (rowInstr s)) s) := by
  simp only [rowResult, hs]

theorem rowResult_wblk (hs : s.seq = .wblk) : rowResult s
    = writeBlk 4#3 (pairsValue s s.ptr 4) (logReads (reads s (rowInstr s)) s) := by
  simp only [rowResult, hs]

theorem rowResult_wcasc (hs : s.seq = .wcasc) : rowResult s
    = writeBlk (BitVec.ofNat 3 (cascadeLanes s.rem)) (pairsValue s s.ptr (cascadeLanes s.rem))
        (logReads (reads s (rowInstr s)) s) := by
  simp only [rowResult, hs]

theorem rowResult_wword (hs : s.seq = .wword) : rowResult s
    = writeSstep (memWord s s.ptr) (logReads (reads s (rowInstr s)) s) := by
  simp only [rowResult, hs]

theorem rowResult_wtail (hs : s.seq = .wtail) : rowResult s
    = writeGstep (BitVec.ofNat 3 s.rem.toNat) (gatherValue s s.ptr s.rem.toNat)
        (logReads (reads s (rowInstr s)) s) := by
  simp only [rowResult, hs]

theorem rowResult_wlen (hs : s.seq = .wlen) :
    rowResult s = { s with lanes := smixPrimary s.cfg s.cfg.cpair.len s.olen s.lanes, seq := .wfins } := by
  simp [rowResult, hs]

theorem rowResult_wfins (hs : s.seq = .wfins) : rowResult s = finish (laneDigest s.lanes.l0) s := by
  simp [rowResult, hs]

/-- The rows INIT, FIN, WLEN and WFINS read nothing. -/
theorem reads_row_eq_nil (hs : s.seq = .init ∨ s.seq = .fin ∨ s.seq = .wlen ∨ s.seq = .wfins) :
    reads s (rowInstr s) = [] := by
  rcases hs with hs | hs | hs | hs <;> simp only [rowInstr, hs]
  case inl => split <;> rfl
  all_goals rfl

/-- A row that reads nothing needs nothing of the port. -/
theorem step_row_of_no_reads (ha : s.agenda = []) (h : SequencerOk s) (hb : s.busy = true)
    (hs : s.seq = .init ∨ s.seq = .fin ∨ s.seq = .wlen ∨ s.seq = .wfins) : step s = .next (rowResult s) := by
  refine step_row ha h hb ?_ (by rw [reads_row_eq_nil hs]; rfl)
  rcases hs with hs | hs | hs | hs <;> simp [hs]

end

/-! ### The empty buffer -/

theorem initialH_zero (cfg : Config) (seed : Word) : initialH cfg seed 0#32 = seed := by simp [initialH]

/-- The length-keyed mix of the seed pair with length 0 (R187). -/
theorem laneDigest_smix_seedLane (cfg : Config) (pair : ConstPair) (seed : Word) :
    laneDigest (smix cfg pair (seedLane seed) 0#32)
      = ((constant cfg pair.a ^^^ (seed + 1#32).setWidth 64)
          * (constant cfg pair.b ^^^ (seed - 1#32).setWidth 64)).extractLsb' 0 32
        ^^^ ((constant cfg pair.a ^^^ (seed + 1#32).setWidth 64)
          * (constant cfg pair.b ^^^ (seed - 1#32).setWidth 64)).extractLsb' 32 32 := by
  simp [laneDigest, smix, seedLane]

/-- INIT32 and FIN32 (R129). -/
theorem empty_run_narrow {s : State} (ha : s.agenda = []) (hl : s.len = 0#32) (hb : s.busy = true)
    (hs : s.seq = .init) (hm : s.modeq ≠ .wide) :
    ∃ t, Host.Core.run core 2 s = .next t ∧ t.done = true ∧ t.portLog = s.portLog ∧
      t.digest = finalH s.cfg s.seed := by
  have first := step_row_of_no_reads ha (sequencerOk_of_init hs) hb (.inl hs)
  rw [rowResult_init32 hs hm] at first
  have hfin : afterInit32 s = .fin := by simp [afterInit32, nw, hl]
  have second := step_row_of_no_reads (s := { s with
    h := initialH s.cfg s.seed s.len, ptr := s.addr, rem := s.len, align := s.addr.extractLsb' 0 2
    seq := afterInit32 s }) ha (sequencerOk_of_fin hfin ⟨hm, hl⟩) hb (.inr (.inl hfin))
  rw [rowResult_fin hfin] at second
  exact ⟨_, (run_succ first 1).trans (run_one second), rfl, rfl, by simp only [finish_digest, hl, initialH_zero]⟩

/-- WINIT, LSTEP and WFIN (R187). -/
theorem empty_run_wide {s : State} (ha : s.agenda = []) (hl : s.len = 0#32) (hb : s.busy = true)
    (hs : s.seq = .init) (hm : s.modeq = .wide) :
    ∃ t, Host.Core.run core 3 s = .next t ∧ t.done = true ∧ t.portLog = s.portLog ∧
      t.digest = laneDigest (smix s.cfg s.cfg.cpair.len (seedLane s.seed) 0#32) := by
  have first := step_row_of_no_reads ha (sequencerOk_of_init hs) hb (.inl hs)
  rw [rowResult_winit hs hm] at first
  have hwlen : afterWinit s.len = .wlen := by simp [afterWinit, hl]
  have second := step_row_of_no_reads (s := { s with
    lanes := { s.lanes with l0 := seedLane s.seed }, olen := s.len, ptr := s.addr, rem := s.len
    align := s.addr.extractLsb' 0 2, seq := afterWinit s.len }) ha (sequencerOk_of_wlen hwlen ⟨hm, hl, rfl⟩) hb
    (.inr (.inr (.inl hwlen)))
  rw [rowResult_wlen hwlen] at second
  have third := step_row_of_no_reads (s := { s with
    lanes := smixPrimary s.cfg s.cfg.cpair.len s.len { s.lanes with l0 := seedLane s.seed }, olen := s.len
    ptr := s.addr, rem := s.len, align := s.addr.extractLsb' 0 2, seq := .wfins }) ha
    (sequencerOk_of_wfins rfl ⟨hm, hl, rfl⟩) hb (.inr (.inr (.inr rfl)))
  rw [rowResult_wfins rfl] at third
  exact ⟨_, (run_succ first 2).trans ((run_succ second 1).trans (run_one third)), rfl, rfl,
    by simp only [finish_digest, smixPrimary, hl]⟩

/-- Settles O60: the runs of the two paths over no bytes. -/
theorem emptyBufferReadsNothing : Obligations.EmptyBufferReadsNothing := by
  rintro s x y p ha hl hb hs rfl rfl rfl
  refine ⟨empty_run_narrow ha hl hb hs, fun hm => ?_⟩
  obtain ⟨t, hrun, hdone, hlog, hd⟩ := empty_run_wide ha hl hb hs hm
  exact ⟨t, hrun, hdone, hlog, hd.trans (laneDigest_smix_seedLane _ _ _)⟩

/-! ### How many steps a WIDE run has left (R184, R288) -/

/-- The steps from a state with `r` bytes left in the stream of blocks, cascade, word and tail: a step for each block,
one for each band that is not empty, and LSTEP and WFIN. -/
def streamSteps (r : Nat) : Nat :=
  r / 32 + (if r % 32 ≥ 8 then 1 else 0) + (if r % 8 ≥ 4 then 1 else 0) + (if r % 4 ≠ 0 then 1 else 0) + 2

/-- The states of the sequencer in which a WIDE run works through that stream. -/
def isStream : SeqState → Bool
  | .wblk | .wcasc | .wword | .wtail | .wlen => true
  | .idle | .init | .words | .aset | .awords | .apacks | .tail | .fin | .wsmall | .wfins => false

/-- The steps a WIDE run has left. -/
def wideSteps (s : State) : Nat :=
  match s.seq with
  | .init => 1 + (if 4 ≤ s.len.toNat ∧ s.len.toNat ≤ 16 then 3 else streamSteps s.len.toNat)
  | .wsmall => 3
  | .wfins => 1
  | _ => streamSteps s.rem.toNat

theorem wideSteps_of_stream {s : State} (h : isStream s.seq = true) : wideSteps s = streamSteps s.rem.toNat := by
  unfold wideSteps
  cases hs : s.seq <;> simp_all [isStream]

theorem isStream_nt (r : Word) : isStream (nt r) = true := by
  unfold nt
  split_ifs <;> rfl

theorem isStream_afterBlk (k : BitVec 3) (r : Word) : isStream (afterBlk k r) = true := by
  unfold afterBlk nc
  split_ifs
  · rfl
  · rfl
  · exact isStream_nt r
  · exact isStream_nt r

theorem isStream_afterSstep (r : Word) : isStream (afterSstep r) = true := by
  unfold afterSstep
  split_ifs <;> rfl

theorem streamSteps_block {r : Nat} (h : 32 ≤ r) : streamSteps r = streamSteps (r - 32) + 1 := by
  unfold streamSteps
  rw [show (r - 32) % 32 = r % 32 by omega, show (r - 32) % 8 = r % 8 by omega, show (r - 32) % 4 = r % 4 by omega]
  omega

theorem streamSteps_cascade {r c : Nat} (h8 : 8 ≤ r) (h31 : r ≤ 31) (hc : 8 * c ≤ r) (h7 : r - 8 * c ≤ 7) :
    streamSteps r = streamSteps (r - 8 * c) + 1 := by
  unfold streamSteps
  rw [show (r - 8 * c) % 8 = r % 8 by omega, show (r - 8 * c) % 4 = r % 4 by omega, if_pos (show r % 32 ≥ 8 by omega),
    if_neg (show ¬ (r - 8 * c) % 32 ≥ 8 by omega)]
  omega

theorem streamSteps_word {r : Nat} (h4 : 4 ≤ r) (h7 : r ≤ 7) : streamSteps r = streamSteps (r - 4) + 1 := by
  unfold streamSteps
  rw [show (r - 4) % 4 = r % 4 by omega, if_pos (show r % 8 ≥ 4 by omega), if_neg (show ¬ (r - 4) % 8 ≥ 4 by omega),
    if_neg (show ¬ r % 32 ≥ 8 by omega), if_neg (show ¬ (r - 4) % 32 ≥ 8 by omega)]
  omega

theorem streamSteps_tail {r : Nat} (h1 : 1 ≤ r) (h3 : r ≤ 3) : streamSteps r = 3 := by
  unfold streamSteps
  rw [if_neg (show ¬ r % 32 ≥ 8 by omega), if_neg (show ¬ r % 8 ≥ 4 by omega), if_pos (show r % 4 ≠ 0 by omega)]
  omega

/-! ### A WIDE run whose words the port serves (R66, R189) -/

/-- The states of a WIDE run (R241). -/
def isWideState : SeqState → Bool
  | .init | .wsmall | .wblk | .wcasc | .wword | .wtail | .wlen | .wfins => true
  | .idle | .words | .aset | .awords | .apacks | .tail | .fin => false

/-- The states that read words at `PTR`. -/
def readsAtPtr : SeqState → Bool
  | .wblk | .wcasc | .wword => true
  | .idle | .init | .words | .aset | .awords | .apacks | .tail | .fin | .wsmall | .wtail | .wlen | .wfins => false

/-- The port refuses no word of the run for its alignment: it takes any word, or the run reads none, or ADDR, the
length of a small buffer and `PTR` keep every word at a multiple of 4. -/
def WordsAllowed (s : State) : Prop :=
  s.cfg.unalignedOk = true ∨ s.len.toNat < 4 ∨
  (s.addr.toNat % 4 = 0 ∧ (s.len.toNat % 4 = 0 ∨ s.len.toNat ≥ 17) ∧
    (readsAtPtr s.seq = true → s.ptr.toNat % 4 = 0))

/-- A WIDE run that is left to itself over a readable buffer. -/
structure WideRunning (s : State) : Prop where
  consistent : Consistent s
  busy : s.busy = true
  modeq : s.modeq = .wide
  agenda : s.agenda = []
  readable : ReadableBuffer s
  words : WordsAllowed s

theorem add_toNat_mod_four (p : Addr) {i : Nat} (h : i % 4 = 0) :
    (p + BitVec.ofNat 32 i).toNat % 4 = p.toNat % 4 := by
  simp only [BitVec.toNat_add, BitVec.toNat_ofNat]
  omega

section
variable {s : State} (h : WideRunning s)
include h

theorem WideRunning.sequencerOk : SequencerOk s := Registers.sequencerOk_of_consistent h.consistent

theorem WideRunning.seq_ne_idle : s.seq ≠ .idle := by
  obtain ⟨⟨-, -, -, hidle, -⟩, -⟩ := h.consistent
  intro hq
  simpa [h.busy] using hidle.1 hq

theorem WideRunning.cursorOk (hq : s.seq ≠ .init) : CursorOk s := by
  obtain ⟨-, -, hc, -⟩ := h.consistent
  exact hc h.busy hq

theorem WideRunning.state_wide : isWideState s.seq = true := by
  obtain ⟨hwords, haset, hawords, hapacks, htail, hfin, -⟩ := h.sequencerOk
  have hidle := h.seq_ne_idle
  have hm := h.modeq
  cases hs : s.seq <;> simp_all [isWideState]

/-- A word the run reads at `PTR` stands at a multiple of 4 from it; a small buffer's words count from its ends. -/
theorem WideRunning.word_reads {q : ReadReq} (hq : q ∈ reads s (rowInstr s)) (hw : q.size = .word) :
    4 ≤ s.len.toNat ∧ ∃ i : Nat,
      (readsAtPtr s.seq = true ∧ q.addr = s.ptr + BitVec.ofNat 32 i ∧ i % 4 = 0) ∨
      (s.len.toNat ≤ 16 ∧ q.addr = s.addr + BitVec.ofNat 32 i ∧ i ≤ s.len.toNat ∧
        (i % 4 = 0 ∨ (s.len.toNat - i) % 4 = 0)) := by
  obtain ⟨-, -, -, -, -, -, hwsmall, hwblk, hwcasc, hwword, -, -, -⟩ := h.sequencerOk
  have hrem : s.seq ≠ .init → s.rem.toNat ≤ s.len.toNat := fun hi => (h.cursorOk hi).1
  have atPtr : ∀ {k : BitVec 3}, q ∈ reads s (.blk k) → ∃ i : Nat, q.addr = s.ptr + BitVec.ofNat 32 i ∧ i % 4 = 0 := by
    intro k hk
    obtain ⟨i, -, rfl⟩ := MemoryPort.mem_reads_blk.1 hk
    exact ⟨4 * i, rfl, by omega⟩
  have hwide := h.state_wide
  cases hs : s.seq <;> simp only [hs, isWideState, Bool.false_eq_true] at hwide
  case init => simp [reads_row_eq_nil (.inl hs)] at hq
  case wsmall =>
    obtain ⟨-, h4, h16, -⟩ := hwsmall hs
    simp only [rowInstr, hs] at hq
    obtain ⟨i, rfl, hi, hmod⟩ := MemoryPort.mem_reads_small h4 hq
    exact ⟨h4, i, .inr ⟨h16, rfl, by omega, hmod⟩⟩
  case wblk =>
    have := (hwblk hs).2.1
    have := hrem (by simp [hs])
    simp only [rowInstr, hs] at hq
    obtain ⟨i, hqi, hi⟩ := atPtr hq
    exact ⟨by omega, i, .inl ⟨rfl, hqi, hi⟩⟩
  case wcasc =>
    have := (hwcasc hs).2.1
    have := hrem (by simp [hs])
    simp only [rowInstr, hs] at hq
    obtain ⟨i, hqi, hi⟩ := atPtr hq
    exact ⟨by omega, i, .inl ⟨rfl, hqi, hi⟩⟩
  case wword =>
    have := (hwword hs).2.1
    have := hrem (by simp [hs])
    simp only [rowInstr, hs, reads, wordReqs, List.map_cons, List.map_nil, List.mem_singleton] at hq
    exact ⟨by omega, 0, .inl ⟨rfl, by simp [hq], rfl⟩⟩
  case wtail =>
    simp only [rowInstr, hs, reads, byteReqs, List.mem_map] at hq
    obtain ⟨a, -, rfl⟩ := hq
    cases hw
  case wlen => simp [reads_row_eq_nil (.inr (.inr (.inl hs)))] at hq
  case wfins => simp [reads_row_eq_nil (.inr (.inr (.inr hs)))] at hq

theorem WideRunning.not_refused {q : ReadReq} (hq : q ∈ reads s (rowInstr s)) :
    refusedForAlignment s.cfg q = false := by
  obtain ⟨a, size⟩ := q
  cases size with
  | byte => exact MemoryPort.refusedForAlignment_byte _ _
  | word =>
    rw [← Bool.not_eq_true, MemoryPort.refusedForAlignment_word]
    rintro ⟨hmis, hport⟩
    obtain ⟨h4, i, ⟨hs, ha, hi⟩ | ⟨h16, ha, hle, hi⟩⟩ := h.word_reads hq rfl <;> simp only at ha <;>
      rcases h.words with hok | hshort | ⟨haddr, hlen, hptr⟩
    · simp [hport] at hok
    · omega
    · rw [ha, add_toNat_mod_four _ hi] at hmis
      exact hmis (hptr hs)
    · simp [hport] at hok
    · omega
    · rw [ha, add_toNat_mod_four _ (by omega)] at hmis
      exact hmis haddr

/-- The port serves every read of the run: none is misaligned for it, and all stay in the readable buffer. -/
theorem WideRunning.reads_served : (reads s (rowInstr s)).all (served s.cfg) = true := by
  rw [List.all_eq_true]
  intro q hq
  simp only [served, h.not_refused hq, Bool.not_false, Bool.true_and, List.all_eq_true]
  exact fun a ha =>
    h.readable a (MemoryPort.row_reads_inBuffer h.consistent h.busy h.seq_ne_idle q hq a ha)

theorem WideRunning.step_eq : step s = .next (rowResult s) :=
  step_row h.agenda h.sequencerOk h.busy h.seq_ne_idle h.reads_served

end

/-! ### Each step takes one off what is left -/

theorem wideSteps_of_afterWinit {t : State} (hq : t.seq = afterWinit t.len) (hr : t.rem = t.len) :
    wideSteps t = if 4 ≤ t.len.toNat ∧ t.len.toNat ≤ 16 then 3 else streamSteps t.len.toNat := by
  unfold afterWinit at hq
  by_cases hsmall : 4 ≤ t.len.toNat ∧ t.len.toNat ≤ 16
  · rw [if_neg (by omega), if_neg (by omega), if_pos hsmall.1] at hq
    simp only [wideSteps, hq, if_pos hsmall]
  · rw [if_neg hsmall, ← hr]
    refine wideSteps_of_stream ?_
    rw [hq]
    split_ifs
    · rfl
    · rfl
    · omega
    · rfl
    · rfl

/-- A step inside the stream, from the bytes it leaves. -/
theorem wideSteps_stream_next {s t : State} {r : Nat} (hs : isStream s.seq = true) (ht : isStream t.seq = true)
    (hr : t.rem.toNat = r) (h : streamSteps s.rem.toNat = streamSteps r + 1) : wideSteps s = wideSteps t + 1 := by
  rw [wideSteps_of_stream hs, wideSteps_of_stream ht, hr, h]

theorem wideSteps_rowResult {s : State} (h : WideRunning s) (hlast : s.seq ≠ .wfins) :
    wideSteps s = wideSteps (rowResult s) + 1 := by
  obtain ⟨-, -, -, -, -, -, -, hwblk, hwcasc, hwword, hwtail, hwlen, -⟩ := h.sequencerOk
  have hwide := h.state_wide
  cases hs : s.seq <;> simp only [hs, isWideState, Bool.false_eq_true] at hwide
  case init =>
    have hresult := rowResult_winit hs h.modeq
    have hlen : (rowResult s).len = s.len := by rw [hresult]
    rw [wideSteps_of_afterWinit (t := rowResult s) (by rw [hresult]) (by rw [hresult]), hlen, Nat.add_comm]
    simp only [wideSteps, hs]
  case wsmall =>
    have hthree : wideSteps s = 3 := by simp only [wideSteps, hs]
    rw [rowResult_wsmall hs, hthree, wideSteps_of_stream (by rfl), writeSmall_rem]
    rfl
  case wblk =>
    have h32 := (hwblk hs).2.1
    rw [rowResult_wblk hs]
    exact wideSteps_stream_next (by rw [hs]; rfl) (by rw [writeBlk_seq]; exact isStream_afterBlk _ _) (sub_toNat h32)
      (streamSteps_block h32)
  case wcasc =>
    obtain ⟨-, h8, h31, -⟩ := hwcasc hs
    obtain ⟨hle, h7⟩ := cascadeLanes_bound h8 h31
    rw [rowResult_wcasc hs]
    refine wideSteps_stream_next (by rw [hs]; rfl) (isStream_afterBlk _ _) ?_ (streamSteps_cascade h8 h31 hle h7)
    rw [writeBlk_rem, ofNat3_toNat (by omega), logReads_rem, sub_toNat hle]
  case wword =>
    obtain ⟨-, h4, h7, -⟩ := hwword hs
    rw [rowResult_wword hs]
    exact wideSteps_stream_next (by rw [hs]; rfl) (isStream_afterSstep _) (sub_toNat h4) (streamSteps_word h4 h7)
  case wtail =>
    obtain ⟨-, h1, h3, -⟩ := hwtail hs
    rw [rowResult_wtail hs]
    exact wideSteps_stream_next (r := 0) (by rw [hs]; rfl) rfl rfl (streamSteps_tail h1 h3)
  case wlen =>
    obtain ⟨-, hrem, -⟩ := hwlen hs
    rw [rowResult_wlen hs, wideSteps_of_stream (by rw [hs]; rfl), hrem]
    rfl
  case wfins => exact absurd hs hlast

/-- `PTR` moves by whole words up to the last word the run reads at it. -/
theorem ptr_aligned_rowResult {s : State} (h : WideRunning s) (hlast : s.seq ≠ .wfins) (haddr : s.addr.toNat % 4 = 0)
    (hptr : readsAtPtr s.seq = true → s.ptr.toNat % 4 = 0) (hq : readsAtPtr (rowResult s).seq = true) :
    (rowResult s).ptr.toNat % 4 = 0 := by
  have block : ∀ (k : BitVec 3) ws, (writeBlk k ws (logReads (reads s (rowInstr s)) s)).ptr.toNat % 4
      = s.ptr.toNat % 4 := fun k ws => add_toNat_mod_four s.ptr (by omega)
  have hwide := h.state_wide
  cases hs : s.seq <;> simp only [hs, isWideState, Bool.false_eq_true] at hwide
  case init =>
    rw [rowResult_winit hs h.modeq]
    exact haddr
  case wsmall =>
    rw [rowResult_wsmall hs] at hq
    cases hq
  case wblk =>
    rw [rowResult_wblk hs, block]
    exact hptr (by rw [hs]; rfl)
  case wcasc =>
    rw [rowResult_wcasc hs, block]
    exact hptr (by rw [hs]; rfl)
  case wword =>
    rw [rowResult_wword hs, writeSstep_seq, afterSstep] at hq
    split_ifs at hq <;> cases hq
  case wtail =>
    rw [rowResult_wtail hs] at hq
    cases hq
  case wlen =>
    rw [rowResult_wlen hs] at hq
    cases hq
  case wfins => exact absurd hs hlast

/-- A WIDE run goes on until WFIN. -/
theorem wideRunning_rowResult {s : State} (h : WideRunning s) (hlast : s.seq ≠ .wfins) : WideRunning (rowResult s) := by
  have hfin : s.seq ≠ .fin := by
    have hwide := h.state_wide
    intro hs
    simp [hs, isWideState] at hwide
  obtain ⟨hbusy, -, -, -, -, haddr, hlen, -, hmodeq, hcfg, -, hagenda, -⟩ := rowResult_frame s hfin hlast
  refine ⟨Registers.consistent_rowResult h.consistent h.busy h.seq_ne_idle, hbusy.trans h.busy, hmodeq.trans h.modeq,
    hagenda.trans h.agenda, ?readable, ?words⟩
  case readable =>
    intro a ha
    rw [hcfg]
    rw [InBuffer, haddr, hlen] at ha
    exact h.readable a ha
  case words =>
    rw [WordsAllowed, hcfg, haddr, hlen]
    rcases h.words with hok | hshort | ⟨ha, hl, hptr⟩
    · exact .inl hok
    · exact .inr (.inl hshort)
    · exact .inr (.inr ⟨ha, hl, ptr_aligned_rowResult h hlast ha hptr⟩)

theorem wideSteps_pos (s : State) : 1 ≤ wideSteps s := by
  unfold wideSteps streamSteps
  split <;> omega

/-- A WIDE run is busy before each of the steps it has left and DONE after them. -/
theorem wide_run (k : Nat) {s : State} (h : WideRunning s) (hk : wideSteps s = k) :
    BusyBefore k s ∧ ∃ t, Host.Core.run core k s = .next t ∧ t.done = true := by
  induction k generalizing s with
  | zero =>
    have := wideSteps_pos s
    omega
  | succ k ih =>
    by_cases hlast : s.seq = .wfins
    · obtain rfl : k = 0 := by
        simp only [wideSteps, hlast] at hk
        omega
      exact ⟨busyBefore_one h.busy, rowResult s, run_one h.step_eq, by rw [rowResult_wfins hlast, finish_done]⟩
    · have hnext := wideSteps_rowResult h hlast
      obtain ⟨hbusy, t, hrun, hdone⟩ := ih (wideRunning_rowResult h hlast) (by omega)
      exact ⟨busyBefore_succ h.busy h.step_eq hbusy, t, (run_succ h.step_eq k).trans hrun, hdone⟩

/-- R288's count by LEN, from the accepted command. -/
theorem wideSteps_started {s : State} (hs : s.seq = .init) {n m m' : Nat} (hn : n = s.len.toNat) (hm : m = n % 32)
    (hm' : m' = if m ≥ 8 then m % 8 else m) :
    wideSteps s = if n = 0 then 3 else if n ≤ 16 then 4
      else 3 + n / 32 + (if m ≥ 8 then 1 else 0) + (if m' ≥ 4 then 1 else 0) + (if m' % 4 ≠ 0 then 1 else 0) := by
  have hmod : m' = n % 8 := by
    rw [hm', hm]
    split_ifs <;> omega
  simp only [wideSteps, hs, ← hn]
  by_cases hzero : n = 0
  · subst hzero
    rfl
  rw [if_neg hzero]
  by_cases hsmall : n ≤ 16
  · rw [if_pos hsmall]
    by_cases h4 : 4 ≤ n
    · rw [if_pos ⟨h4, hsmall⟩]
    · rw [if_neg (by omega), streamSteps_tail (by omega) (by omega)]
  · rw [if_neg hsmall, if_neg (by omega), streamSteps, hmod, hm, show n % 8 % 4 = n % 4 by omega]
    omega

/-- Settles O59: the accepted command is a WIDE run with R288's count of steps left. -/
theorem wideRunLength : Obligations.WideRunLength := by
  rintro s n m m' k hc ha ⟨hb, hs, hmode⟩ hread hwords hn hm hm' rfl
  have words : WordsAllowed s := by
    rw [hn] at hwords
    refine hwords.imp_right (Or.imp_right fun h => ?_)
    exact ⟨h.1, h.2, by simp [hs, readsAtPtr]⟩
  exact wide_run _ ⟨hc, hb, hmode, ha, hread, words⟩ (wideSteps_started hs hn hm hm')

end Sys2Proof.Proofs.QuietRun
end

section
/-! PROOFS. The statements of the encoding family (spec/30_encoding.md): the decoder and the encoder invert each other
(R90, R94 to R96), the reserved bytes and operands (R98), the step at the level of encodings (R91, R95, R240), and that
a consistent machine never gets stuck (R98, R221, R242). -/

namespace Sys2Proof.Proofs.Encoding

open Sys2Proof Sys2Proof.Machine

/-! ### Micro-operation bytes (R95, R96, R98) -/

/-- A byte decodes to the instruction its operation names, if the operand is one R96 lists. -/
theorem decodeUop_eq_instr_iff {b : Byte} {i : Instr} :
    decodeUop b = .instr i ↔ decodeOp (uopOp b) (uopArg b) = some i ∧ i.wellFormed = true := by
  unfold decodeUop
  cases decodeOp (uopOp b) (uopArg b) with
  | none => simp
  | some j =>
    cases hj : j.wellFormed with
    | true => simpa [hj] using fun h : j = i => h ▸ hj
    | false => simpa [hj] using fun h : j = i => h ▸ hj

theorem decode_packUop {op : BitVec 5} {arg : BitVec 3} {i : Instr} (ho : decodeOp op arg = some i)
    (hi : i.wellFormed = true) : decode (.uop (packUop op arg)) = .instr i :=
  decodeUop_eq_instr_iff.2 ⟨by rwa [uopOp_packUop, uopArg_packUop], hi⟩

/-- Every operation is unused, takes no operand, takes a count 1 to 3, or is APACK or BLK (R96). -/
theorem op_classes (op : BitVec 5) :
    (op = 0x00#5 ∨ (0x08 ≤ op.toNat ∧ op.toNat ≤ 0x0F) ∨ 0x17 ≤ op.toNat) ∨
    op ∈ [0x01#5, 0x02#5, 0x04#5, 0x06#5, 0x10#5, 0x14#5, 0x15#5, 0x16#5] ∨
    op ∈ [0x03#5, 0x05#5, 0x11#5, 0x12#5] ∨ op = 0x07#5 ∨ op = 0x13#5 := by
  revert op; decide

theorem decodeOp_unused {op : BitVec 5} (arg : BitVec 3)
    (h : op = 0x00#5 ∨ (0x08 ≤ op.toNat ∧ op.toNat ≤ 0x0F) ∨ 0x17 ≤ op.toNat) : decodeOp op arg = none := by
  revert op arg; decide

/-- These operations have one row each, with operand 0 (R96). -/
theorem decodeOp_noOperand {op : BitVec 5} (arg : BitVec 3)
    (h : op ∈ [0x01#5, 0x02#5, 0x04#5, 0x06#5, 0x10#5, 0x14#5, 0x15#5, 0x16#5]) :
    decodeOp op arg = if arg = 0#3 then decodeOp op 0#3 else none := by
  simp only [List.mem_cons, List.not_mem_nil, or_false] at h
  rcases h with rfl | rfl | rfl | rfl | rfl | rfl | rfl | rfl <;> rfl

/-- The decoder's rows and the encoder's rows are the same table (R96). -/
theorem encode_of_decodeOp {op : BitVec 5} {arg : BitVec 3} {i : Instr} (h : decodeOp op arg = some i) :
    encode i = .uop (packUop op arg) := by
  rcases op_classes op with hop | hop | hop | rfl | rfl
  · rw [decodeOp_unused arg hop] at h
    cases h
  · rw [decodeOp_noOperand arg hop] at h
    split_ifs at h with harg
    subst harg
    simp only [List.mem_cons, List.not_mem_nil, or_false] at hop
    rcases hop with rfl | rfl | rfl | rfl | rfl | rfl | rfl | rfl <;> cases h <;> rfl
  · simp only [List.mem_cons, List.not_mem_nil, or_false] at hop
    rcases hop with rfl | rfl | rfl | rfl <;> cases h <;> rfl
  · cases h; rfl
  · cases h; rfl

theorem encode_of_decodeUop {b : Byte} {i : Instr} (h : decodeUop b = .instr i) : encode i = .uop b := by
  obtain ⟨ho, -⟩ := decodeUop_eq_instr_iff.1 h
  rw [encode_of_decodeOp ho, packUop_fields]

/-- No row of R96 has these fields: the operation is unused, or the operand is not listed for it. -/
def ReservedFields (op : BitVec 5) (arg : BitVec 3) : Prop :=
  ∀ i, decodeOp op arg = some i → i.wellFormed = false

theorem decodeUop_eq_reserved_iff {b : Byte} :
    decodeUop b = .reservedUop b ↔ ReservedFields (uopOp b) (uopArg b) := by
  unfold decodeUop ReservedFields
  cases decodeOp (uopOp b) (uopArg b) with
  | none => simp
  | some j => cases hj : j.wellFormed <;> simp [hj]

theorem reserved_unused {op : BitVec 5} (arg : BitVec 3)
    (h : op = 0x00#5 ∨ (0x08 ≤ op.toNat ∧ op.toNat ≤ 0x0F) ∨ 0x17 ≤ op.toNat) : ReservedFields op arg := by
  intro i hi
  rw [decodeOp_unused arg h] at hi
  cases hi

theorem reserved_iff_of_noOperand {op : BitVec 5} {arg : BitVec 3}
    (h : op ∈ [0x01#5, 0x02#5, 0x04#5, 0x06#5, 0x10#5, 0x14#5, 0x15#5, 0x16#5]) :
    ReservedFields op arg ↔ arg ≠ 0#3 := by
  rw [ReservedFields, decodeOp_noOperand arg h]
  simp only [List.mem_cons, List.not_mem_nil, or_false] at h
  by_cases harg : arg = 0#3
  · rcases h with rfl | rfl | rfl | rfl | rfl | rfl | rfl | rfl <;> simp [decodeOp, harg, Instr.wellFormed]
  · simp [harg]

theorem reserved_iff_of_count {op : BitVec 5} {arg : BitVec 3} (h : op ∈ [0x03#5, 0x05#5, 0x11#5, 0x12#5]) :
    ReservedFields op arg ↔ arg ∉ [1#3, 2#3, 3#3] := by
  rw [← legalArg13_iff]
  simp only [List.mem_cons, List.not_mem_nil, or_false] at h
  rcases h with rfl | rfl | rfl | rfl <;> simp [ReservedFields, decodeOp, Instr.wellFormed]

theorem reserved_iff_of_apack {arg : BitVec 3} : ReservedFields 0x07#5 arg ↔ arg ∉ [0#3, 1#3, 2#3, 3#3] := by
  rw [← legalArg03_iff]
  simp [ReservedFields, decodeOp, Instr.wellFormed]

theorem reserved_iff_of_blk {arg : BitVec 3} : ReservedFields 0x13#5 arg ↔ arg ∉ [1#3, 2#3, 3#3, 4#3] := by
  rw [← legalArg14_iff]
  simp [ReservedFields, decodeOp, Instr.wellFormed]

/-! ### Transaction words (R90, R91, R94) -/

theorem legalOffset_eq_false_iff (off : BitVec 5) : legalOffset off = false ↔ off.toNat % 4 ≠ 0 := by
  rw [← Bool.not_eq_true, legalOffset_iff]

/-- The eight full words of the window (R91). -/
theorem legalOffset_cases {off : BitVec 5} (h : legalOffset off = true) :
    off ∈ [0x00#5, 0x04#5, 0x08#5, 0x0C#5, 0x10#5, 0x14#5, 0x18#5, 0x1C#5] := by
  revert off; decide

theorem decodeTxn_writeCtrl (v : Word) : decodeTxn (packTxn true 0x00#5 v) = decodeCommand v := by
  simp [decodeTxn, legalOffset]

/-- A value written to CTRL is the encoding of its command, or illegal (R94). -/
theorem decodeCommand_cases (v : Word) :
    (∃ i, decodeCommand v = .instr i ∧ encode i = .txn (packTxn true 0x00#5 v)) ∨
    decodeCommand v = .badCommand v := by
  unfold decodeCommand
  split_ifs <;> simp [encode, *]

/-- Settles O1: a transaction's fields come back from its packing and pick its row; a micro-operation's row takes the
operand because the instruction is well formed. -/
theorem decodeInvertsEncode : Obligations.DecodeInvertsEncode := by
  intro i hi
  cases i
  case rd off =>
    have hw : txnWe (packTxn false off 0#32) = false := txnWe_packTxn ..
    have hl : legalOffset (txnOff (packTxn false off 0#32)) = true := by rwa [txnOff_packTxn]
    exact (decodeTxn_read hl hw).trans (by rw [txnOff_packTxn])
  case wrAddr | wrLen | wrSeed | wrStatus | wrDigest | wrFaddr | wrRsvd1c =>
    simp [decode, encode, decodeTxn, legalOffset]
  case nop | startSimple | startAligned | startWide | clr => exact decodeTxn_writeCtrl _
  all_goals exact decode_packUop rfl hi

/-- A word that is the encoding of a well-formed instruction decodes to nothing else. -/
theorem encode_of_decode {c : Code} {i j : Instr} (hj : encode j = c) (hw : j.wellFormed = true)
    (hi : decode c = .instr i) : encode i = c := by
  subst hj
  rw [decodeInvertsEncode j hw] at hi
  cases hi
  rfl

/-- A write to a full word is a CTRL write, or the encoding of a row that takes any data (R91). -/
theorem write_cases {w : BitVec 38} (hwe : txnWe w = true) (hl : legalOffset (txnOff w) = true) :
    w = packTxn true 0x00#5 (txnData w) ∨ ∃ i, i.wellFormed = true ∧ encode i = .txn w := by
  have hw := packTxn_fields w
  rw [hwe] at hw
  have hoff := legalOffset_cases hl
  simp only [List.mem_cons, List.not_mem_nil, or_false] at hoff
  rcases hoff with e | e | e | e | e | e | e | e <;> rw [e] at hw
  · exact .inl hw.symm
  · exact .inr ⟨.wrStatus (txnData w), rfl, congrArg Code.txn hw⟩
  · exact .inr ⟨.wrAddr (txnData w), rfl, congrArg Code.txn hw⟩
  · exact .inr ⟨.wrLen (txnData w), rfl, congrArg Code.txn hw⟩
  · exact .inr ⟨.wrSeed (txnData w), rfl, congrArg Code.txn hw⟩
  · exact .inr ⟨.wrDigest (txnData w), rfl, congrArg Code.txn hw⟩
  · exact .inr ⟨.wrFaddr (txnData w), rfl, congrArg Code.txn hw⟩
  · exact .inr ⟨.wrRsvd1c (txnData w), rfl, congrArg Code.txn hw⟩

/-- A transaction at a full word decodes to an instruction, or is a write of an illegal command (R90, R94); a write's
instruction is the one it encodes. -/
theorem decodeTxn_of_legal {w : BitVec 38} (hl : legalOffset (txnOff w) = true) :
    (∃ i, decodeTxn w = .instr i ∧ (txnWe w = true → encode i = .txn w)) ∨ ∃ v, decodeTxn w = .badCommand v := by
  cases hwe : txnWe w with
  | false => exact .inl ⟨_, decodeTxn_read hl hwe, nofun⟩
  | true =>
    rcases write_cases hwe hl with e | ⟨i, hi, e⟩
    · rw [e, decodeTxn_writeCtrl]
      rcases decodeCommand_cases (txnData w) with ⟨i, hd, he⟩ | hd
      · exact .inl ⟨i, hd, fun _ => he⟩
      · exact .inr ⟨_, hd⟩
    · exact .inl ⟨i, (congrArg decode e).symm.trans (decodeInvertsEncode i hi), fun _ => e⟩

theorem legalOffset_of_decodeTxn {w : BitVec 38} {i : Instr} (h : decodeTxn w = .instr i) :
    legalOffset (txnOff w) = true := by
  by_contra hl
  rw [decodeTxn_misaligned (by simpa using hl)] at h
  cases h

theorem encode_of_decodeTxn {w : BitVec 38} {i : Instr} (h : decodeTxn w = .instr i) (hwe : txnWe w = true) :
    encode i = .txn w := by
  rcases decodeTxn_of_legal (legalOffset_of_decodeTxn h) with ⟨j, hj, he⟩ | ⟨v, hv⟩
  · obtain rfl : j = i := Decoded.instr.inj (hj.symm.trans h)
    exact he hwe
  · rw [hv] at h
    cases h

/-- Settles O2: bytes by the table both directions share, transactions by the rows of the window. -/
theorem encodeInvertsDecode : Obligations.EncodeInvertsDecode := by
  refine ⟨fun b i h => ⟨decodeUop_wellFormed h, encode_of_decodeUop h⟩, fun w i h => ?_⟩
  obtain ⟨-, hwf⟩ := decodeTxn_isHost h
  refine ⟨hwf, encode_of_decodeTxn h, fun hwe => ?_⟩
  exact Decoded.instr.inj (h.symm.trans (decodeTxn_read (legalOffset_of_decodeTxn h) hwe))

/-! ### The window in the HOST's address space (R91) -/

theorem windowOffset_base_add (cfg : Config) (off : BitVec 5) :
    windowOffset cfg (cfg.base + off.toNat) 4 = some off := by
  have h := off.isLt
  simp [windowOffset, h]

/-- A full-word access inside the window addresses its distance from BASE. -/
theorem windowOffset_eq_some {cfg : Config} {a n : Nat} {off : BitVec 5} (h : windowOffset cfg a n = some off) :
    off.toNat = a - cfg.base := by
  unfold windowOffset at h
  split_ifs at h with hc
  obtain ⟨-, hlo, hhi⟩ := hc
  cases h
  rw [BitVec.toNat_ofNat]
  omega

theorem windowOffset_eq_none {cfg : Config} {a n : Nat} (h : windowOffset cfg a n = none) :
    n ≠ 4 ∨ a < cfg.base ∨ cfg.base + 32 ≤ a := by
  unfold windowOffset at h
  split_ifs at h
  omega

theorem fetch_of_access {s : State} {we : Bool} {a n : Nat} {v : Word} {es : List Event}
    (h : s.agenda = .access we a n v :: es) : fetch s = accessTurn we a n v { s with agenda := es } := by
  simp [fetch, h]

theorem accessTurn_of_some {s : State} {a n : Nat} {off : BitVec 5} (h : windowOffset s.cfg a n = some off)
    (we : Bool) (v : Word) : accessTurn we a n v s = hostTurn (packTxn we off v) s := by
  simp [accessTurn, h]

/-! ### No step gets stuck (R98, R221, R242) -/

/-- A well-formed instruction is never refused and never stops the machine. -/
theorem exec_next {i : Instr} (hw : i.wellFormed = true) (s : State) : ∃ t, exec i s = .next t := by
  cases i
  case rd off => exact ⟨_, if_pos hw⟩
  case tstep n => exact ⟨_, exec_tstep s hw⟩
  case asetup a => exact ⟨_, exec_asetup s hw⟩
  case apack p => exact ⟨_, exec_apack s hw⟩
  case gstep n => exact ⟨_, exec_gstep s hw⟩
  case small c => exact ⟨_, exec_small s hw⟩
  case blk k => exact ⟨_, exec_blk s hw⟩
  all_goals exact ⟨_, rfl⟩

/-- The MIXER of a consistent machine is idle or issues the well-formed instruction of its row (R241). -/
theorem mixerTurn_next {s : State} (h : Consistent s) : ∃ t, outcome (mixerTurn s) = .next t := by
  cases hb : s.busy with
  | false => exact ⟨s, congrArg outcome (Scope.mixerTurn_of_idle hb)⟩
  | true =>
    have hseq := Registers.sequencerOk_of_consistent h
    obtain ⟨⟨-, -, -, hidle, -⟩, -⟩ := h
    have hq : s.seq ≠ .idle := fun hq => by simp [hidle.1 hq] at hb
    rw [mixerTurn_run hseq hb hq]
    exact exec_next (rowInstr_wellFormed hseq) s

/-- A HOST transaction has a next state, unless its offset is misaligned (R221). -/
theorem hostTurn_next_or_refused (w : BitVec 38) (s : State) :
    (∃ t, outcome (hostTurn w s) = .next t) ∨
    (outcome (hostTurn w s) = .refused .notATransaction ∧ (txnOff w).toNat % 4 ≠ 0) := by
  cases hl : legalOffset (txnOff w) with
  | false =>
    exact .inr ⟨by simp [hostTurn, decodeTxn_misaligned hl, outcome], (legalOffset_eq_false_iff _).1 hl⟩
  | true =>
    rcases decodeTxn_of_legal hl with ⟨i, hd, -⟩ | ⟨v, hd⟩
    · obtain ⟨-, hwf⟩ := decodeTxn_isHost hd
      rw [Scope.hostTurn_of_instr hd]
      exact .inl (exec_next hwf s)
    · exact .inl ⟨whenIdle badCommand s, by simp [hostTurn, hd, outcome]⟩

/-- The next event is one R221 excludes: a transaction word with a misaligned offset, or a HOST access that is not a
full aligned word of the window. -/
def NextIsNoTransaction (s : State) : Prop :=
  (∃ w es, s.agenda = .txn w :: es ∧ (txnOff w).toNat % 4 ≠ 0) ∨
  (∃ we a n v es, s.agenda = .access we a n v :: es ∧
    (n ≠ 4 ∨ a < s.cfg.base ∨ s.cfg.base + 32 ≤ a ∨ (a - s.cfg.base) % 4 ≠ 0))

/-- A HOST access has a next state, unless it is not a full aligned word of the window (R91, R221). -/
theorem accessTurn_next_or_refused (we : Bool) (a n : Nat) (v : Word) (s : State) :
    (∃ t, outcome (accessTurn we a n v s) = .next t) ∨
    (outcome (accessTurn we a n v s) = .refused .notATransaction ∧
      (n ≠ 4 ∨ a < s.cfg.base ∨ s.cfg.base + 32 ≤ a ∨ (a - s.cfg.base) % 4 ≠ 0)) := by
  rcases accessTurn_cases we a n v s with ⟨off, ho, e⟩ | ⟨ho, e⟩ <;> rw [e]
  · have hoff := windowOffset_eq_some ho
    refine (hostTurn_next_or_refused _ _).imp_right fun ⟨hr, hmis⟩ => ⟨hr, ?_⟩
    rw [txnOff_packTxn, hoff] at hmis
    exact .inr (.inr (.inr hmis))
  · have := windowOffset_eq_none ho
    exact .inr ⟨rfl, by omega⟩

/-- From a consistent state every step has a next state, but for an event R221 excludes. -/
theorem step_next_or_refused {s : State} (h : Consistent s) :
    (∃ t, step s = .next t) ∨ (step s = .refused .notATransaction ∧ NextIsNoTransaction s) := by
  rw [step_eq]
  rcases fetch_cases s with ⟨-, e⟩ | ⟨es, -, e⟩ | ⟨w, es, ha, e⟩ | ⟨we, a, n, d, es, ha, e⟩ | ⟨es, -, e⟩ |
    ⟨a, b, es, -, e⟩ <;> rw [e]
  · exact .inl (mixerTurn_next h)
  · exact .inl (mixerTurn_next h)
  · exact (hostTurn_next_or_refused w _).imp_right fun ⟨hr, hmis⟩ => ⟨hr, .inl ⟨w, es, ha, hmis⟩⟩
  · exact (accessTurn_next_or_refused we a n d _).imp_right fun ⟨hr, hout⟩ =>
      ⟨hr, .inr ⟨we, a, n, d, es, ha, hout⟩⟩
  · exact .inl ⟨_, rfl⟩
  · exact .inl ⟨_, rfl⟩

/-- Settles O44: every other step has a next state. -/
theorem mixerNeverGetsStuck : Obligations.MixerNeverGetsStuck := by
  intro s h
  rcases step_next_or_refused h with ⟨t, e⟩ | ⟨e, hno⟩ <;> rw [e]
  · exact ⟨nofun, nofun⟩
  · refine ⟨nofun, fun r hr => ?_⟩
    cases hr
    exact ⟨rfl, hno⟩

/-! ### The reserved bytes and the legal commands -/

/-- Settles O3, by the classes of operations R96 knows. -/
theorem reservedBytesAreRefused : Obligations.ReservedBytesAreRefused := by
  intro b
  refine decodeUop_eq_reserved_iff.trans ⟨fun h => ?_, ?_⟩
  · rcases op_classes (uopOp b) with hop | hop | hop | hop | hop
    · exact .inl hop
    · exact .inr (.inl ⟨hop, (reserved_iff_of_noOperand hop).1 h⟩)
    · exact .inr (.inr (.inl ⟨hop, (reserved_iff_of_count hop).1 h⟩))
    · exact .inr (.inr (.inr (.inl ⟨hop, reserved_iff_of_apack.1 (hop ▸ h)⟩)))
    · exact .inr (.inr (.inr (.inr ⟨hop, reserved_iff_of_blk.1 (hop ▸ h)⟩)))
  · rintro (hop | ⟨hop, harg⟩ | ⟨hop, harg⟩ | ⟨hop, harg⟩ | ⟨hop, harg⟩)
    · exact reserved_unused _ hop
    · exact (reserved_iff_of_noOperand hop).2 harg
    · exact (reserved_iff_of_count hop).2 harg
    · exact hop ▸ reserved_iff_of_apack.2 harg
    · exact hop ▸ reserved_iff_of_blk.2 harg

/-- Settles O4: at offset 0 the decoder is R94's match on the data. -/
theorem ctrlValuesDecode : Obligations.CtrlValuesDecode := decodeTxn_writeCtrl

/-- An opcode-table word that is the encoding of a well-formed instruction decodes to it. -/
theorem decodeTableWord_of_encode {nbits w : Nat} {i : Instr} (hc : tableCode nbits w = some (encode i))
    (hi : i.wellFormed = true) : decodeTableWord nbits w = some i := by
  simp [decodeTableWord, hc, decodeInvertsEncode i hi, Decoded.instr?]

/-- Settles O5: each word is the encoding of its instruction. -/
theorem specWordsDecode : Obligations.SpecWordsDecode := by
  refine ⟨?_, ?_, ?_, ?_, ?_, ?_, ?_⟩ <;> exact decodeTableWord_of_encode (by decide) rfl

/-! ### The step at the level of encodings -/

theorem mixerTurn_of_instr {s : State} {i : Instr} (hb : s.busy = true) (hq : s.seq ≠ .idle)
    (hi : decodeUop (issue s) = .instr i) : mixerTurn s = .run i s := by
  simp [mixerTurn, hb, hq, hi]

/-- Settles O7: both forms of the MIXER's move fetch the issued byte, which does not depend on the agenda. -/
theorem stepRunsTheIssuedByte : Obligations.StepRunsTheIssuedByte := by
  intro s i hb hq hi
  refine ⟨fun ha => ?_, fun es ha => ?_⟩
  · exact step_of_run ((Scope.fetch_of_nil ha).trans (mixerTurn_of_instr hb hq hi))
  · exact step_of_run ((Scope.fetch_of_mixer ha).trans (mixerTurn_of_instr hb hq hi))

/-- Settles O16: the access and the transaction are fetched as the same turn of the HOST. -/
theorem windowAccessIsTransaction : Obligations.WindowAccessIsTransaction := by
  intro s we off v es ha
  have hfetch : fetch s = fetch { s with agenda := .txn (packTxn we off v) :: es } := by
    rw [fetch_of_access ha, Scope.fetch_of_txn rfl]
    exact accessTurn_of_some (s := { s with agenda := es }) (windowOffset_base_add s.cfg off) we v
  rw [step_eq, step_eq, hfetch]

/-- Settles O38: each meaning tests its operand first and refuses one that its encoding does not list. -/
theorem reservedOperandsAreRefused : Obligations.ReservedOperandsAreRefused := by
  refine ⟨fun off s h => if_neg (mt (legalOffset_iff off).1 h), fun n s => ⟨fun h => ?_, fun h => ?_, fun h => ?_⟩⟩
  · have hn : ¬ legalArg13 n = true := mt legalArg13_iff.1 h
    exact ⟨if_neg hn, if_neg hn, if_neg hn, if_neg hn⟩
  · exact if_neg (mt legalArg03_iff.1 h)
  · exact if_neg (mt legalArg14_iff.1 h)

end Sys2Proof.Proofs.Encoding
end

section
/-! PROOFS. The statements of the 32-bit path about single functions and micro-operations (spec/41_simple_mixer.md): the
MSX stage (R121), the tail gather (R131), and INIT32, WSTEP, TSTEP and FIN32 (R123 to R126) with their next states
(spec/45_sequencer.md R241). -/

namespace Sys2Proof.Proofs.SimpleMixer

open Sys2Proof Sys2Proof.Machine

/-! ### The MSX stage (R121) -/

theorem msx_eq (cfg : Config) (h : Word) (r : Nat) : msx cfg h r = (h * cfg.m) ^^^ ((h * cfg.m) >>> r) := rfl

theorem msx_zero (cfg : Config) (r : Nat) : msx cfg 0#32 r = 0#32 := by simp [msx_eq]

/-- The shifted copy of `p` leaves the top `r` bits alone. -/
theorem xor_shifted_top (p : Word) {r : Nat} (hr : r ≤ 32) : (p ^^^ (p >>> r)) >>> (32 - r) = p >>> (32 - r) := by
  have hout : (p >>> r) >>> (32 - r) = 0#32 := by
    rw [← BitVec.shiftRight_add]
    exact BitVec.ushiftRight_eq_zero (by omega)
  rw [BitVec.ushiftRight_xor_distrib, hout, BitVec.xor_zero]

/-- Settles O23: of the three properties only the top bits need an argument, `xor_shifted_top`. -/
theorem msxStage : Obligations.MsxStage := by
  intro cfg h r hr
  have hr32 : r ≤ 32 := by
    simp only [List.mem_cons, List.not_mem_nil, or_false] at hr
    omega
  exact ⟨msx_eq cfg h r, msx_zero cfg r, xor_shifted_top _ hr32⟩

/-! ### The tail gather (R131) -/

/-- The value of the gathered bytes: they occupy disjoint bit ranges. -/
theorem tailValue_toNat (s : State) (p : Addr) (n : Nat) :
    (tailValue s p n).toNat
      = (if n ≥ 3 then (memByte s (p + 2#32)).toNat * 2 ^ 16 else 0)
        + (if n ≥ 2 then (memByte s (p + 1#32)).toNat * 2 ^ 8 else 0)
        + (if n ≥ 1 then (memByte s p).toNat else 0) := by
  have h0 := MemoryPort.memByte_lt s p
  have h1 := MemoryPort.memByte_lt s (p + 1#32)
  have h2 := MemoryPort.memByte_lt s (p + 2#32)
  unfold tailValue
  split_ifs <;>
    simp only [BitVec.toNat_add, BitVec.toNat_shiftLeft, Nat.shiftLeft_eq, BitVec.ofNat_eq_ofNat,
      BitVec.toNat_ofNat] <;>
    omega

theorem tailValue_lt (s : State) (p : Addr) (n : Nat) : (tailValue s p n).toNat < 2 ^ 24 := by
  have h0 := MemoryPort.memByte_lt s p
  have h1 := MemoryPort.memByte_lt s (p + 1#32)
  have h2 := MemoryPort.memByte_lt s (p + 2#32)
  rw [tailValue_toNat]
  split_ifs <;> omega

/-- A word that does not run past the address space, as the sum of its bytes. -/
theorem memWord_toNat {p : Addr} (s : State) (h : p.toNat + 3 < 2 ^ 32) :
    (memWord s p).toNat
      = (memByte s p).toNat + (memByte s (p + 1#32)).toNat * 2 ^ 8 + (memByte s (p + 2#32)).toNat * 2 ^ 16
        + (memByte s (p + 3#32)).toNat * 2 ^ 24 := by
  have h0 := MemoryPort.memByte_lt s p
  have h1 := MemoryPort.memByte_lt s (p + 1#32)
  have h2 := MemoryPort.memByte_lt s (p + 2#32)
  have h3 := MemoryPort.memByte_lt s (p + 3#32)
  rw [MemoryPort.memWord_eq_bytes s h]
  simp only [BitVec.toNat_add, BitVec.toNat_shiftLeft, Nat.shiftLeft_eq]
  omega

/-- The bytes from offset `n` on are the multiples of `2 ^ (8 n)` in the word. -/
theorem tailValue_eq_low_bytes {s : State} {p : Addr} {n : Nat} (hn : n ≤ 3) (h : p.toNat + 3 < 2 ^ 32) :
    (tailValue s p n).toNat = (memWord s p).toNat % 2 ^ (8 * n) := by
  have h0 := MemoryPort.memByte_lt s p
  have h1 := MemoryPort.memByte_lt s (p + 1#32)
  have h2 := MemoryPort.memByte_lt s (p + 2#32)
  rw [tailValue_toNat, memWord_toNat s h]
  interval_cases n <;> simp only [Nat.reduceLeDiff, ge_iff_le, if_true, if_false] <;> omega

/-- Settles O24: the gather answers `tailReqs` with `tailValue`, whose value the lemmas above give. -/
theorem tailGatherIsLowBytes : Obligations.TailGatherIsLowBytes := by
  intro s p n hn
  refine ⟨fun hserved => ?_, tailValue_lt s p n, ?_, tailValue_eq_low_bytes hn⟩
  · rw [tg_eq, answer_of_served hserved]
  · rw [tg_eq]
    rfl

/-! ### INIT32 (R123) and FIN32 (R126) -/

/-- `ADDR[1:0]` is not 0 exactly when ADDR is no multiple of 4. -/
theorem low_bits_ne_zero_iff (a : Addr) : a.extractLsb' 0 2 ≠ 0#2 ↔ a.toNat % 4 ≠ 0 := by
  rw [ne_eq, ← BitVec.toNat_inj]
  simp

/-- The rows INIT of R241 with SIMPLE and ALIGNED, written out. -/
theorem afterInit32_eq (s : State) : afterInit32 s =
    if s.modeq = .aligned ∧ s.addr.toNat % 4 ≠ 0 ∧ s.len.toNat ≥ 4 then .aset
    else if s.len.toNat ≥ 4 then .words else if s.len.toNat ≥ 1 then .tail else .fin := by
  simp only [afterInit32, nw, low_bits_ne_zero_iff]

theorem issue_init32 {s : State} (hs : s.seq = .init) (hm : s.modeq ≠ .wide) : issue s = 0x08#8 := by
  simp only [issue, hs, if_neg hm]
  rfl

theorem issue_fin32 {s : State} (hs : s.seq = .fin) : issue s = 0x20#8 := by
  simp only [issue, hs]
  rfl

/-- Settles O19: the pseudocode of R123, with the next state of `afterInit32_eq`. -/
theorem init32Result : Obligations.Init32Result := by
  refine ⟨rfl, fun s => issue_init32, fun s _ => ?_⟩
  rw [← afterInit32_eq]
  rfl

/-- Settles O22: `finalH` is the two MSX rounds of R126. -/
theorem fin32Result : Obligations.Fin32Result := by
  refine ⟨rfl, fun s => issue_fin32, ?_⟩
  rintro s h1 h2 rfl rfl
  rfl

/-! ### WSTEP (R124) and TSTEP (R125) -/

theorem reads_wstep (s : State) : reads s .wstep = [⟨s.ptr, .word⟩] := rfl

/-- One request that is not served is the first failure, and the only request issued. -/
theorem single_failure {cfg : Config} {q : ReadReq} (h : served cfg q = false) :
    firstFailure cfg [q] = some q.addr ∧ issuedReads cfg [q] = [q] := by
  simp [firstFailure, issuedReads, h]

/-- Settles O20: the writes after a word that is served, BUSERR at `PTR` after one that is not. -/
theorem wstepResult : Obligations.WstepResult := by
  refine ⟨rfl, fun s => ⟨fun hserved => ?_, fun hfail => ?_⟩⟩
  · rw [exec_wstep, reads_wstep, readThen_of_served (by simpa using hserved)]
    rfl
  · obtain ⟨hfirst, hissued⟩ := single_failure hfail
    rw [exec_wstep, reads_wstep, readThen_of_failure hfirst, hissued]

/-- The register writes of TSTEP, written out (R125). -/
theorem writeTstep_eq (n : BitVec 3) (k : Word) (s : State) : writeTstep n k s = { s with
    h := ((s.h + k) * s.cfg.m) ^^^ (((s.h + k) * s.cfg.m) >>> 16)
    ptr := s.ptr + BitVec.ofNat 32 n.toNat
    rem := 0#32
    seq := .fin } := by
  rw [BitVec.ofNat_toNat]
  rfl

/-- Settles O21: the writes after bytes that are all served, BUSERR at the first that is not. -/
theorem tstepResult : Obligations.TstepResult := by
  refine ⟨rfl, rfl, rfl, fun s n hn => ?_⟩
  rw [FaultsAtFirstFailure, exec_tstep s (legalArg13_iff.2 hn)]
  refine ⟨fun hserved => ?_, fun a hfail => ?_⟩
  · rw [readThen_of_served hserved, writeTstep_eq]
    rfl
  · rw [readThen_of_failure hfail]

end Sys2Proof.Proofs.SimpleMixer
end

section
/-! PROOFS. Commands without recombination: every SIMPLE one, and an ALIGNED one over a word-aligned buffer or fewer
than 4 bytes (spec/42_aligned_mixer.md R155). They run INIT32, the WSTEPs, a TSTEP and FIN32 (spec/41_simple_mixer.md
R127); here are the digest they deliver (R128) and the number of their steps (spec/70_reset_and_hazards.md R288). -/

namespace Sys2Proof.Proofs.WordPath

open Sys2Proof Sys2Proof.Machine

/-! ### Runs, whatever the events (R11) -/

theorem run_succ_inv {k : Nat} {s t : State} (h : Host.Core.run core (k + 1) s = .next t) :
    ∃ u, step s = .next u ∧ Host.Core.run core k u = .next t := by
  have hcore : core.step s = step s := rfl
  simp only [Host.Core.run, hcore] at h
  cases hstep : step s <;> simp only [hstep, reduceCtorEq] at h
  exact ⟨_, rfl, h⟩

theorem busy_of_busyBefore {k : Nat} {s : State} (h : BusyBefore (k + 1) s) : s.busy = true := by
  obtain ⟨u, hu, hb⟩ := h 0 (Nat.succ_pos k)
  cases hu
  exact hb

theorem busyBefore_next {k : Nat} {s u : State} (h : BusyBefore (k + 1) s) (hstep : step s = .next u) :
    BusyBefore k u := by
  intro j hj
  rw [← QuietRun.run_succ hstep]
  exact h (j + 1) (by omega)

/-- What every step of a busy machine keeps holds after a run that was busy before each of its steps. -/
theorem run_keeps {P : State → Prop} (hP : ∀ s t, s.busy = true → P s → step s = .next t → P t) (k : Nat)
    {s t : State} (hb : BusyBefore k s) (hs : P s) (hr : Host.Core.run core k s = .next t) : P t := by
  induction k generalizing s with
  | zero => cases hr; exact hs
  | succ k ih =>
    obtain ⟨u, hstep, hr⟩ := run_succ_inv hr
    exact ih (busyBefore_next hb hstep) (hP s u (busy_of_busyBefore hb) hs hstep) hr

/-- A run whose steps each take one off what is left, the last ending DONE, takes exactly that many steps. -/
theorem run_counts {P : State → Prop} {left : State → Nat} (hbusy : ∀ s, P s → s.busy = true)
    (hP : ∀ s, P s → ∃ t, step s = .next t ∧ ((left s = 1 ∧ t.done = true) ∨ (P t ∧ left s = left t + 1)))
    (k : Nat) {s : State} (hs : P s) (hk : left s = k) :
    BusyBefore k s ∧ ∃ t, Host.Core.run core k s = .next t ∧ t.done = true := by
  induction k generalizing s with
  | zero =>
    obtain ⟨t, -, ⟨h1, -⟩ | ⟨-, h1⟩⟩ := hP s hs <;> omega
  | succ k ih =>
    obtain ⟨u, hstep, ⟨h1, hdone⟩ | ⟨hu, h1⟩⟩ := hP s hs
    · obtain rfl : k = 0 := by omega
      exact ⟨QuietRun.busyBefore_one (hbusy s hs), u, QuietRun.run_one hstep, hdone⟩
    · obtain ⟨hbefore, t, hrun, hdone⟩ := ih hu (by omega)
      exact ⟨QuietRun.busyBefore_succ (hbusy s hs) hstep hbefore, t, (QuietRun.run_succ hstep k).trans hrun, hdone⟩

/-- The micro-operation of a MIXER's turn leaves its row's result, or BUSERR (R241, R254). -/
theorem mixer_next_cases {s t : State} {i : Instr} (h : Consistent s) (hq : s.seq ≠ .idle)
    (hi : decodeUop (issue s) = .instr i) (he : exec i s = .next t) :
    t = rowResult s ∨ ∃ a log, t = busFaulted a log s := by
  have hseq := Registers.sequencerOk_of_consistent h
  obtain rfl : rowInstr s = i := Decoded.instr.inj ((decode_issue hseq hq).symm.trans hi)
  rw [exec_row hseq hq] at he
  cases hf : firstFailure s.cfg (reads s (rowInstr s)) with
  | none => simp only [hf] at he; cases he; exact .inl rfl
  | some a => simp only [hf] at he; cases he; exact .inr ⟨a, _, rfl⟩

/-! ### The path INIT, WORDS, TAIL, FIN (R127, R241) -/

/-- A command that reads whole words until its tail: the bytes consumed before the tail are a multiple of 4. -/
def OnWordPath (s : State) : Prop :=
  s.modeq ≠ .wide ∧
  ((s.seq = .init ∧ afterInit32 s = nw s.len) ∨
   ((s.seq = .words ∨ s.seq = .tail) ∧ s.rem.toNat % 4 = s.len.toNat % 4) ∨
   s.seq = .fin)

theorem onWordPath_of_nw {s : State} (hm : s.modeq ≠ .wide) (hq : s.seq = nw s.rem)
    (hr : s.rem.toNat % 4 = s.len.toNat % 4) : OnWordPath s := by
  refine ⟨hm, .inr ?_⟩
  unfold nw at hq
  split_ifs at hq
  · exact .inl ⟨.inl hq, hr⟩
  · exact .inl ⟨.inr hq, hr⟩
  · exact .inr hq

theorem nw_ne_init (r : Word) : nw r ≠ .init := by
  unfold nw
  split_ifs <;> simp

section
variable {s : State}

theorem rowResult_words (hs : s.seq = .words) :
    rowResult s = writeWstep (memWord s s.ptr) (logReads (reads s (rowInstr s)) s) := by
  simp only [rowResult, hs]

theorem rowResult_tail (hs : s.seq = .tail) : rowResult s
    = writeTstep (BitVec.ofNat 3 s.rem.toNat) (tailValue s s.ptr s.rem.toNat) (logReads (reads s (rowInstr s)) s) := by
  simp only [rowResult, hs]

/-- The command starts on the word path unless recombination follows INIT32 (R127, R155). -/
theorem onWordPath_of_started (hs : s.seq = .init)
    (h : s.modeq = .simple ∨ s.modeq = .aligned ∧ (s.addr.toNat % 4 = 0 ∨ s.len.toNat < 4)) : OnWordPath s := by
  have hm : s.modeq ≠ .wide := by rcases h with h | ⟨h, -⟩ <;> simp [h]
  refine ⟨hm, .inl ⟨hs, ?_⟩⟩
  have hno : ¬ (s.modeq = .aligned ∧ s.addr.toNat % 4 ≠ 0 ∧ s.len.toNat ≥ 4) := by
    rintro ⟨ha, hmis, h4⟩
    rcases h with h | ⟨-, h⟩
    · simp [ha] at h
    · omega
  rw [SimpleMixer.afterInit32_eq, if_neg hno, nw]

end

/-- A running command on the word path. -/
structure WordRun (s : State) : Prop where
  consistent : Consistent s
  busy : s.busy = true
  path : OnWordPath s

section
variable {s : State} (h : WordRun s)
include h

theorem WordRun.sequencerOk : SequencerOk s := Registers.sequencerOk_of_consistent h.consistent

theorem WordRun.modeq_ne_wide : s.modeq ≠ .wide := h.path.1

theorem WordRun.cursorOk (hq : s.seq ≠ .init) : CursorOk s := by
  obtain ⟨-, -, hc, -⟩ := h.consistent
  exact hc h.busy hq

theorem WordRun.operandsOk : OperandsOk s := by
  obtain ⟨-, ho, -⟩ := h.consistent
  exact ho h.busy

theorem WordRun.rem_le_len (hq : s.seq ≠ .init) : s.rem.toNat ≤ s.len.toNat := (h.cursorOk hq).1

theorem WordRun.rem_of_fin (hs : s.seq = .fin) : s.rem = 0#32 := by
  obtain ⟨-, -, -, -, -, hfin, -⟩ := h.sequencerOk
  exact (hfin hs).2

/-- The four rows of the path, with what R241 says of the bytes left in each. -/
theorem WordRun.rows :
    (s.seq = .init ∧ afterInit32 s = nw s.len) ∨
    (s.seq = .words ∧ 4 ≤ s.rem.toNat ∧ s.rem.toNat % 4 = s.len.toNat % 4) ∨
    (s.seq = .tail ∧ 1 ≤ s.rem.toNat ∧ s.rem.toNat ≤ 3 ∧ s.rem.toNat % 4 = s.len.toNat % 4) ∨
    (s.seq = .fin ∧ s.rem = 0#32) := by
  obtain ⟨hwords, -, -, -, htail, -⟩ := h.sequencerOk
  obtain ⟨-, hinit | ⟨hs | hs, hr⟩ | hs⟩ := h.path
  · exact .inl hinit
  · obtain ⟨-, h4, -⟩ := hwords hs
    exact .inr (.inl ⟨hs, h4, hr⟩)
  · obtain ⟨-, h1, h3⟩ := htail hs
    exact .inr (.inr (.inl ⟨hs, h1, h3, hr⟩))
  · exact .inr (.inr (.inr ⟨hs, h.rem_of_fin hs⟩))

theorem WordRun.seq_ne_idle : s.seq ≠ .idle := by
  obtain ⟨hs, -⟩ | ⟨hs, -⟩ | ⟨hs, -⟩ | ⟨hs, -⟩ := h.rows <;> simp [hs]

theorem WordRun.seq_ne_wfins : s.seq ≠ .wfins := by
  obtain ⟨hs, -⟩ | ⟨hs, -⟩ | ⟨hs, -⟩ | ⟨hs, -⟩ := h.rows <;> simp [hs]

/-- Each row of the path but the last leads to a row of the path. -/
theorem WordRun.path_rowResult (hlast : s.seq ≠ .fin) : OnWordPath (rowResult s) := by
  have hm := h.modeq_ne_wide
  obtain ⟨hs, hnext⟩ | ⟨hs, h4, hr⟩ | ⟨hs, -⟩ | ⟨hs, -⟩ := h.rows
  · rw [QuietRun.rowResult_init32 hs hm]
    exact onWordPath_of_nw hm hnext rfl
  · have hrem : (s.rem - 4#32).toNat = s.rem.toNat - 4 := sub_toNat h4
    rw [rowResult_words hs]
    refine onWordPath_of_nw hm rfl ?_
    simp only [writeWstep_rem, writeWstep_len, logReads_rem, logReads_len, hrem]
    omega
  · rw [rowResult_tail hs]
    exact ⟨hm, .inr (.inr rfl)⟩
  · exact absurd hs hlast

/-- The command runs on, over the same buffer and the same port, with the same events pending. -/
theorem WordRun.wordRun_rowResult (hlast : s.seq ≠ .fin) :
    WordRun (rowResult s) ∧ (rowResult s).addr = s.addr ∧ (rowResult s).len = s.len ∧ (rowResult s).cfg = s.cfg ∧
      (rowResult s).mem = s.mem ∧ (rowResult s).agenda = s.agenda := by
  obtain ⟨hbusy, -, -, -, -, haddr, hlen, -, -, hcfg, hmem, hagenda, -⟩ := rowResult_frame s hlast h.seq_ne_wfins
  exact ⟨⟨Registers.consistent_rowResult h.consistent h.busy h.seq_ne_idle, hbusy.trans h.busy,
    h.path_rowResult hlast⟩, haddr, hlen, hcfg, hmem, hagenda⟩

end

/-! ### The digest of the bytes that are left (R128) -/

/-- What SimpleDigest makes of the last `r` bytes, from word index `i` on, once `h` stands for the words before. -/
def loopDigest (cfg : Config) (B : Nat → Byte) (i r : Nat) (h : Word) : Word :=
  let k := simpleLoop cfg B (r / 4) i h
  finalH cfg (if r % 4 ≠ 0 then mix cfg k (bufferTail B (4 * (i + r / 4)) (r % 4)) else k)

theorem simpleDigest_eq_loopDigest (cfg : Config) (B : Nat → Byte) (len seed : Word) :
    simpleDigest cfg B len.toNat seed = loopDigest cfg B 0 len.toNat (initialH cfg seed len) := by
  simp only [simpleDigest, loopDigest, finalH, initialH, BitVec.ofNat_toNat, BitVec.setWidth_eq, Nat.zero_add]

/-- A whole word is left: it is mixed in first. -/
theorem loopDigest_word (cfg : Config) (B : Nat → Byte) (i : Nat) {r : Nat} (h : Word) (h4 : 4 ≤ r) :
    loopDigest cfg B i r h = loopDigest cfg B (i + 1) (r - 4) (mix cfg h (bufferWord B (4 * i))) := by
  have hq : r / 4 = (r - 4) / 4 + 1 := by omega
  have hmod : (r - 4) % 4 = r % 4 := by omega
  simp only [loopDigest, hq, hmod, simpleLoop, show i + ((r - 4) / 4 + 1) = i + 1 + (r - 4) / 4 by omega]

theorem loopDigest_tail (cfg : Config) (B : Nat → Byte) (i : Nat) {r : Nat} (h : Word) (h1 : 1 ≤ r) (h3 : r ≤ 3) :
    loopDigest cfg B i r h = finalH cfg (mix cfg h (bufferTail B (4 * i) r)) := by
  have hq : r / 4 = 0 := by omega
  have hmod : r % 4 = r := by omega
  simp only [loopDigest, hq, hmod, simpleLoop, Nat.add_zero, if_pos (show r ≠ 0 by omega)]

theorem loopDigest_zero (cfg : Config) (B : Nat → Byte) (i : Nat) (h : Word) :
    loopDigest cfg B i 0 h = finalH cfg h := rfl

/-! ### A running command and the digest it owes -/

/-- The digest a command on the word path is to deliver, if its buffer holds the bytes `B`. -/
def digestOwed (B : Nat → Byte) (s : State) : Word :=
  if s.seq = .init then simpleDigest s.cfg B s.len.toNat s.seed
  else loopDigest s.cfg B ((s.len.toNat - s.rem.toNat) / 4) s.rem.toNat s.h

theorem digestOwed_of_init {s : State} (B : Nat → Byte) (hs : s.seq = .init) :
    digestOwed B s = simpleDigest s.cfg B s.len.toNat s.seed := if_pos hs

theorem digestOwed_of_ne_init {s : State} (B : Nat → Byte) (hs : s.seq ≠ .init) :
    digestOwed B s = loopDigest s.cfg B ((s.len.toNat - s.rem.toNat) / 4) s.rem.toNat s.h := if_neg hs

/-- `s` runs a command on the word path over the bytes `B`, which no pending store touches, and owes the digest `d`. -/
structure Hashing (B : Nat → Byte) (d : Word) (s : State) : Prop extends WordRun s where
  bytes : ∀ i < s.len.toNat, bufferByte s i = B i
  stable : StableBuffer s
  owes : digestOwed B s = d

/-- What holds of a command after each step: it still runs and owes the digest, or it has ended, and if DONE then with
that digest. -/
def Delivers (B : Nat → Byte) (d : Word) (s : State) : Prop :=
  (s.busy = true → Hashing B d s) ∧ (s.done = true → s.digest = d)

section
variable {B : Nat → Byte} {d : Word} {s : State} (h : Hashing B d s)
include h

theorem Hashing.popped {u : State} (hu : Popped s u) : Hashing B d u := by
  have stable : StableBuffer u := by
    intro a b hmem hin
    refine h.stable a b ?_ (MemoryPort.inBuffer_popped hu hin)
    rcases hu with ⟨-, rfl⟩ | ⟨e, ha, -⟩
    · exact hmem
    · rw [ha]
      exact List.mem_cons_of_mem _ hmem
  have hpop := Registers.popped_eq hu
  refine ⟨⟨Registers.consistent_popped hu h.consistent, ?_, ?_⟩, ?_, stable, ?_⟩ <;> rw [hpop]
  · exact h.busy
  · exact h.path
  · exact h.bytes
  · exact h.owes

/-! ### The bytes at the cursor -/

/-- The byte at offset `i` from `PTR` is the buffer's, `LEN - REM` bytes being consumed (R28). -/
theorem Hashing.memByte_ptr (hq : s.seq ≠ .init) {i : Nat} (hi : i < s.rem.toNat) :
    memByte s (s.ptr + BitVec.ofNat 32 i) = (B (s.len.toNat - s.rem.toNat + i)).setWidth 32 := by
  have hrem := h.rem_le_len hq
  rw [← h.bytes _ (by omega), memByte, bufferByte, MemoryPort.cursor_offset_toNat (h.cursorOk hq) h.operandsOk hi,
    Nat.add_assoc]

theorem Hashing.memByte_ptr_zero (hq : s.seq ≠ .init) (hi : 0 < s.rem.toNat) :
    memByte s s.ptr = (B (s.len.toNat - s.rem.toNat)).setWidth 32 := by
  simpa using h.memByte_ptr hq hi

/-- The next word does not run past the address space, because the buffer does not (R214). -/
theorem Hashing.word_fits (hq : s.seq ≠ .init) (h4 : 4 ≤ s.rem.toNat) : s.ptr.toNat + 3 < 2 ^ 32 := by
  have hlast := MemoryPort.cursor_offset_toNat (h.cursorOk hq) h.operandsOk (i := 3) (by omega)
  have hfirst := MemoryPort.cursor_offset_toNat (h.cursorOk hq) h.operandsOk (i := 0) (by omega)
  have hlt := (s.ptr + BitVec.ofNat 32 3).isLt
  rw [BitVec.add_zero] at hfirst
  omega

theorem Hashing.memWord_ptr (hq : s.seq ≠ .init) (h4 : 4 ≤ s.rem.toNat) :
    memWord s s.ptr = bufferWord B (s.len.toNat - s.rem.toNat) := by
  rw [MemoryPort.memWord_eq_bytes s (h.word_fits hq h4), h.memByte_ptr_zero hq (by omega),
    h.memByte_ptr hq (i := 1) (by omega), h.memByte_ptr hq (i := 2) (by omega),
    h.memByte_ptr hq (i := 3) (by omega), bufferWord]

theorem Hashing.tailValue_ptr (hq : s.seq ≠ .init) (h1 : 1 ≤ s.rem.toNat) :
    tailValue s s.ptr s.rem.toNat = bufferTail B (s.len.toNat - s.rem.toNat) s.rem.toNat := by
  have hone : 2 ≤ s.rem.toNat → _ := h.memByte_ptr hq (i := 1)
  have htwo : 3 ≤ s.rem.toNat → _ := h.memByte_ptr hq (i := 2)
  rw [tailValue, bufferTail, if_pos h1, h.memByte_ptr_zero hq h1]
  split_ifs with h3 h2 h2
  · rw [htwo h3, hone h2]
  · omega
  · rw [hone h2]
  · rfl

/-! ### Every step keeps the digest owed -/

/-- The bytes consumed are whole words, up to the tail. -/
theorem Hashing.wordIndex (hq : s.seq ≠ .init) (hr : s.rem.toNat % 4 = s.len.toNat % 4) :
    4 * ((s.len.toNat - s.rem.toNat) / 4) = s.len.toNat - s.rem.toNat := by
  have := h.rem_le_len hq
  omega

theorem Hashing.owed_wstep (hs : s.seq = .words) (h4 : 4 ≤ s.rem.toNat) (hr : s.rem.toNat % 4 = s.len.toNat % 4) :
    digestOwed B (rowResult s) = digestOwed B s := by
  have hq : s.seq ≠ .init := by simp [hs]
  have hle := h.rem_le_len hq
  have hrem : (s.rem - 4#32).toNat = s.rem.toNat - 4 := sub_toNat h4
  have hidx : (s.len.toNat - (s.rem.toNat - 4)) / 4 = (s.len.toNat - s.rem.toNat) / 4 + 1 := by omega
  rw [rowResult_words hs, digestOwed_of_ne_init B (nw_ne_init _), digestOwed_of_ne_init B hq,
    loopDigest_word _ _ _ _ h4, h.wordIndex hq hr, ← h.memWord_ptr hq h4]
  simp only [writeWstep_h, writeWstep_rem, writeWstep_len, writeWstep_cfg, logReads_h, logReads_rem, logReads_len,
    logReads_cfg, hrem, hidx]

theorem Hashing.owed_tstep (hs : s.seq = .tail) (h1 : 1 ≤ s.rem.toNat) (h3 : s.rem.toNat ≤ 3)
    (hr : s.rem.toNat % 4 = s.len.toNat % 4) : digestOwed B (rowResult s) = digestOwed B s := by
  have hq : s.seq ≠ .init := by simp [hs]
  rw [digestOwed_of_ne_init B hq, loopDigest_tail _ _ _ _ h1 h3, h.wordIndex hq hr, ← h.tailValue_ptr hq h1,
    rowResult_tail hs, digestOwed_of_ne_init B (by simp)]
  exact loopDigest_zero _ _ _ _

theorem Hashing.owed_rowResult (hlast : s.seq ≠ .fin) : digestOwed B (rowResult s) = d := by
  rw [← h.owes]
  obtain ⟨hs, hnext⟩ | ⟨hs, h4, hr⟩ | ⟨hs, h1, h3, hr⟩ | ⟨hs, -⟩ := h.rows
  · rw [digestOwed_of_init B hs, simpleDigest_eq_loopDigest, QuietRun.rowResult_init32 hs h.modeq_ne_wide,
      digestOwed_of_ne_init B (by rw [hnext]; exact nw_ne_init _), Nat.sub_self]
  · exact h.owed_wstep hs h4 hr
  · exact h.owed_tstep hs h1 h3 hr
  · exact absurd hs hlast

theorem Hashing.hashing_rowResult (hlast : s.seq ≠ .fin) : Hashing B d (rowResult s) := by
  obtain ⟨hrun, haddr, hlen, -, hmem, hagenda⟩ := h.wordRun_rowResult hlast
  refine ⟨hrun, ?_, ?_, h.owed_rowResult hlast⟩
  · intro i hi
    rw [hlen] at hi
    rw [bufferByte, hmem, haddr]
    exact h.bytes i hi
  · intro a b hin
    rw [hagenda] at hin
    rw [InBuffer, haddr, hlen]
    exact h.stable a b hin

/-- FIN32 delivers what is owed, no byte being left. -/
theorem Hashing.digest_fin (hs : s.seq = .fin) : (rowResult s).digest = d := by
  have hrem : s.rem.toNat = 0 := by rw [h.rem_of_fin hs]; rfl
  rw [← h.owes, QuietRun.rowResult_fin hs, finish_digest, digestOwed_of_ne_init B (by simp [hs]), hrem,
    loopDigest_zero]

/-- A store outside the buffer (R72). -/
theorem Hashing.hashing_storeByte {a : Addr} (b : Byte) (ha : ¬ InBuffer s a.toNat) : Hashing B d (storeByte a b s) := by
  refine ⟨⟨h.consistent, h.busy, h.path⟩, fun i hi => ?_, h.stable, h.owes⟩
  have hi : i < s.len.toNat := hi
  have hne : s.addr.toNat + i ≠ a.toNat := by
    intro e
    exact ha ⟨by omega, by omega⟩
  rw [← h.bytes i hi]
  exact readByte_writeByte_ne s.mem b hne

theorem Hashing.delivers : Delivers B d s := by
  have hd := (Registers.display_of_busy h.consistent h.busy).1
  exact ⟨fun _ => h, fun hdone => by simp [hd] at hdone⟩

theorem Hashing.step_delivers {t : State} (hstep : step s = .next t) : Delivers B d t := by
  obtain ⟨u, hu, hkind⟩ := step_kinds hstep
  have hpop := h.popped hu
  rcases hkind with rfl | ⟨i, -, -, hq, hi, he⟩ | ⟨i, hi, -, he⟩ | ⟨hb, -⟩ | ⟨-, rfl⟩ | ⟨a, b, ha, rfl⟩
  · exact hpop.delivers
  · rcases mixer_next_cases hpop.consistent hq hi he with rfl | ⟨a, log, rfl⟩
    · by_cases hlast : u.seq = .fin
      · exact ⟨fun hb => by simp [QuietRun.rowResult_fin hlast] at hb, fun _ => hpop.digest_fin hlast⟩
      · exact (hpop.hashing_rowResult hlast).delivers
    · exact ⟨nofun, nofun⟩
  · rcases exec_host_cases hi he with ⟨off, -, -, rfl⟩ | rfl | ⟨hb, -⟩
    · have hread : Hashing B d (giveToHost (regRead u off) u) :=
        ⟨⟨hpop.consistent, hpop.busy, hpop.path⟩, hpop.bytes, hpop.stable, hpop.owes⟩
      exact hread.delivers
    · exact hpop.delivers
    · simp [hpop.busy] at hb
  · simp [hpop.busy] at hb
  · exact ⟨nofun, nofun⟩
  · have hout : ¬ InBuffer u a.toNat := fun hin =>
      h.stable a b (by rw [ha]; exact List.mem_cons_self) (MemoryPort.inBuffer_popped hu hin)
    exact (hpop.hashing_storeByte b hout).delivers

end

/-- An accepted command on the word path owes SimpleDigest of its buffer, and delivers it if it ends DONE. -/
theorem digest_of_run {s t : State} {k : Nat} (hc : Consistent s) (hb : s.busy = true) (hs : s.seq = .init)
    (hp : OnWordPath s) (hstable : StableBuffer s) (hbusy : BusyBefore k s)
    (hrun : Host.Core.run core k s = .next t) (hdone : t.done = true) :
    t.digest = simpleDigest s.cfg (bufferByte s) s.len.toNat s.seed := by
  have start : Hashing (bufferByte s) (simpleDigest s.cfg (bufferByte s) s.len.toNat s.seed) s :=
    ⟨⟨hc, hb, hp⟩, fun _ _ => rfl, hstable, digestOwed_of_init _ hs⟩
  have keeps := run_keeps (P := Delivers (bufferByte s) (simpleDigest s.cfg (bufferByte s) s.len.toNat s.seed))
    (fun u v hu hP hstep => (hP.1 hu).step_delivers hstep) k hbusy start.delivers hrun
  exact keeps.2 hdone

/-- Settles O54: every step keeps the digest the command owes, and only FIN32 ends it DONE. -/
theorem simpleCommandDigest : Obligations.SimpleCommandDigest := by
  rintro s t k hc ⟨hb, hs, hm⟩ hstable hbusy hrun hdone
  exact digest_of_run hc hb hs (onWordPath_of_started hs (.inl hm)) hstable hbusy hrun hdone

/-! ### The number of steps (R127, R155, R288) -/

/-- The steps a command on the word path has left: a WSTEP for each word, a TSTEP for a tail that is not empty, FIN32,
and before them INIT32. -/
def stepsLeft (s : State) : Nat :=
  if s.seq = .init then 2 + s.len.toNat / 4 + (if s.len.toNat % 4 ≠ 0 then 1 else 0)
  else 1 + s.rem.toNat / 4 + (if s.rem.toNat % 4 ≠ 0 then 1 else 0)

theorem stepsLeft_of_init {s : State} (hs : s.seq = .init) :
    stepsLeft s = 2 + s.len.toNat / 4 + (if s.len.toNat % 4 ≠ 0 then 1 else 0) := if_pos hs

theorem stepsLeft_of_ne_init {s : State} (hs : s.seq ≠ .init) :
    stepsLeft s = 1 + s.rem.toNat / 4 + (if s.rem.toNat % 4 ≠ 0 then 1 else 0) := if_neg hs

theorem stepsLeft_of_rem_zero {s : State} (hs : s.seq = .fin) (hr : s.rem = 0#32) : stepsLeft s = 1 := by
  rw [stepsLeft_of_ne_init (by simp [hs]), hr]
  rfl

/-- A command on the word path that is left to itself over a readable buffer, none of whose words the port
refuses for its alignment: it takes any address, or they stand at multiples of 4, or there is no word. -/
structure QuietRunning (s : State) : Prop extends WordRun s where
  agenda : s.agenda = []
  readable : ReadableBuffer s
  words : s.cfg.unalignedOk = true ∨ s.addr.toNat % 4 = 0 ∨ s.len.toNat < 4

section
variable {s : State} (h : QuietRunning s)
include h

/-- `PTR` keeps the alignment of ADDR at every WSTEP (R124). -/
theorem QuietRunning.word_allowed (hs : s.seq = .words) (h4 : 4 ≤ s.rem.toNat)
    (hr : s.rem.toNat % 4 = s.len.toNat % 4) : refusedForAlignment s.cfg ⟨s.ptr, .word⟩ = false := by
  obtain ⟨hle, hptr, -⟩ := h.cursorOk (by simp [hs])
  rw [← Bool.not_eq_true, MemoryPort.refusedForAlignment_word]
  rintro ⟨hmis, hport⟩
  rcases h.words with hok | haddr | hshort
  · simp [hport] at hok
  · rw [hptr, BitVec.toNat_add, BitVec.toNat_sub] at hmis
    have := s.len.isLt
    omega
  · omega

theorem QuietRunning.not_refused {q : ReadReq} (hq : q ∈ reads s (rowInstr s)) :
    refusedForAlignment s.cfg q = false := by
  obtain ⟨hs, -⟩ | ⟨hs, h4, hr⟩ | ⟨hs, -⟩ | ⟨hs, -⟩ := h.rows
  · simp [QuietRun.reads_row_eq_nil (.inl hs)] at hq
  · simp only [rowInstr, hs, SimpleMixer.reads_wstep, List.mem_singleton] at hq
    subst hq
    exact h.word_allowed hs h4 hr
  · simp only [rowInstr, hs, reads, tailReqs, byteReqs, List.mem_map] at hq
    obtain ⟨a, -, rfl⟩ := hq
    exact MemoryPort.refusedForAlignment_byte _ _
  · simp [QuietRun.reads_row_eq_nil (.inr (.inl hs))] at hq

theorem QuietRunning.reads_served : (reads s (rowInstr s)).all (served s.cfg) = true := by
  rw [List.all_eq_true]
  intro q hq
  simp only [served, h.not_refused hq, Bool.not_false, Bool.true_and, List.all_eq_true]
  exact fun a ha => h.readable a (MemoryPort.row_reads_inBuffer h.consistent h.busy h.seq_ne_idle q hq a ha)

theorem QuietRunning.quietRunning_rowResult (hlast : s.seq ≠ .fin) : QuietRunning (rowResult s) := by
  obtain ⟨hrun, haddr, hlen, hcfg, -, hagenda⟩ := h.wordRun_rowResult hlast
  refine ⟨hrun, hagenda.trans h.agenda, ?_, ?_⟩
  · intro a ha
    rw [InBuffer, haddr, hlen] at ha
    rw [hcfg]
    exact h.readable a ha
  · rw [hcfg, haddr, hlen]
    exact h.words

theorem QuietRunning.stepsLeft_rowResult (hlast : s.seq ≠ .fin) :
    stepsLeft s = stepsLeft (rowResult s) + 1 := by
  obtain ⟨hs, hnext⟩ | ⟨hs, h4, -⟩ | ⟨hs, h1, h3, -⟩ | ⟨hs, -⟩ := h.rows
  · rw [stepsLeft_of_init hs, QuietRun.rowResult_init32 hs h.modeq_ne_wide,
      stepsLeft_of_ne_init (by rw [hnext]; exact nw_ne_init _)]
    dsimp only
    omega
  · have hrem : (s.rem - 4#32).toNat = s.rem.toNat - 4 := sub_toNat h4
    rw [stepsLeft_of_ne_init (by simp [hs]), rowResult_words hs, stepsLeft_of_ne_init (nw_ne_init _), writeWstep_rem,
      logReads_rem, hrem, show (s.rem.toNat - 4) % 4 = s.rem.toNat % 4 by omega]
    omega
  · rw [stepsLeft_of_ne_init (by simp [hs]), if_pos (show s.rem.toNat % 4 ≠ 0 by omega), rowResult_tail hs,
      stepsLeft_of_rem_zero rfl rfl]
    omega
  · exact absurd hs hlast

/-- Every step takes one off what is left; the last is FIN32, and it ends DONE. -/
theorem QuietRunning.step_counts :
    ∃ t, step s = .next t ∧ ((stepsLeft s = 1 ∧ t.done = true) ∨ (QuietRunning t ∧ stepsLeft s = stepsLeft t + 1)) := by
  refine ⟨_, QuietRun.step_row h.agenda h.sequencerOk h.busy h.seq_ne_idle h.reads_served, ?_⟩
  by_cases hlast : s.seq = .fin
  · exact .inl ⟨stepsLeft_of_rem_zero hlast (h.rem_of_fin hlast), by rw [QuietRun.rowResult_fin hlast, finish_done]⟩
  · exact .inr ⟨h.quietRunning_rowResult hlast, h.stepsLeft_rowResult hlast⟩

end

/-- A quiet command takes R288's number of steps from its acceptance. -/
theorem quiet_run_length {s : State} (h : QuietRunning s) (hs : s.seq = .init) :
    BusyBefore (2 + s.len.toNat / 4 + (if s.len.toNat % 4 ≠ 0 then 1 else 0)) s ∧
    ∃ t, Host.Core.run core (2 + s.len.toNat / 4 + (if s.len.toNat % 4 ≠ 0 then 1 else 0)) s = .next t ∧
      t.done = true :=
  run_counts (P := QuietRunning) (fun _ h => h.busy) (fun _ h => h.step_counts) _ h (stepsLeft_of_init hs)

/-- Settles O57: the accepted command is a quiet one on the word path, with R288's count of steps left. -/
theorem simpleRunLength : Obligations.SimpleRunLength := by
  rintro s n hc ha rfl hread (⟨⟨hb, hs, hm⟩, hwords⟩ | ⟨⟨hb, hs, hm⟩, hwords⟩)
  · have hpath := onWordPath_of_started hs (.inl hm)
    exact quiet_run_length ⟨⟨hc, hb, hpath⟩, ha, hread, hwords⟩ hs
  · have hpath := onWordPath_of_started hs (.inr ⟨hm, hwords⟩)
    exact quiet_run_length ⟨⟨hc, hb, hpath⟩, ha, hread, .inr hwords⟩ hs

end Sys2Proof.Proofs.WordPath
end

section
/-! PROOFS. The statements of the aligned reader about single functions and micro-operations (spec/42_aligned_mixer.md):
REC (R150, R151), and ASETUP, ASTEP and APACK (R152 to R154) with their next states (spec/45_sequencer.md R241). -/

namespace Sys2Proof.Proofs.AlignedMixer

open Sys2Proof Sys2Proof.Machine

/-! ### REC (R150, R151) -/

/-- The shifted terms of REC lie in disjoint bits, so it is their sum: the upper bits of `t`, the low bits of `d`. -/
theorem recombine_toNat {sr sl : BitVec 5} (h : sr.toNat + sl.toNat = 32) (t d : Word) :
    (recombine sr sl t d).toNat = t.toNat / 2 ^ sr.toNat + 2 ^ sl.toNat * (d.toNat % 2 ^ sr.toNat) := by
  have hpow : 2 ^ 32 = 2 ^ sl.toNat * 2 ^ sr.toNat := by rw [← pow_add, Nat.add_comm, h]
  have low : t.toNat / 2 ^ sr.toNat < 2 ^ sl.toNat :=
    Nat.div_lt_of_lt_mul (by rw [Nat.mul_comm, ← hpow]; exact t.isLt)
  have high : d.toNat * 2 ^ sl.toNat % 2 ^ 32 = 2 ^ sl.toNat * (d.toNat % 2 ^ sr.toNat) := by
    rw [hpow, Nat.mul_comm d.toNat, Nat.mul_mod_mul_left]
  rw [recombine, BitVec.toNat_or, BitVec.toNat_ushiftRight, BitVec.toNat_shiftLeft, Nat.shiftRight_eq_div_pow,
    Nat.shiftLeft_eq, high, Nat.or_comm, ← Nat.two_pow_add_eq_or_of_lt low, Nat.add_comm]

/-- Settles O25: the shift amounts of R150 add up to 32. -/
theorem recombineJoinsBytes : Obligations.RecombineJoinsBytes := by
  intro a t d ha
  have hrange : 1 ≤ a ∧ a ≤ 3 := by
    simp only [List.mem_cons, List.not_mem_nil, or_false] at ha
    omega
  have hsr : (BitVec.ofNat 5 (8 * a)).toNat = 8 * a := by rw [BitVec.toNat_ofNat]; omega
  have hsl : (BitVec.ofNat 5 (8 * (4 - a))).toNat = 8 * (4 - a) := by rw [BitVec.toNat_ofNat]; omega
  rw [recombine_toNat (by rw [hsr, hsl]; omega), hsr, hsl]

/-! ### ASETUP (R152), ASTEP (R153) and APACK (R154) -/

/-- The register writes of ASETUP, written out (R150, R152). -/
theorem writeAsetup_eq (a : BitVec 3) (g : Word) (s : State) : writeAsetup a g s = { s with
    t := g <<< (8 * a.toNat)
    sl := BitVec.ofNat 5 (8 * (4 - a.toNat))
    sr := BitVec.ofNat 5 (8 * a.toNat)
    ptr := s.ptr + BitVec.ofNat 32 (4 - a.toNat)
    rem := s.rem - BitVec.ofNat 32 (4 - a.toNat)
    seq := if (s.rem - BitVec.ofNat 32 (4 - a.toNat)).toNat ≥ 4 then .awords else .apacks } := rfl

/-- The register writes of APACK, written out (R154). -/
theorem writeApack_eq (p : BitVec 3) (d : Word) (s : State) : writeApack p d s = { s with
    h := mix s.cfg s.h (recombine s.sr s.sl s.t d)
    ptr := s.ptr + BitVec.ofNat 32 p.toNat
    rem := s.rem - BitVec.ofNat 32 p.toNat
    seq := if (s.rem - BitVec.ofNat 32 p.toNat).toNat ≥ 1 then .tail else .fin } := by
  rw [BitVec.ofNat_toNat]
  rfl

/-- Settles O26: the writes after bytes that are all served, BUSERR at the first that is not. -/
theorem asetupResult : Obligations.AsetupResult := by
  refine ⟨rfl, rfl, rfl, ?_⟩
  rintro s a n ha rfl
  rw [FaultsAtFirstFailure, exec_asetup s (legalArg13_iff.2 ha)]
  refine ⟨fun hserved => ?_, fun b hfail => ?_⟩
  · rw [readThen_of_served hserved, writeAsetup_eq]
    rfl
  · rw [readThen_of_failure hfail]

theorem reads_astep (s : State) : reads s .astep = [⟨s.ptr, .word⟩] := rfl

/-- Settles O27: the writes after a word that is served, BUSERR at `PTR` after one that is not. -/
theorem astepResult : Obligations.AstepResult := by
  refine ⟨rfl, ?_⟩
  rintro s k rfl
  refine ⟨fun hserved => ?_, fun hfail => ?_⟩
  · rw [exec_astep, reads_astep, readThen_of_served (by simpa using hserved)]
    rfl
  · obtain ⟨hfirst, hissued⟩ := SimpleMixer.single_failure hfail
    rw [exec_astep, reads_astep, readThen_of_failure hfirst, hissued]

/-- Settles O28: the writes after bytes that are all served, BUSERR at the first that is not. -/
theorem apackResult : Obligations.ApackResult := by
  refine ⟨rfl, rfl, rfl, rfl, ?_⟩
  rintro s p k hp rfl
  rw [FaultsAtFirstFailure, exec_apack s (legalArg03_iff.2 hp)]
  refine ⟨fun hserved => ?_, fun b hfail => ?_⟩
  · rw [readThen_of_served hserved, writeApack_eq]
    rfl
  · rw [readThen_of_failure hfail]

end Sys2Proof.Proofs.AlignedMixer
end

section
/-! PROOFS. The reads of an ALIGNED command (spec/42_aligned_mixer.md R156): words at multiples of 4 only, so that over
a readable buffer the port serves them all. -/

namespace Sys2Proof.Proofs.AlignedReads

open Sys2Proof Sys2Proof.Machine

/-! ### What a step does while a command runs -/

theorem seq_ne_idle_of_busy {s : State} (h : Consistent s) (hb : s.busy = true) : s.seq ≠ .idle := by
  obtain ⟨⟨-, -, -, hidle, -⟩, -⟩ := h
  intro hq
  simpa [hb] using hidle.1 hq

/-- While a command runs, a step runs the row's micro-operation, gives the HOST a value or nothing, resets, or makes
the store of another agent: every other transaction is dropped (R219, R220). -/
theorem busy_step_cases {s t : State} (hc : Consistent s) (hb : s.busy = true) (h : step s = .next t) :
    ∃ u, Popped s u ∧
      (exec (rowInstr u) u = .next t ∨ (∃ vs, t = { u with hostReads := vs }) ∨ t = resetRegisters u ∨
        ∃ a b, s.agenda = .store a b :: u.agenda ∧ t = storeByte a b u) := by
  obtain ⟨u, hu, hkind⟩ := step_kinds h
  have hub : u.busy = true := (Registers.popped_busy hu).trans hb
  have hseq := Registers.sequencerOk_of_consistent (Registers.consistent_popped hu hc)
  refine ⟨u, hu, ?_⟩
  rcases hkind with rfl | ⟨i, -, -, hq, hi, he⟩ | ⟨i, hi, -, he⟩ | ⟨hidle, -⟩ | ⟨-, rfl⟩ | hstore
  · exact .inr (.inl ⟨_, rfl⟩)
  · obtain rfl : rowInstr u = i := Decoded.instr.inj ((decode_issue hseq hq).symm.trans hi)
    exact .inl he
  · rcases exec_host_cases hi he with ⟨off, -, -, rfl⟩ | rfl | ⟨hidle, -⟩
    · exact .inr (.inl ⟨_, rfl⟩)
    · exact .inr (.inl ⟨_, rfl⟩)
    · simp [hub] at hidle
  · simp [hub] at hidle
  · exact .inr (.inr (.inl rfl))
  · exact .inr (.inr (.inr hstore))

/-! ### The reads of a row in mode ALIGNED -/

/-- The tail gather asks for bytes (R131). -/
theorem size_of_mem_tailReqs {p : Addr} {n : Nat} {q : ReadReq} (hq : q ∈ tailReqs p n) : q.size = .byte := by
  simp only [tailReqs, byteReqs, List.mem_map] at hq
  obtain ⟨a, -, rfl⟩ := hq
  rfl

/-- The words of WSTEP and ASTEP stand at `PTR`, which is then a multiple of 4; every other row reads bytes. -/
theorem row_words_aligned {s : State} (hS : SequencerOk s) (hm : s.modeq = .aligned) {q : ReadReq}
    (hq : q ∈ reads s (rowInstr s)) (hw : q.size = .word) : q.addr.toNat % 4 = 0 := by
  obtain ⟨hwords, -, hawords, -, -, -, hwsmall, hwblk, hwcasc, hwword, hwtail, -, -⟩ := hS
  have bytes : ∀ {p n}, q ∈ tailReqs p n → q.addr.toNat % 4 = 0 := fun h => by
    simp [size_of_mem_tailReqs h] at hw
  have wide : ¬ s.modeq = .wide := by simp [hm]
  unfold rowInstr at hq
  cases hs : s.seq <;> simp only [hs, hm, reduceCtorEq, if_false] at hq
  case words =>
    obtain rfl : q = ⟨s.ptr, .word⟩ := List.mem_singleton.1 hq
    obtain ⟨-, -, hptr⟩ := hwords hs
    exact (hptr hm).2
  case awords =>
    obtain rfl : q = ⟨s.ptr, .word⟩ := List.mem_singleton.1 hq
    obtain ⟨-, ⟨-, -, -, hptr⟩, -⟩ := hawords hs
    exact hptr
  case aset => exact bytes hq
  case apacks => exact bytes hq
  case tail => exact bytes hq
  case wsmall => exact absurd (hwsmall hs).1 wide
  case wblk => exact absurd (hwblk hs).1 wide
  case wcasc => exact absurd (hwcasc hs).1 wide
  case wword => exact absurd (hwword hs).1 wide
  case wtail => exact absurd (hwtail hs).1 wide
  all_goals cases hq

/-- No read of an ALIGNED command is refused for its alignment, whatever UNALIGNED_OK is. -/
theorem row_not_refused {s : State} (hS : SequencerOk s) (hm : s.modeq = .aligned) {q : ReadReq}
    (hq : q ∈ reads s (rowInstr s)) : refusedForAlignment s.cfg q = false := by
  cases hsize : q.size with
  | byte => simp [refusedForAlignment, hsize]
  | word => simp [refusedForAlignment, row_words_aligned hS hm hq hsize]

/-- Over a readable buffer the port serves every read of an ALIGNED command. -/
theorem row_reads_served {s : State} (hc : Consistent s) (hb : s.busy = true) (hm : s.modeq = .aligned)
    (hr : ReadableBuffer s) : (reads s (rowInstr s)).all (served s.cfg) = true := by
  have hS := Registers.sequencerOk_of_consistent hc
  rw [List.all_eq_true]
  intro q hq
  simp only [served, row_not_refused hS hm hq, Bool.not_false, Bool.true_and, List.all_eq_true]
  exact fun a ha => hr a (MemoryPort.row_reads_inBuffer hc hb (seq_ne_idle_of_busy hc hb) q hq a ha)

/-! ### The statement -/

theorem isHost_rowInstr {s : State} (hc : Consistent s) (hb : s.busy = true) : isHost (rowInstr s) = false :=
  decodeUop_isHost (decode_issue (Registers.sequencerOk_of_consistent hc) (seq_ne_idle_of_busy hc hb))

/-- Only BUSERR sets FAULT on the MIXER's turn (R254). -/
theorem uopResult_fault (i : Instr) (s : State) : (uopResult i s).fault = s.fault := by cases i <;> rfl

/-- A micro-operation whose reads are all served leaves FAULT alone. -/
theorem exec_uop_fault {i : Instr} {s t : State} (hi : isHost i = false) (he : exec i s = .next t)
    (hserved : (reads s i).all (served s.cfg) = true) : t.fault = s.fault := by
  rcases exec_uop_cases hi he with ⟨-, rfl⟩ | ⟨a, hfail, -⟩
  · exact uopResult_fault i s
  · simp [firstFailure_eq_none.2 hserved] at hfail

/-- Settles O51: only the row's micro-operation asks the port or can set FAULT, and the port serves what it asks for. -/
theorem alignedModeReadsAligned : Obligations.AlignedModeReadsAligned := by
  intro s t hc hb hm h
  obtain ⟨u, hu, hkind⟩ := busy_step_cases hc hb h
  have hcu := Registers.consistent_popped hu hc
  have hfault : u.fault = false := by rw [Registers.popped_eq hu]; exact (Registers.display_of_busy hc hb).2.1
  have hub : u.busy = true := (Registers.popped_busy hu).trans hb
  have hmu : u.modeq = .aligned := by rw [Registers.popped_eq hu]; exact hm
  have hread : ReadableBuffer s → ReadableBuffer u := by rw [Registers.popped_eq hu]; exact id
  rw [← MemoryPort.popped_portLog hu]
  have quiet : t.portLog = u.portLog → ∃ new, t.portLog = u.portLog ++ new ∧
      ∀ q ∈ new, q.size = .word → q.addr.toNat % 4 = 0 := fun e => ⟨[], by simp [e], nofun⟩
  rcases hkind with he | ⟨vs, rfl⟩ | rfl | ⟨a, b, -, rfl⟩
  · have hi := isHost_rowInstr hcu hub
    obtain ⟨new, hlog, hnew⟩ := MemoryPort.exec_uop_portLog hi he
    have hS := Registers.sequencerOk_of_consistent hcu
    exact ⟨⟨new, hlog, fun q hq => row_words_aligned hS hmu (hnew q hq)⟩,
      fun hr => (exec_uop_fault hi he (row_reads_served hcu hub hmu (hread hr))).trans hfault⟩
  · exact ⟨quiet rfl, fun _ => hfault⟩
  · exact ⟨quiet rfl, fun _ => rfl⟩
  · exact ⟨quiet rfl, fun _ => hfault⟩

end Sys2Proof.Proofs.AlignedReads
end

section
/-! PROOFS. Commands with recombination: an ALIGNED one over a misaligned buffer of at least 4 bytes
(spec/42_aligned_mixer.md R155). They run INIT32, ASETUP, the ASTEPs, APACK, a TSTEP and FIN32; here are the states of
the path and the number of its steps (spec/70_reset_and_hazards.md R288). -/

namespace Sys2Proof.Proofs.RecombinationPath

open Sys2Proof Sys2Proof.Machine

/-! ### The path INIT, ASET, AWORDS, APACKS (R155, R241) -/

/-- A command that recombines, up to and including its APACK. -/
def OnRecombinationPath (s : State) : Prop :=
  s.modeq = .aligned ∧
  ((s.seq = .init ∧ afterInit32 s = .aset) ∨ s.seq = .aset ∨ s.seq = .awords ∨ s.seq = .apacks)

theorem afterAligned_cases (r : Word) : afterAligned r = .awords ∨ afterAligned r = .apacks := by
  unfold afterAligned
  split_ifs
  · exact .inl rfl
  · exact .inr rfl

theorem onRecombinationPath_of_afterAligned {s : State} {r : Word} (hm : s.modeq = .aligned)
    (hq : s.seq = afterAligned r) : OnRecombinationPath s := by
  rw [OnRecombinationPath, hq]
  exact ⟨hm, .inr (.inr (afterAligned_cases r))⟩

/-- Recombination begins with an ALIGNED command over a misaligned buffer of at least 4 bytes (R155). -/
theorem onRecombinationPath_of_started {s : State} (hs : s.seq = .init) (hm : s.modeq = .aligned)
    (ha : s.addr.toNat % 4 ≠ 0) (hn : 4 ≤ s.len.toNat) : OnRecombinationPath s :=
  ⟨hm, .inl ⟨hs, by rw [SimpleMixer.afterInit32_eq, if_pos ⟨hm, ha, hn⟩]⟩⟩

section
variable {s : State}

theorem ofNat3_align (s : State) : (BitVec.ofNat 3 s.align.toNat).toNat = s.align.toNat :=
  ofNat3_toNat (by have := s.align.isLt; omega)

theorem rowResult_aset (hs : s.seq = .aset) : rowResult s
    = writeAsetup (BitVec.ofNat 3 s.align.toNat) (tailValue s s.ptr (4 - s.align.toNat))
        (logReads (reads s (rowInstr s)) s) := by
  simp only [rowResult, hs]

theorem rowResult_awords (hs : s.seq = .awords) :
    rowResult s = writeAstep (memWord s s.ptr) (logReads (reads s (rowInstr s)) s) := by
  simp only [rowResult, hs]

theorem rowResult_apacks (hs : s.seq = .apacks) : rowResult s
    = writeApack (BitVec.ofNat 3 (min s.rem.toNat s.align.toNat))
        (tailValue s s.ptr (min s.rem.toNat s.align.toNat)) (logReads (reads s (rowInstr s)) s) := by
  simp only [rowResult, hs]

theorem seq_rowResult_aset (hs : s.seq = .aset) : (rowResult s).seq = .awords ∨ (rowResult s).seq = .apacks := by
  rw [rowResult_aset hs]
  exact afterAligned_cases _

theorem seq_rowResult_awords (hs : s.seq = .awords) : (rowResult s).seq = .awords ∨ (rowResult s).seq = .apacks := by
  rw [rowResult_awords hs]
  exact afterAligned_cases _

/-- The bytes ASETUP leaves. -/
theorem rem_rowResult_aset (hs : s.seq = .aset) (h4 : 4 ≤ s.rem.toNat) :
    (rowResult s).rem.toNat = s.rem.toNat - (4 - s.align.toNat) := by
  rw [rowResult_aset hs, writeAsetup_rem, ofNat3_align, logReads_rem, sub_toNat (by omega)]

/-- The bytes ASTEP leaves. -/
theorem rem_rowResult_awords (hs : s.seq = .awords) (h4 : 4 ≤ s.rem.toNat) :
    (rowResult s).rem.toNat = s.rem.toNat - 4 := by
  rw [rowResult_awords hs]
  exact sub_toNat h4

/-- The bytes APACK leaves. -/
theorem rem_rowResult_apacks (hs : s.seq = .apacks) :
    (rowResult s).rem.toNat = s.rem.toNat - min s.rem.toNat s.align.toNat := by
  have := s.align.isLt
  rw [rowResult_apacks hs, writeApack_rem, ofNat3_setWidth (by omega), logReads_rem, sub_toNat (by omega)]

end

/-- A running command on the recombination path. -/
structure RecombinationRun (s : State) : Prop where
  consistent : Consistent s
  busy : s.busy = true
  path : OnRecombinationPath s

section
variable {s : State} (h : RecombinationRun s)
include h

theorem RecombinationRun.sequencerOk : SequencerOk s := Registers.sequencerOk_of_consistent h.consistent

theorem RecombinationRun.modeq : s.modeq = .aligned := h.path.1

theorem RecombinationRun.cursorOk (hq : s.seq ≠ .init) : CursorOk s := by
  obtain ⟨-, -, hc, -⟩ := h.consistent
  exact hc h.busy hq

theorem RecombinationRun.operandsOk : OperandsOk s := by
  obtain ⟨-, ho, -⟩ := h.consistent
  exact ho h.busy

/-- The four rows of the path, with what R241 says of the registers in each. -/
theorem RecombinationRun.rows :
    (s.seq = .init ∧ afterInit32 s = .aset) ∨
    (s.seq = .aset ∧ s.align ≠ 0#2 ∧ 4 ≤ s.rem.toNat ∧ s.rem = s.len) ∨
    (s.seq = .awords ∧ ShiftsOk s ∧ 4 ≤ s.rem.toNat) ∨
    (s.seq = .apacks ∧ ShiftsOk s ∧ s.rem.toNat ≤ 3) := by
  obtain ⟨-, haset, hawords, hapacks, -⟩ := h.sequencerOk
  obtain ⟨-, hinit | hs | hs | hs⟩ := h.path
  · exact .inl hinit
  · obtain ⟨-, ha, h4, hr⟩ := haset hs
    exact .inr (.inl ⟨hs, ha, hr ▸ h4, hr⟩)
  · exact .inr (.inr (.inl ⟨hs, (hawords hs).2⟩))
  · exact .inr (.inr (.inr ⟨hs, (hapacks hs).2⟩))

theorem RecombinationRun.seq_ne_last : s.seq ≠ .fin ∧ s.seq ≠ .wfins := by
  obtain ⟨hs, -⟩ | ⟨hs, -⟩ | ⟨hs, -⟩ | ⟨hs, -⟩ := h.rows <;> simp [hs]

/-- `ALIGN` is the misalignment of the buffer (R29). -/
theorem RecombinationRun.align_toNat (hq : s.seq ≠ .init) : s.align.toNat = s.addr.toNat % 4 := by
  obtain ⟨-, -, ha⟩ := h.cursorOk hq
  rw [ha]
  simp

theorem RecombinationRun.rem_le_len (hq : s.seq ≠ .init) : s.rem.toNat ≤ s.len.toNat := (h.cursorOk hq).1

/-- From ASETUP on `PTR` is a multiple of 4, so the bytes consumed are whole words and the leading `4 - a` (R158). -/
theorem RecombinationRun.consumed (hq : s.seq ≠ .init) (hshift : ShiftsOk s) :
    s.len.toNat - s.rem.toNat = 4 * ((s.len.toNat - s.rem.toNat) / 4) + (4 - s.align.toNat) := by
  obtain ⟨hrem, hptr, -⟩ := h.cursorOk hq
  obtain ⟨hne, -, -, hmod⟩ := hshift
  have halign := h.align_toNat hq
  have hpos := align_pos hne
  rw [hptr, BitVec.toNat_add, BitVec.toNat_sub] at hmod
  have := s.len.isLt
  omega

/-- After APACK no byte or those of a tail are left; the bytes consumed are then whole words (R154). -/
theorem RecombinationRun.onWordPath_apacks (hs : s.seq = .apacks) (hshift : ShiftsOk s) :
    WordPath.OnWordPath (rowResult s) ∧ ((rowResult s).seq = .tail ∨ (rowResult s).seq = .fin) := by
  have hq : s.seq ≠ .init := by simp [hs]
  have hrem := rem_rowResult_apacks hs
  have hmod := h.consumed hq hshift
  have hle := h.rem_le_len hq
  have hlen : (rowResult s).len = s.len := by rw [rowResult_apacks hs]; rfl
  have hmode : (rowResult s).modeq ≠ .wide := by
    rw [rowResult_apacks hs, writeApack_modeq, logReads_modeq, h.modeq]
    simp
  have hseq : (rowResult s).seq = afterApack (rowResult s).rem := by rw [rowResult_apacks hs]; rfl
  unfold afterApack at hseq
  split_ifs at hseq
  · exact ⟨⟨hmode, .inr (.inl ⟨.inr hseq, by rw [hlen]; omega⟩)⟩, .inl hseq⟩
  · exact ⟨⟨hmode, .inr (.inr hseq)⟩, .inr hseq⟩

theorem RecombinationRun.consistent_busy_rowResult : Consistent (rowResult s) ∧ (rowResult s).busy = true := by
  obtain ⟨hfin, hwfins⟩ := h.seq_ne_last
  obtain ⟨hbusy, -⟩ := rowResult_frame s hfin hwfins
  have hidle := AlignedReads.seq_ne_idle_of_busy h.consistent h.busy
  exact ⟨Registers.consistent_rowResult h.consistent h.busy hidle, hbusy.trans h.busy⟩

/-- Each row of the path but APACK leads to a row of it. -/
theorem RecombinationRun.recombination_rowResult (hlast : s.seq ≠ .apacks) : RecombinationRun (rowResult s) := by
  obtain ⟨hc, hbusy⟩ := h.consistent_busy_rowResult
  refine ⟨hc, hbusy, ?_⟩
  obtain ⟨hs, hnext⟩ | ⟨hs, -⟩ | ⟨hs, -⟩ | ⟨hs, -⟩ := h.rows
  · rw [QuietRun.rowResult_init32 hs (by simp [h.modeq])]
    exact ⟨h.modeq, .inr (.inl hnext)⟩
  · rw [rowResult_aset hs]
    exact onRecombinationPath_of_afterAligned h.modeq rfl
  · rw [rowResult_awords hs]
    exact onRecombinationPath_of_afterAligned h.modeq rfl
  · exact absurd hs hlast

/-- APACK leads to the TSTEP or the FIN32 of the word path. -/
theorem RecombinationRun.wordRun_rowResult (hs : s.seq = .apacks) (hshift : ShiftsOk s) :
    WordPath.WordRun (rowResult s) ∧ ((rowResult s).seq = .tail ∨ (rowResult s).seq = .fin) := by
  obtain ⟨hc, hbusy⟩ := h.consistent_busy_rowResult
  obtain ⟨hpath, hseq⟩ := h.onWordPath_apacks hs hshift
  exact ⟨⟨hc, hbusy, hpath⟩, hseq⟩

/-- The command runs on, on the one path or the other. -/
theorem RecombinationRun.run_rowResult : RecombinationRun (rowResult s) ∨
    WordPath.WordRun (rowResult s) ∧ ((rowResult s).seq = .tail ∨ (rowResult s).seq = .fin) := by
  by_cases hs : s.seq = .apacks
  · obtain ⟨-, -, -, hapacks, -⟩ := h.sequencerOk
    exact .inr (h.wordRun_rowResult hs (hapacks hs).2.1)
  · exact .inl (h.recombination_rowResult hs)

end

/-! ### The number of steps (R155, R288) -/

/-- The steps that `r` bytes after ASETUP take: an ASTEP for each word, APACK, a TSTEP if more bytes are left than APACK
takes, FIN32. -/
def packedSteps (a r : Nat) : Nat := 2 + r / 4 + (if r % 4 > a then 1 else 0)

theorem packedSteps_word (a : Nat) {r : Nat} (h4 : 4 ≤ r) : packedSteps a r = packedSteps a (r - 4) + 1 := by
  rw [packedSteps, packedSteps, show (r - 4) % 4 = r % 4 by omega]
  omega

/-- The steps a command that recombines has left. -/
def recombinationSteps (s : State) : Nat :=
  match s.seq with
  | .init => 2 + packedSteps (s.addr.toNat % 4) (s.len.toNat - (4 - s.addr.toNat % 4))
  | .aset => 1 + packedSteps (s.addr.toNat % 4) (s.rem.toNat - (4 - s.addr.toNat % 4))
  | .awords | .apacks => packedSteps (s.addr.toNat % 4) s.rem.toNat
  | _ => WordPath.stepsLeft s

section
variable {s : State}

theorem recombinationSteps_of_init (hs : s.seq = .init) : recombinationSteps s
    = 2 + packedSteps (s.addr.toNat % 4) (s.len.toNat - (4 - s.addr.toNat % 4)) := by
  simp only [recombinationSteps, hs]

theorem recombinationSteps_of_aset (hs : s.seq = .aset) : recombinationSteps s
    = 1 + packedSteps (s.addr.toNat % 4) (s.rem.toNat - (4 - s.addr.toNat % 4)) := by
  simp only [recombinationSteps, hs]

theorem recombinationSteps_of_packing (hs : s.seq = .awords ∨ s.seq = .apacks) :
    recombinationSteps s = packedSteps (s.addr.toNat % 4) s.rem.toNat := by
  rcases hs with hs | hs <;> simp only [recombinationSteps, hs]

theorem recombinationSteps_of_closing (hs : s.seq = .tail ∨ s.seq = .fin) :
    recombinationSteps s = 1 + s.rem.toNat / 4 + (if s.rem.toNat % 4 ≠ 0 then 1 else 0) := by
  rcases hs with hs | hs <;> rw [← WordPath.stepsLeft_of_ne_init (by simp [hs])] <;> simp only [recombinationSteps, hs]

end

section
variable {s : State} (h : RecombinationRun s)
include h

/-- Each row of the path takes one off what is left. -/
theorem RecombinationRun.steps_rowResult : recombinationSteps s = recombinationSteps (rowResult s) + 1 := by
  obtain ⟨hfin, hwfins⟩ := h.seq_ne_last
  obtain ⟨-, -, -, -, -, haddr, -⟩ := rowResult_frame s hfin hwfins
  obtain ⟨hs, hnext⟩ | ⟨hs, -, h4, -⟩ | ⟨hs, -, h4⟩ | ⟨hs, hshift, h3⟩ := h.rows
  · rw [recombinationSteps_of_init hs, QuietRun.rowResult_init32 hs (by simp [h.modeq]),
      recombinationSteps_of_aset hnext]
    dsimp only
    omega
  · have hq : s.seq ≠ .init := by simp [hs]
    have hseq := seq_rowResult_aset hs
    rw [recombinationSteps_of_aset hs, recombinationSteps_of_packing hseq, haddr, rem_rowResult_aset hs h4,
      h.align_toNat hq, Nat.add_comm]
  · have hseq := seq_rowResult_awords hs
    rw [recombinationSteps_of_packing (.inl hs), recombinationSteps_of_packing hseq, haddr,
      rem_rowResult_awords hs h4, packedSteps_word _ h4]
  · have halign := h.align_toNat (by simp [hs])
    rw [recombinationSteps_of_packing (.inr hs), recombinationSteps_of_closing (h.onWordPath_apacks hs hshift).2,
      rem_rowResult_apacks hs, packedSteps]
    split_ifs <;> omega

end

/-- An ALIGNED command over a misaligned readable buffer that is left to itself: it recombines, or its APACK is done. -/
structure QuietRecombination (s : State) : Prop where
  modeq : s.modeq = .aligned
  agenda : s.agenda = []
  readable : ReadableBuffer s
  run : RecombinationRun s ∨ WordPath.WordRun s ∧ (s.seq = .tail ∨ s.seq = .fin)

section
variable {s : State} (h : QuietRecombination s)
include h

theorem QuietRecombination.consistent : Consistent s := h.run.elim (·.consistent) (·.1.consistent)

theorem QuietRecombination.busy : s.busy = true := h.run.elim (·.busy) (·.1.busy)

theorem QuietRecombination.seq_ne_wfins : s.seq ≠ .wfins := h.run.elim (·.seq_ne_last.2) (·.1.seq_ne_wfins)

theorem QuietRecombination.step_eq : step s = .next (rowResult s) :=
  QuietRun.step_row h.agenda (Registers.sequencerOk_of_consistent h.consistent) h.busy
    (AlignedReads.seq_ne_idle_of_busy h.consistent h.busy)
    (AlignedReads.row_reads_served h.consistent h.busy h.modeq h.readable)

/-- A row but the last takes one off what is left and runs on. -/
theorem QuietRecombination.next (hlast : s.seq ≠ .fin) :
    (RecombinationRun (rowResult s) ∨
      WordPath.WordRun (rowResult s) ∧ ((rowResult s).seq = .tail ∨ (rowResult s).seq = .fin)) ∧
    recombinationSteps s = recombinationSteps (rowResult s) + 1 := by
  rcases h.run with hrun | ⟨hrun, hs | hs⟩
  · exact ⟨hrun.run_rowResult, hrun.steps_rowResult⟩
  · obtain ⟨-, -, -, -, htail, -⟩ := hrun.sequencerOk
    obtain ⟨-, h1, h3⟩ := htail hs
    have hseq : (rowResult s).seq = .fin := by rw [WordPath.rowResult_tail hs]; rfl
    have hrem : (rowResult s).rem.toNat = 0 := by rw [WordPath.rowResult_tail hs]; rfl
    refine ⟨.inr ⟨(hrun.wordRun_rowResult hlast).1, .inr hseq⟩, ?_⟩
    rw [recombinationSteps_of_closing (.inl hs), recombinationSteps_of_closing (.inr hseq), hrem,
      if_pos (show s.rem.toNat % 4 ≠ 0 by omega), if_neg (by omega)]
    omega
  · exact absurd hs hlast

theorem QuietRecombination.quiet_rowResult (hlast : s.seq ≠ .fin) : QuietRecombination (rowResult s) := by
  obtain ⟨-, -, -, -, -, haddr, hlen, -, hmodeq, hcfg, -, hagenda, -⟩ := rowResult_frame s hlast h.seq_ne_wfins
  refine ⟨hmodeq.trans h.modeq, hagenda.trans h.agenda, fun a ha => ?_, (h.next hlast).1⟩
  rw [InBuffer, haddr, hlen] at ha
  rw [hcfg]
  exact h.readable a ha

theorem QuietRecombination.steps_of_fin (hs : s.seq = .fin) : recombinationSteps s = 1 := by
  obtain ⟨-, -, -, -, -, hfin, -⟩ := Registers.sequencerOk_of_consistent h.consistent
  rw [recombinationSteps_of_closing (.inr hs), (hfin hs).2]
  rfl

/-- Every step takes one off what is left; the last is FIN32, and it ends DONE. -/
theorem QuietRecombination.step_counts : ∃ t, step s = .next t ∧
    ((recombinationSteps s = 1 ∧ t.done = true) ∨
      (QuietRecombination t ∧ recombinationSteps s = recombinationSteps t + 1)) := by
  refine ⟨_, h.step_eq, ?_⟩
  by_cases hlast : s.seq = .fin
  · exact .inl ⟨h.steps_of_fin hlast, by rw [QuietRun.rowResult_fin hlast, finish_done]⟩
  · exact .inr ⟨h.quiet_rowResult hlast, (h.next hlast).2⟩

end

/-- Settles O58: the accepted command is a quiet one on the recombination path, with R288's count of steps left. -/
theorem alignedRunLength : Obligations.AlignedRunLength := by
  rintro s n a q u hc hagenda ⟨hb, hs, hm⟩ hread rfl rfl ha hn rfl rfl
  have hquiet : QuietRecombination s :=
    ⟨hm, hagenda, hread, .inl ⟨hc, hb, onRecombinationPath_of_started hs hm ha hn⟩⟩
  refine WordPath.run_counts (P := QuietRecombination) (fun _ h => h.busy) (fun _ h => h.step_counts) _ hquiet ?_
  rw [recombinationSteps_of_init hs, packedSteps]
  omega

end Sys2Proof.Proofs.RecombinationPath
end

section
/-! PROOFS. The digest of an ALIGNED command (spec/42_aligned_mixer.md R157): while it recombines, the upper bytes of
`T` are the `4 - a` bytes read and not yet mixed in (R158), so that REC forms the words and the tail of the SIMPLE
command. -/

namespace Sys2Proof.Proofs.AlignedDigest

open Sys2Proof Sys2Proof.Machine RecombinationPath

/-! ### Bytes as a little-endian number (R63, R65) -/

/-- The `n` bytes from offset `o` as a number, the lowest offset least significant. -/
def leBytes (B : Nat → Byte) (o n : Nat) : Nat := Nat.ofDigits 256 ((List.range n).map fun i => (B (o + i)).toNat)

section
variable (B : Nat → Byte) (o : Nat)

theorem leBytes_add (m n : Nat) : leBytes B o (m + n) = leBytes B o m + 2 ^ (8 * m) * leBytes B (o + m) n := by
  simp only [leBytes, List.range_add, List.map_append, List.map_map, Nat.ofDigits_append, List.length_map,
    List.length_range, Function.comp_def, Nat.add_assoc, pow_mul]
  norm_num

theorem leBytes_lt (n : Nat) : leBytes B o n < 2 ^ (8 * n) := by
  have hdigits : ∀ d ∈ (List.range n).map fun i => (B (o + i)).toNat, d < 256 := by
    intro d hd
    obtain ⟨i, -, rfl⟩ := List.mem_map.1 hd
    exact (B (o + i)).isLt
  simpa [leBytes, pow_mul] using Nat.ofDigits_lt_base_pow_length (by norm_num) hdigits

/-- The low `m` bytes. -/
theorem leBytes_mod (n m : Nat) : leBytes B o n % 2 ^ (8 * m) = leBytes B o (min n m) := by
  rcases Nat.le_total n m with hle | hle
  · have hpow : 2 ^ (8 * n) ≤ 2 ^ (8 * m) := Nat.pow_le_pow_right (by norm_num) (by omega)
    rw [Nat.min_eq_left hle, Nat.mod_eq_of_lt ((leBytes_lt B o n).trans_le hpow)]
  · obtain ⟨k, rfl⟩ := Nat.exists_eq_add_of_le hle
    rw [Nat.min_eq_right hle, leBytes_add, Nat.add_mul_mod_self_left, Nat.mod_eq_of_lt (leBytes_lt B o m)]

/-- The bytes above the low `m`. -/
theorem leBytes_div (m n : Nat) : leBytes B o (m + n) / 2 ^ (8 * m) = leBytes B (o + m) n := by
  rw [leBytes_add, Nat.add_mul_div_left _ _ (by positivity), Nat.div_eq_of_lt (leBytes_lt B o m), Nat.zero_add]

theorem leBytes_congr {B B' : Nat → Byte} {o o' n : Nat} (h : ∀ i < n, B (o + i) = B' (o' + i)) :
    leBytes B o n = leBytes B' o' n := by
  unfold leBytes
  congr 1
  exact List.map_congr_left fun i hi => by rw [h i (List.mem_range.1 hi)]

/-- The word of R128 is the number of its four bytes. -/
theorem bufferWord_toNat : (bufferWord B o).toNat = leBytes B o 4 := by
  have h0 := (B o).isLt
  have h1 := (B (o + 1)).isLt
  have h2 := (B (o + 2)).isLt
  have h3 := (B (o + 3)).isLt
  simp only [leBytes, List.range_succ, List.range_zero, List.nil_append, List.cons_append, List.map_cons, List.map_nil,
    Nat.ofDigits_cons, Nat.ofDigits_nil, bufferWord, BitVec.toNat_add, BitVec.toNat_shiftLeft, BitVec.toNat_setWidth,
    Nat.shiftLeft_eq, Nat.add_zero]
  omega

end

/-- The gathered bytes as a number (R131). -/
theorem tailValue_toNat_eq_leBytes (s : State) {p : Addr} {n : Nat} (hn : n ≤ 3) (hfit : p.toNat + n ≤ 2 ^ 32) :
    (tailValue s p n).toNat = leBytes s.mem.readByte p.toNat n := by
  have byte : ∀ i < n, (memByte s (p + BitVec.ofNat 32 i)).toNat = (s.mem.readByte (p.toNat + i)).toNat := by
    intro i hi
    have hp : (p + BitVec.ofNat 32 i).toNat = p.toNat + i := by
      rw [BitVec.toNat_add, BitVec.toNat_ofNat]
      omega
    have := (s.mem.readByte (p.toNat + i)).isLt
    rw [memByte, BitVec.toNat_setWidth, hp]
    omega
  have h0 := byte 0
  have h1 := byte 1
  have h2 := byte 2
  rw [BitVec.add_zero, Nat.add_zero] at h0
  rw [SimpleMixer.tailValue_toNat]
  interval_cases n <;> simp [leBytes, List.range_succ, Nat.ofDigits_cons, h0, h1, h2] <;> omega

/-- The tail value of R128 is the number of its bytes. -/
theorem bufferTail_toNat (B : Nat → Byte) (o : Nat) {n : Nat} (h1 : 1 ≤ n) (h3 : n ≤ 3) :
    (bufferTail B o n).toNat = leBytes B o n := by
  have b0 := (B o).isLt
  have b1 := (B (o + 1)).isLt
  have b2 := (B (o + 2)).isLt
  unfold bufferTail
  interval_cases n <;> simp [leBytes, List.range_succ, Nat.ofDigits_cons, Nat.shiftLeft_eq] <;> omega

/-! ### The buffer while the command runs (R72) -/

/-- The buffer of `s` holds the bytes `B`, and no pending store touches it. -/
structure BufferHolds (B : Nat → Byte) (s : State) : Prop where
  bytes : ∀ i < s.len.toNat, bufferByte s i = B i
  stable : StableBuffer s

section
variable {B : Nat → Byte} {s : State} (h : BufferHolds B s)
include h

theorem BufferHolds.popped {u : State} (hu : Popped s u) : BufferHolds B u := by
  refine ⟨by rw [Registers.popped_eq hu]; exact h.bytes, fun a b hmem hin => ?_⟩
  refine h.stable a b ?_ (MemoryPort.inBuffer_popped hu hin)
  rcases hu with ⟨-, rfl⟩ | ⟨e, ha, -⟩
  · exact hmem
  · rw [ha]
    exact List.mem_cons_of_mem _ hmem

theorem BufferHolds.storeByte {a : Addr} (b : Byte) (ha : ¬ InBuffer s a.toNat) : BufferHolds B (storeByte a b s) := by
  refine ⟨fun i hi => ?_, h.stable⟩
  have hi : i < s.len.toNat := hi
  have hne : s.addr.toNat + i ≠ a.toNat := fun e => ha ⟨by omega, by omega⟩
  exact (readByte_writeByte_ne s.mem b hne).trans (h.bytes i hi)

/-- A state with the same operands, memory and pending events. -/
theorem BufferHolds.of_frame {t : State} (haddr : t.addr = s.addr) (hlen : t.len = s.len) (hmem : t.mem = s.mem)
    (hagenda : t.agenda = s.agenda) : BufferHolds B t := by
  refine ⟨fun i hi => ?_, fun a b hin => ?_⟩
  · rw [bufferByte, hmem, haddr]
    exact h.bytes i (hlen ▸ hi)
  · rw [InBuffer, haddr, hlen]
    exact h.stable a b (hagenda ▸ hin)

/-- Memory at the addresses of the buffer. -/
theorem BufferHolds.leBytes_memory {o n : Nat} (hn : o + n ≤ s.len.toNat) :
    leBytes s.mem.readByte (s.addr.toNat + o) n = leBytes B o n := by
  refine leBytes_congr fun i hi => ?_
  rw [Nat.add_assoc]
  exact h.bytes (o + i) (by omega)

end

/-! ### The recombination invariant (R158) -/

/-- The digest a command that recombines is to deliver, if its buffer holds the bytes `B`: from ASETUP to APACK the
`4 - a` bytes pending in `T` are yet to be mixed in, with those from `PTR` on. -/
def recombinationOwed (B : Nat → Byte) (s : State) : Word :=
  if s.seq = .awords ∨ s.seq = .apacks then
    WordPath.loopDigest s.cfg B ((s.len.toNat - s.rem.toNat) / 4) (s.rem.toNat + (4 - s.align.toNat)) s.h
  else WordPath.digestOwed B s

theorem recombinationOwed_of_packing {s : State} (B : Nat → Byte) (hs : s.seq = .awords ∨ s.seq = .apacks) :
    recombinationOwed B s
      = WordPath.loopDigest s.cfg B ((s.len.toNat - s.rem.toNat) / 4) (s.rem.toNat + (4 - s.align.toNat)) s.h :=
  if_pos hs

theorem recombinationOwed_of_not_packing {s : State} (B : Nat → Byte) (hs : s.seq = .init ∨ s.seq = .aset) :
    recombinationOwed B s = WordPath.digestOwed B s :=
  if_neg (by rcases hs with hs | hs <;> simp [hs])

/-- The upper `4 - a` bytes of `T` are the buffer's, from the last word boundary consumed on (R158). -/
def PendingBytes (B : Nat → Byte) (s : State) : Prop :=
  s.t.toNat / 2 ^ (8 * s.align.toNat)
    = leBytes B (4 * ((s.len.toNat - s.rem.toNat) / 4)) (4 - s.align.toNat)

/-- `s` recombines the bytes `B`, which no pending store touches, and owes the digest `d`. -/
structure Recombining (B : Nat → Byte) (d : Word) (s : State) : Prop extends RecombinationRun s where
  buffer : BufferHolds B s
  pending : s.seq = .awords ∨ s.seq = .apacks → PendingBytes B s
  owes : recombinationOwed B s = d

section
variable {B : Nat → Byte} {d : Word} {s : State} (h : Recombining B d s)
include h

theorem Recombining.ptr_toNat (hq : s.seq ≠ .init) (h1 : 0 < s.rem.toNat) :
    s.ptr.toNat = s.addr.toNat + (s.len.toNat - s.rem.toNat) := by
  simpa using MemoryPort.cursor_offset_toNat (h.cursorOk hq) h.operandsOk h1

/-- The word at `PTR` (R63). -/
theorem Recombining.memWord_ptr (hq : s.seq ≠ .init) (h4 : 4 ≤ s.rem.toNat) :
    (memWord s s.ptr).toNat = leBytes B (s.len.toNat - s.rem.toNat) 4 := by
  have hle := h.rem_le_len hq
  rw [memWord, bufferWord_toNat, h.ptr_toNat hq (by omega), h.buffer.leBytes_memory (by omega)]

/-- The bytes gathered at `PTR` (R131). -/
theorem Recombining.tailValue_ptr (hq : s.seq ≠ .init) {n : Nat} (h3 : n ≤ 3) (hn : n ≤ s.rem.toNat) :
    (tailValue s s.ptr n).toNat = leBytes B (s.len.toNat - s.rem.toNat) n := by
  have hle := h.rem_le_len hq
  rcases Nat.eq_zero_or_pos n with rfl | hpos
  · rfl
  have hptr := h.ptr_toNat hq (by omega)
  have hlast := MemoryPort.cursor_offset_toNat (h.cursorOk hq) h.operandsOk (i := s.rem.toNat - 1) (by omega)
  have hlt := (s.ptr + BitVec.ofNat 32 (s.rem.toNat - 1)).isLt
  rw [tailValue_toNat_eq_leBytes s h3 (by omega), hptr, h.buffer.leBytes_memory (by omega)]

/-- REC of the pending bytes and `m` bytes from `PTR` on joins the former and at most `a` of the latter (R151, R158). -/
theorem Recombining.recombine_eq (hs : s.seq = .awords ∨ s.seq = .apacks) (hshift : ShiftsOk s) {w : Word} {m : Nat}
    (hw : w.toNat = leBytes B (s.len.toNat - s.rem.toNat) m) :
    (recombine s.sr s.sl s.t w).toNat
      = leBytes B (4 * ((s.len.toNat - s.rem.toNat) / 4)) (4 - s.align.toNat + min m s.align.toNat) := by
  have hq : s.seq ≠ .init := by rcases hs with hs | hs <;> simp [hs]
  have hconsumed := h.consumed hq hshift
  have hpending : PendingBytes B s := h.pending hs
  obtain ⟨-, hsl, hsr, -⟩ := hshift
  have halign := s.align.isLt
  rw [AlignedMixer.recombine_toNat (by omega), hsl, hsr, hpending, hw, leBytes_mod, leBytes_add, ← hconsumed]

/-- ASTEP mixes the word SIMPLE's WSTEP reads (R153). -/
theorem Recombining.recombine_word (hs : s.seq = .awords) (hshift : ShiftsOk s) (h4 : 4 ≤ s.rem.toNat) :
    recombine s.sr s.sl s.t (memWord s s.ptr) = bufferWord B (4 * ((s.len.toNat - s.rem.toNat) / 4)) := by
  have halign := s.align.isLt
  apply BitVec.eq_of_toNat_eq
  rw [h.recombine_eq (.inl hs) hshift (h.memWord_ptr (by simp [hs]) h4), bufferWord_toNat]
  congr 1
  omega

/-- APACK joins the pending bytes and those it takes (R154). -/
theorem Recombining.recombine_leftover (hs : s.seq = .apacks) (hshift : ShiftsOk s) :
    (recombine s.sr s.sl s.t (tailValue s s.ptr (min s.rem.toNat s.align.toNat))).toNat
      = leBytes B (4 * ((s.len.toNat - s.rem.toNat) / 4)) (4 - s.align.toNat + min s.rem.toNat s.align.toNat) := by
  have halign := s.align.isLt
  have htail := h.tailValue_ptr (by simp [hs]) (n := min s.rem.toNat s.align.toNat) (by omega) (by omega)
  rw [h.recombine_eq (.inr hs) hshift htail, Nat.min_assoc, Nat.min_self]

/-! ### Every row keeps the invariant -/

omit h in
/-- A word moved up by `8 a` bits and down again, if nothing falls out. -/
theorem shiftLeft_toNat_div {w : Word} {a : Nat} (ha : a ≤ 4) (hw : w.toNat < 2 ^ (8 * (4 - a))) :
    (w <<< (8 * a)).toNat / 2 ^ (8 * a) = w.toNat := by
  have hpow : 2 ^ (8 * (4 - a)) * 2 ^ (8 * a) = 2 ^ 32 := by rw [← pow_add]; congr 1; omega
  have hfit : w.toNat * 2 ^ (8 * a) < 2 ^ 32 := by
    rw [← hpow]
    exact Nat.mul_lt_mul_of_pos_right hw (by positivity)
  rw [BitVec.toNat_shiftLeft, Nat.shiftLeft_eq, Nat.mod_eq_of_lt hfit, Nat.mul_div_cancel _ (by positivity)]

/-- ASETUP leaves the leading bytes pending (R152). -/
theorem Recombining.pending_aset (hs : s.seq = .aset) (h4 : 4 ≤ s.rem.toNat) (hne : s.align ≠ 0#2)
    (hr : s.rem = s.len) : PendingBytes B (rowResult s) := by
  have hpos := align_pos hne
  have hzero : s.len.toNat - s.rem.toNat = 0 := by rw [hr, Nat.sub_self]
  have hgather := h.tailValue_ptr (by simp [hs]) (n := 4 - s.align.toNat) (by omega) (by omega)
  have hindex : (s.len.toNat - (s.rem.toNat - (4 - s.align.toNat))) / 4 = 0 := by omega
  have hrem := rem_rowResult_aset hs h4
  rw [hzero] at hgather
  rw [PendingBytes, hrem, rowResult_aset hs, writeAsetup_t, writeAsetup_len, writeAsetup_align, logReads_len,
    logReads_align, ofNat3_align, hindex, shiftLeft_toNat_div (by omega) (hgather ▸ leBytes_lt B 0 _), hgather]

omit h in
/-- ASETUP mixes nothing in. -/
theorem recombinationOwed_aset (hs : s.seq = .aset) (h4 : 4 ≤ s.rem.toNat) (hne : s.align ≠ 0#2)
    (hr : s.rem = s.len) : recombinationOwed B (rowResult s) = recombinationOwed B s := by
  have hpos := align_pos hne
  have hrem := rem_rowResult_aset hs h4
  have hseq := seq_rowResult_aset hs
  have hindex : (s.len.toNat - (s.rem.toNat - (4 - s.align.toNat))) / 4 = (s.len.toNat - s.rem.toNat) / 4 := by
    rw [← hr]
    omega
  have hleft : s.rem.toNat - (4 - s.align.toNat) + (4 - s.align.toNat) = s.rem.toNat := by omega
  rw [recombinationOwed_of_packing B hseq, hrem, recombinationOwed_of_not_packing B (.inr hs),
    WordPath.digestOwed_of_ne_init B (by simp [hs]), rowResult_aset hs, writeAsetup_len, writeAsetup_align,
    writeAsetup_cfg, writeAsetup_h, logReads_len, logReads_align, logReads_cfg, logReads_h, hindex, hleft]

/-- ASTEP leaves the upper bytes of the word it read pending (R153). -/
theorem Recombining.pending_awords (hs : s.seq = .awords) (hshift : ShiftsOk s) (h4 : 4 ≤ s.rem.toNat) :
    PendingBytes B (rowResult s) := by
  have hq : s.seq ≠ .init := by simp [hs]
  have halign := s.align.isLt
  have hconsumed := h.consumed hq hshift
  have hle := h.rem_le_len hq
  have hrem := rem_rowResult_awords hs h4
  have hboundary : 4 * ((s.len.toNat - (s.rem.toNat - 4)) / 4) = s.len.toNat - s.rem.toNat + s.align.toNat := by omega
  have hsplit : leBytes B (s.len.toNat - s.rem.toNat) 4
      = leBytes B (s.len.toNat - s.rem.toNat) (s.align.toNat + (4 - s.align.toNat)) := by
    congr 1
    omega
  rw [PendingBytes, hrem, rowResult_awords hs, writeAstep_t, writeAstep_len, writeAstep_align, logReads_len,
    logReads_align, h.memWord_ptr hq h4, hsplit, leBytes_div, hboundary]

/-- ASTEP mixes in the next word of the buffer (R153). -/
theorem Recombining.owed_awords (hs : s.seq = .awords) (hshift : ShiftsOk s) (h4 : 4 ≤ s.rem.toNat) :
    recombinationOwed B (rowResult s) = recombinationOwed B s := by
  have hle := h.rem_le_len (by simp [hs])
  have hrem := rem_rowResult_awords hs h4
  have hseq := seq_rowResult_awords hs
  have hindex : (s.len.toNat - (s.rem.toNat - 4)) / 4 = (s.len.toNat - s.rem.toNat) / 4 + 1 := by omega
  have hleft : s.rem.toNat - 4 + (4 - s.align.toNat) = s.rem.toNat + (4 - s.align.toNat) - 4 := by omega
  have hwhole : 4 ≤ s.rem.toNat + (4 - s.align.toNat) := by omega
  rw [recombinationOwed_of_packing B hseq, hrem, recombinationOwed_of_packing B (.inl hs),
    WordPath.loopDigest_word _ _ _ _ hwhole, ← h.recombine_word hs hshift h4, rowResult_awords hs, writeAstep_len,
    writeAstep_align, writeAstep_cfg, writeAstep_h, logReads_len, logReads_align, logReads_cfg, logReads_h, logReads_sr,
    logReads_sl, logReads_t, hindex, hleft]

/-- APACK mixes in the next word of the buffer, or its tail, and nothing is pending any more (R154). -/
theorem Recombining.owed_apacks (hs : s.seq = .apacks) (hshift : ShiftsOk s) (h3 : s.rem.toNat ≤ 3) :
    WordPath.digestOwed B (rowResult s) = recombinationOwed B s := by
  have hq : s.seq ≠ .init := by simp [hs]
  have halign := s.align.isLt
  have hconsumed := h.consumed hq hshift
  have hle := h.rem_le_len hq
  have hrem := rem_rowResult_apacks hs
  have hnext : (rowResult s).seq ≠ .init := by
    rcases (h.onWordPath_apacks hs hshift).2 with e | e <;> simp [e]
  have hk := h.recombine_leftover hs hshift
  rw [WordPath.digestOwed_of_ne_init B hnext, hrem, recombinationOwed_of_packing B (.inr hs), rowResult_apacks hs,
    writeApack_len, writeApack_cfg, writeApack_h, logReads_len, logReads_cfg, logReads_h, logReads_sr, logReads_sl,
    logReads_t]
  by_cases hfull : s.align.toNat ≤ s.rem.toNat
  · rw [Nat.min_eq_right hfull] at hk ⊢
    have hword : recombine s.sr s.sl s.t (tailValue s s.ptr s.align.toNat)
        = bufferWord B (4 * ((s.len.toNat - s.rem.toNat) / 4)) := by
      apply BitVec.eq_of_toNat_eq
      rw [hk, bufferWord_toNat]
      congr 1
      omega
    have hwhole : 4 ≤ s.rem.toNat + (4 - s.align.toNat) := by omega
    have hindex : (s.len.toNat - (s.rem.toNat - s.align.toNat)) / 4 = (s.len.toNat - s.rem.toNat) / 4 + 1 := by omega
    have hleft : s.rem.toNat - s.align.toNat = s.rem.toNat + (4 - s.align.toNat) - 4 := by omega
    rw [hword, WordPath.loopDigest_word _ _ _ _ hwhole, hindex, hleft]
  · rw [Nat.min_eq_left (by omega)] at hk ⊢
    have htail : recombine s.sr s.sl s.t (tailValue s s.ptr s.rem.toNat)
        = bufferTail B (4 * ((s.len.toNat - s.rem.toNat) / 4)) (s.rem.toNat + (4 - s.align.toNat)) := by
      apply BitVec.eq_of_toNat_eq
      rw [hk, bufferTail_toNat B _ (by omega) (by omega), Nat.add_comm]
    have hshort : 1 ≤ s.rem.toNat + (4 - s.align.toNat) ∧ s.rem.toNat + (4 - s.align.toNat) ≤ 3 := by omega
    rw [htail, Nat.sub_self, WordPath.loopDigest_zero, WordPath.loopDigest_tail _ _ _ _ hshort.1 hshort.2]

/-- INIT32 starts SimpleDigest (R123, R128). -/
theorem Recombining.owed_init (hs : s.seq = .init) (hnext : afterInit32 s = .aset) :
    recombinationOwed B (rowResult s) = recombinationOwed B s := by
  rw [recombinationOwed_of_not_packing B (.inl hs), WordPath.digestOwed_of_init B hs,
    WordPath.simpleDigest_eq_loopDigest, QuietRun.rowResult_init32 hs (by simp [h.modeq]),
    recombinationOwed_of_not_packing B (.inr hnext), WordPath.digestOwed_of_ne_init B (by simp [hnext]), Nat.sub_self]

theorem Recombining.buffer_rowResult : BufferHolds B (rowResult s) := by
  obtain ⟨hfin, hwfins⟩ := h.seq_ne_last
  obtain ⟨-, -, -, -, -, haddr, hlen, -, -, -, hmem, hagenda, -⟩ := rowResult_frame s hfin hwfins
  exact h.buffer.of_frame haddr hlen hmem hagenda

/-- A row of the path keeps the digest owed: the command goes on recombining, or its APACK hands over to the word
path. -/
theorem Recombining.rowResult_keeps : Recombining B d (rowResult s) ∨ WordPath.Hashing B d (rowResult s) := by
  have hbuffer := h.buffer_rowResult
  obtain ⟨hs, hnext⟩ | ⟨hs, hne, h4, hr⟩ | ⟨hs, hshift, h4⟩ | ⟨hs, hshift, h3⟩ := h.rows
  · have hseq : (rowResult s).seq = .aset := by rw [QuietRun.rowResult_init32 hs (by simp [h.modeq])]; exact hnext
    exact .inl ⟨h.recombination_rowResult (by simp [hs]), hbuffer, by simp [hseq],
      (h.owed_init hs hnext).trans h.owes⟩
  · exact .inl ⟨h.recombination_rowResult (by simp [hs]), hbuffer, fun _ => h.pending_aset hs h4 hne hr,
      (recombinationOwed_aset hs h4 hne hr).trans h.owes⟩
  · exact .inl ⟨h.recombination_rowResult (by simp [hs]), hbuffer, fun _ => h.pending_awords hs hshift h4,
      (h.owed_awords hs hshift h4).trans h.owes⟩
  · exact .inr ⟨(h.wordRun_rowResult hs hshift).1, hbuffer.bytes, hbuffer.stable,
      (h.owed_apacks hs hshift h3).trans h.owes⟩

end

/-! ### The command delivers what it owes -/

/-- What holds of an ALIGNED command after each step: it still runs, on one path or the other, and owes the digest, or
it has ended, and if DONE then with that digest. -/
def Delivers (B : Nat → Byte) (d : Word) (s : State) : Prop :=
  (s.busy = true → Recombining B d s ∨ WordPath.Hashing B d s) ∧ (s.done = true → s.digest = d)

theorem delivers_of_idle {B : Nat → Byte} {d : Word} {s : State} (hb : s.busy = false) (hd : s.done = false) :
    Delivers B d s := ⟨by simp [hb], by simp [hd]⟩

section
variable {B : Nat → Byte} {d : Word} {s : State} (h : Recombining B d s)
include h

theorem Recombining.delivers : Delivers B d s := by
  obtain ⟨hd, -⟩ := Registers.display_of_busy h.consistent h.busy
  exact ⟨fun _ => .inl h, by simp [hd]⟩

theorem Recombining.popped {u : State} (hu : Popped s u) : Recombining B d u := by
  have hpop := Registers.popped_eq hu
  refine ⟨⟨Registers.consistent_popped hu h.consistent, ?_, ?_⟩, h.buffer.popped hu, ?_, ?_⟩ <;> rw [hpop]
  · exact h.busy
  · exact h.path
  · exact h.pending
  · exact h.owes

/-- The MIXER's turn. -/
theorem Recombining.exec_delivers {t : State} (he : exec (rowInstr s) s = .next t) : Delivers B d t := by
  have hidle := AlignedReads.seq_ne_idle_of_busy h.consistent h.busy
  rcases WordPath.mixer_next_cases h.consistent hidle (decode_issue h.sequencerOk hidle) he with rfl | ⟨a, log, rfl⟩
  · rcases h.rowResult_keeps with hrec | hword
    · exact hrec.delivers
    · exact hword.delivers.imp (fun hb _ => .inr hword) id
  · exact delivers_of_idle rfl rfl

theorem Recombining.step_delivers {t : State} (hstep : step s = .next t) : Delivers B d t := by
  obtain ⟨u, hu, hkind⟩ := AlignedReads.busy_step_cases h.consistent h.busy hstep
  have hpop := h.popped hu
  rcases hkind with he | ⟨vs, rfl⟩ | rfl | ⟨a, b, ha, rfl⟩
  · exact hpop.exec_delivers he
  · have hread : Recombining B d { u with hostReads := vs } :=
      ⟨⟨hpop.consistent, hpop.busy, hpop.path⟩, ⟨hpop.buffer.bytes, hpop.buffer.stable⟩, hpop.pending, hpop.owes⟩
    exact hread.delivers
  · exact delivers_of_idle rfl rfl
  · have hout : ¬ InBuffer u a.toNat := fun hin =>
      h.buffer.stable a b (by rw [ha]; exact List.mem_cons_self) (MemoryPort.inBuffer_popped hu hin)
    have hstore : Recombining B d (storeByte a b u) :=
      ⟨⟨hpop.consistent, hpop.busy, hpop.path⟩, hpop.buffer.storeByte b hout, hpop.pending, hpop.owes⟩
    exact hstore.delivers

end

theorem Delivers.step {B : Nat → Byte} {d : Word} {s t : State} (hb : s.busy = true) (h : Delivers B d s)
    (hstep : Machine.step s = .next t) : Delivers B d t := by
  rcases h.1 hb with hrec | hword
  · exact hrec.step_delivers hstep
  · obtain ⟨hruns, hends⟩ := hword.step_delivers hstep
    exact ⟨fun hb => .inr (hruns hb), hends⟩

/-- An accepted command that recombines owes SimpleDigest of its buffer (R157). -/
theorem recombining_of_started {s : State} (hc : Consistent s) (hs : Started .aligned s) (hstable : StableBuffer s)
    (ha : s.addr.toNat % 4 ≠ 0) (hn : 4 ≤ s.len.toNat) :
    Recombining (bufferByte s) (simpleDigest s.cfg (bufferByte s) s.len.toNat s.seed) s := by
  obtain ⟨hb, hq, hm⟩ := hs
  exact ⟨⟨hc, hb, onRecombinationPath_of_started hq hm ha hn⟩, ⟨fun _ _ => rfl, hstable⟩, by simp [hq],
    (recombinationOwed_of_not_packing _ (.inl hq)).trans (WordPath.digestOwed_of_init _ hq)⟩

/-- Settles O55: a command that recombines keeps the digest it owes up to APACK and hands it to the word path, on which
every other ALIGNED command runs from its start. -/
theorem alignedCommandDigest : Obligations.AlignedCommandDigest := by
  intro s t k hc hs hstable hbusy hrun hdone
  by_cases hword : s.addr.toNat % 4 = 0 ∨ s.len.toNat < 4
  · obtain ⟨hb, hq, hm⟩ := hs
    exact WordPath.digest_of_run hc hb hq (WordPath.onWordPath_of_started hq (.inr ⟨hm, hword⟩)) hstable hbusy hrun
      hdone
  · have start := recombining_of_started hc hs hstable (by omega) (by omega)
    exact (WordPath.run_keeps (fun _ _ hb hP hstep => hP.step hb hstep) k hbusy start.delivers hrun).2 hdone

end Sys2Proof.Proofs.AlignedDigest
end

section
/-! PROOFS. The statements of the wide path about single functions and micro-operations (spec/43_wide_mixer.md): the
lane mixes (R172, R173) and GROUP (R176), and the results of WINIT, GSTEP, SMALL, BLK, SSTEP, LSTEP and WFIN. -/

namespace Sys2Proof.Proofs.WideMixer

open Sys2Proof Sys2Proof.Machine

/-! ### The lane mixes (R172, R173) -/

/-- The two halves of a 64-bit value make up the value. -/
theorem halves_toNat (p : DWord) :
    (p.extractLsb' 0 32).toNat + 2 ^ 32 * (p.extractLsb' 32 32).toNat = p.toNat := by
  have hp := p.isLt
  simp only [BitVec.extractLsb'_toNat, Nat.shiftRight_eq_div_pow]
  omega

/-- A 32-bit operand enters a 64-bit XOR zero-extended (R170). -/
theorem zext_toNat (d : Word) : (d.setWidth 64).toNat = d.toNat := by
  have hd := d.isLt
  rw [BitVec.toNat_setWidth]
  omega

section
variable (cfg : Config) (pair : ConstPair) (l : Lane)

/-- SMIX is DMIX with second word 0 (R173). -/
theorem smix_eq_dmix (d : Word) : smix cfg pair l d = dmix cfg pair l d 0#32 := by
  have hx : constant cfg pair.a ^^^ l.lo.setWidth 64 ^^^ d.setWidth 64
      = constant cfg pair.a ^^^ d.setWidth 64 ^^^ l.lo.setWidth 64 := by ac_rfl
  have hy : constant cfg pair.b ^^^ (0#32).setWidth 64 ^^^ l.hi.setWidth 64
      = constant cfg pair.b ^^^ l.hi.setWidth 64 := by simp
  rw [smix, dmix, hx, hy]

theorem dmix_toNat (d1 d2 : Word) :
    (dmix cfg pair l d1 d2).lo.toNat + 2 ^ 32 * (dmix cfg pair l d1 d2).hi.toNat
      = ((constant cfg pair.a).toNat ^^^ d1.toNat ^^^ l.lo.toNat)
        * ((constant cfg pair.b).toNat ^^^ d2.toNat ^^^ l.hi.toNat) % 2 ^ 64 := by
  simp only [dmix, halves_toNat, BitVec.toNat_mul, BitVec.toNat_xor, zext_toNat]

theorem smix_toNat (d : Word) :
    (smix cfg pair l d).lo.toNat + 2 ^ 32 * (smix cfg pair l d).hi.toNat
      = ((constant cfg pair.a).toNat ^^^ l.lo.toNat ^^^ d.toNat)
        * ((constant cfg pair.b).toNat ^^^ l.hi.toNat) % 2 ^ 64 := by
  simp only [smix, halves_toNat, BitVec.toNat_mul, BitVec.toNat_xor, zext_toNat]

end

/-- Settles O30: both mixes are the product of R170, and SMIX is a DMIX. -/
theorem laneMixProducts : Obligations.LaneMixProducts :=
  fun cfg pair l d1 d2 => ⟨dmix_toNat cfg pair l d1 d2, smix_toNat cfg pair l d1, smix_eq_dmix cfg pair l d1⟩

/-! ### GROUP (R176) -/

section
variable (cfg : Config) (l : Lanes)

/-- One pair: no copy and no fold. -/
theorem group_one (p0 : Word × Word) :
    group cfg [p0] l = { l with l0 := dmix cfg cfg.cpair.lane0 l.l0 p0.1 p0.2 } := rfl

theorem group_two (p0 p1 : Word × Word) : group cfg [p0, p1] l = { l with
    l0 := foldLane (dmix cfg cfg.cpair.lane0 l.l0 p0.1 p0.2) (dmix cfg cfg.cpair.lane1 l.l0 p1.1 p1.2)
    l1 := dmix cfg cfg.cpair.lane1 l.l0 p1.1 p1.2 } := rfl

theorem group_three (p0 p1 p2 : Word × Word) : group cfg [p0, p1, p2] l = { l with
    l0 := foldLane (foldLane (dmix cfg cfg.cpair.lane0 l.l0 p0.1 p0.2) (dmix cfg cfg.cpair.lane1 l.l0 p1.1 p1.2))
      (dmix cfg cfg.cpair.lane2 l.l0 p2.1 p2.2)
    l1 := dmix cfg cfg.cpair.lane1 l.l0 p1.1 p1.2
    l2 := dmix cfg cfg.cpair.lane2 l.l0 p2.1 p2.2 } := rfl

theorem group_four (p0 p1 p2 p3 : Word × Word) : group cfg [p0, p1, p2, p3] l = {
    l0 := foldLane (foldLane (foldLane (dmix cfg cfg.cpair.lane0 l.l0 p0.1 p0.2)
      (dmix cfg cfg.cpair.lane1 l.l0 p1.1 p1.2)) (dmix cfg cfg.cpair.lane2 l.l0 p2.1 p2.2))
      (dmix cfg cfg.cpair.lane3 l.l0 p3.1 p3.2)
    l1 := dmix cfg cfg.cpair.lane1 l.l0 p1.1 p1.2
    l2 := dmix cfg cfg.cpair.lane2 l.l0 p2.1 p2.2
    l3 := dmix cfg cfg.cpair.lane3 l.l0 p3.1 p3.2 } := rfl

/-- The primary lane of a group depends on the primary lane alone: a scratch lane is copied over before it is folded
in. -/
theorem group_l0 (ws : List (Word × Word)) : (group cfg ws l).l0 = groupLane cfg ws l.l0 := by
  simp only [groupLane, group, foldStage, mixStage, copyStage]
  split_ifs <;> rfl

end

/-- Settles O31: the groups of one to four pairs, the default table and the constants it names. -/
theorem groupCopiesMixesFolds : Obligations.GroupCopiesMixesFolds := by
  refine ⟨rfl, fun cfg => ⟨rfl, rfl, rfl, rfl, rfl⟩, ?_⟩
  rintro cfg l p0 p1 p2 p3 m0 m1 m2 m3 rfl rfl rfl rfl
  exact ⟨group_one cfg l p0, group_two cfg l p0 p1, group_three cfg l p0 p1 p2, group_four cfg l p0 p1 p2 p3⟩

/-! ### WINIT (R177), LSTEP (R182) and WFIN (R183) -/

/-- The rows INIT of R241 with WIDE, by LEN. -/
theorem afterWinit_eq (len : Word) : afterWinit len =
    if len = 0#32 then .wlen else if len.toNat ≤ 3 then .wtail else if len.toNat ≤ 16 then .wsmall
    else if len.toNat ≤ 31 then .wcasc else .wblk := by
  have hzero : len = 0#32 ↔ len.toNat = 0 := by rw [← BitVec.toNat_inj]; rfl
  simp only [afterWinit, hzero]
  split_ifs
  any_goals rfl
  all_goals omega

theorem issue_winit {s : State} (hs : s.seq = .init) (hm : s.modeq = .wide) : issue s = 0x80#8 := by
  simp only [issue, hs, if_pos hm]
  rfl

theorem issue_wfin {s : State} (hs : s.seq = .wfins) : issue s = 0xB0#8 := by
  simp only [issue, hs]
  rfl

/-- Settles O29: the pseudocode of R177, with the next state of `afterWinit_eq`. -/
theorem winitResult : Obligations.WinitResult := by
  refine ⟨rfl, fun s => issue_winit, fun s => ?_⟩
  rw [← afterWinit_eq]
  rfl

/-- Settles O36: LSTEP reads nothing, so it is its register writes. -/
theorem lstepResult : Obligations.LstepResult := ⟨rfl, fun _ => rfl⟩

/-- Settles O37: WFIN is the end of a run, with the digest of the primary lane. -/
theorem wfinResult : Obligations.WfinResult := ⟨rfl, fun _ => issue_wfin, fun _ => rfl⟩

/-! ### GSTEP (R178), SMALL (R179), BLK (R180) and SSTEP (R181) -/

/-- The register writes of GSTEP, written out (R178). -/
theorem writeGstep_eq (n : BitVec 3) (w : Word) (s : State) : writeGstep n w s = { s with
    lanes := { s.lanes with l0 := smix s.cfg s.cfg.cpair.lane0 s.lanes.l0 w }
    ptr := s.ptr + BitVec.ofNat 32 n.toNat
    rem := 0#32
    seq := .wlen } := by
  rw [BitVec.ofNat_toNat]
  rfl

/-- Settles O32: the writes after bytes that are all served, BUSERR at the first that is not. -/
theorem gstepResult : Obligations.GstepResult := by
  refine ⟨rfl, rfl, rfl, fun s n hn => ?_⟩
  rw [FaultsAtFirstFailure, exec_gstep s (legalArg13_iff.2 hn)]
  refine ⟨fun hserved => ?_, fun a hfail => ?_⟩
  · rw [readThen_of_served hserved, writeGstep_eq]
    rfl
  · rw [readThen_of_failure hfail]

/-- Settles O33: the writes after words that are all served, BUSERR at the first that is not. -/
theorem smallResult : Obligations.SmallResult := by
  refine ⟨rfl, rfl, rfl, fun s c hc => ?_⟩
  rw [FaultsAtFirstFailure, exec_small s (legalArg13_iff.2 hc)]
  refine ⟨fun hserved => ?_, fun a hfail => ?_⟩
  · rw [readThen_of_served hserved]
    rfl
  · rw [readThen_of_failure hfail]

/-- The rows WBLK and WCASC of R241 by what remains, under the condition the table states for WCASC. -/
theorem afterBlk_eq {k : BitVec 3} {r : Word} (h : k = 4#3 ∨ r.toNat ≤ 7) : afterBlk k r =
    if r.toNat ≥ 32 then .wblk else if r.toNat ≥ 8 then .wcasc else if r.toNat ≥ 4 then .wword
    else if r.toNat ≥ 1 then .wtail else .wlen := by
  unfold afterBlk nc nt
  by_cases hk : k = 4#3
  · rw [if_pos hk]
    split_ifs
    any_goals rfl
    all_goals omega
  · have h7 := h.resolve_left hk
    rw [if_neg hk, if_neg (show ¬ r.toNat ≥ 32 by omega), if_neg (show ¬ r.toNat ≥ 8 by omega)]

/-- Settles O34: the writes after words that are all served, the next state being `afterBlk`; BUSERR at the first word
that is not. -/
theorem blkResult : Obligations.BlkResult := by
  refine ⟨rfl, rfl, rfl, rfl, ?_⟩
  rintro s k r hk rfl
  rw [FaultsAtFirstFailure, exec_blk s (legalArg14_iff.2 hk)]
  refine ⟨fun hserved => ⟨afterBlk k (s.rem - BitVec.ofNat 32 (8 * k.toNat)), ?_, afterBlk_eq⟩, fun a hfail => ?_⟩
  · rw [readThen_of_served hserved]
    rfl
  · rw [readThen_of_failure hfail]

theorem reads_sstep (s : State) : reads s .sstep = [⟨s.ptr, .word⟩] := rfl

/-- Settles O35: the writes after a word that is served, BUSERR at `PTR` after one that is not. -/
theorem sstepResult : Obligations.SstepResult := by
  refine ⟨rfl, fun s => ⟨fun hserved => ?_, fun hfail => ?_⟩⟩
  · rw [exec_sstep, reads_sstep, readThen_of_served (by simpa using hserved)]
    rfl
  · obtain ⟨hfirst, hissued⟩ := SimpleMixer.single_failure hfail
    rw [exec_sstep, reads_sstep, readThen_of_failure hfirst, hissued]

end Sys2Proof.Proofs.WideMixer
end

section
/-! PROOFS. The digest of a WIDE command (spec/43_wide_mixer.md R185): at every step the primary lane and the bytes
left make up the digest the command owes, whatever the HOST and other agents do in between (R72). -/

namespace Sys2Proof.Proofs.WideDigest

open Sys2Proof Sys2Proof.Machine
open AlignedDigest (BufferHolds)

/-! ### The stream of blocks, cascade, word and tail (R185) -/

/-- What R185 makes of the last `r` bytes, from offset `o` on, of a buffer outside the small classes: `l` is the
primary lane after the bytes before. -/
def streamLane (cfg : Config) (B : Nat → Byte) (o r : Nat) (l : Lane) : Lane :=
  wideCascade cfg B (o + 32 * (r / 32)) (r % 32) (wideBlocks cfg B (r / 32) o l)

section
variable (cfg : Config) (B : Nat → Byte) (o : Nat) {r : Nat} (l : Lane)

/-- With less than a block left the stream is the cascade. -/
theorem streamLane_of_lt (h : r < 32) : streamLane cfg B o r l = wideCascade cfg B o r l := by
  rw [streamLane, Nat.div_eq_of_lt h, Nat.mod_eq_of_lt h]
  rfl

/-- With less than a band left the stream is the word and the tail. -/
theorem streamLane_of_lt_eight (h : r < 8) : streamLane cfg B o r l = wideWord cfg B o r l := by
  rw [streamLane_of_lt cfg B o l (by omega), wideCascade, if_neg (by omega), if_neg (by omega), if_neg (by omega)]

theorem streamLane_of_lt_four (h : r < 4) : streamLane cfg B o r l = wideTail cfg B o r l := by
  rw [streamLane_of_lt_eight cfg B o l (by omega), wideWord, if_neg (by omega)]

theorem streamLane_zero : streamLane cfg B o 0 l = l := by
  rw [streamLane_of_lt_four cfg B o l (by omega), wideTail, if_neg (by omega)]

/-- A whole block is left: it is grouped in first. -/
theorem streamLane_block (h : 32 ≤ r) : streamLane cfg B o r l
    = streamLane cfg B (o + 8 * 4) (r - 8 * 4) (groupLane cfg (bufferPairs B o 4) l) := by
  have hq : r / 32 = (r - 32) / 32 + 1 := by omega
  have hmod : (r - 32) % 32 = r % 32 := by omega
  have hoff : o + 32 * ((r - 32) / 32 + 1) = o + 32 + 32 * ((r - 32) / 32) := by omega
  simp only [streamLane, hq, hmod, hoff, wideBlocks]

/-- One band of the cascade is left: its lanes are those BLK takes in state WCASC (R180). -/
theorem streamLane_cascade {w : Word} (h8 : 8 ≤ w.toNat) (h31 : w.toNat ≤ 31) : streamLane cfg B o w.toNat l
    = streamLane cfg B (o + 8 * cascadeLanes w) (w.toNat - 8 * cascadeLanes w)
        (groupLane cfg (bufferPairs B o (cascadeLanes w)) l) := by
  obtain ⟨-, h7⟩ := cascadeLanes_bound h8 h31
  rw [streamLane_of_lt cfg B o l (by omega), streamLane_of_lt_eight cfg B _ _ (by omega), wideCascade, cascadeLanes]
  split_ifs <;> rfl

theorem streamLane_word (h4 : 4 ≤ r) (h7 : r ≤ 7) : streamLane cfg B o r l
    = streamLane cfg B (o + 4) (r - 4) (smix cfg cfg.cpair.lane0 l (bufferWord B o)) := by
  rw [streamLane_of_lt_eight cfg B o l (by omega), streamLane_of_lt_four cfg B _ _ (by omega), wideWord, if_pos h4]

theorem streamLane_tail (h1 : 1 ≤ r) (h3 : r ≤ 3) :
    streamLane cfg B o r l = smix cfg cfg.cpair.lane0 l (bufferGather B o r) := by
  rw [streamLane_of_lt_four cfg B o l (by omega), wideTail, if_pos h1]

/-- Outside the small classes the whole buffer is the stream. -/
theorem wideBody_eq_streamLane (h : ¬ (4 ≤ r ∧ r ≤ 16)) : wideBody cfg B r l = streamLane cfg B 0 r l := by
  unfold wideBody
  by_cases h3 : r ≤ 3
  · rw [if_pos h3, streamLane_of_lt_four cfg B 0 l (by omega)]
  · rw [if_neg h3, if_neg (by omega), if_neg (by omega), if_neg (by omega), streamLane, Nat.zero_add]

end

/-- The digest of R185 from the primary lane after the buffer's bytes. -/
def keyedDigest (cfg : Config) (len : Word) (l : Lane) : Word := laneDigest (smix cfg cfg.cpair.len l len)

theorem wideDigest_eq_keyedDigest (cfg : Config) (B : Nat → Byte) (len seed : Word) :
    wideDigest cfg B len.toNat seed = keyedDigest cfg len (wideBody cfg B len.toNat (seedLane seed)) := by
  simp only [wideDigest, keyedDigest, laneDigest, seedLane, BitVec.ofNat_toNat, BitVec.setWidth_eq]
  rfl

/-! ### A running command -/

/-- A running WIDE command. -/
structure WideRun (s : State) : Prop where
  consistent : Consistent s
  busy : s.busy = true
  modeq : s.modeq = .wide

/-- The rows of R241 for mode WIDE, with what the table says of the bytes left in each. -/
inductive WideRow (s : State) : Prop where
  | init (hs : s.seq = .init)
  | small (hs : s.seq = .wsmall) (h4 : 4 ≤ s.len.toNat) (h16 : s.len.toNat ≤ 16) (hr : s.rem = s.len)
  | block (hs : s.seq = .wblk) (h32 : 32 ≤ s.rem.toNat)
  | cascade (hs : s.seq = .wcasc) (h8 : 8 ≤ s.rem.toNat) (h31 : s.rem.toNat ≤ 31)
  | word (hs : s.seq = .wword) (h4 : 4 ≤ s.rem.toNat) (h7 : s.rem.toNat ≤ 7)
  | tail (hs : s.seq = .wtail) (h1 : 1 ≤ s.rem.toNat) (h3 : s.rem.toNat ≤ 3)
  | length (hs : s.seq = .wlen) (hr : s.rem = 0#32) (ho : s.olen = s.len)
  | last (hs : s.seq = .wfins)

section
variable {s : State} (h : WideRun s)
include h

theorem WideRun.sequencerOk : SequencerOk s := Registers.sequencerOk_of_consistent h.consistent

theorem WideRun.seq_ne_idle : s.seq ≠ .idle := AlignedReads.seq_ne_idle_of_busy h.consistent h.busy

theorem WideRun.cursorOk (hq : s.seq ≠ .init) : CursorOk s := by
  obtain ⟨-, -, hc, -⟩ := h.consistent
  exact hc h.busy hq

theorem WideRun.operandsOk : OperandsOk s := by
  obtain ⟨-, ho, -⟩ := h.consistent
  exact ho h.busy

theorem WideRun.rem_le_len (hq : s.seq ≠ .init) : s.rem.toNat ≤ s.len.toNat := (h.cursorOk hq).1

theorem WideRun.row : WideRow s := by
  obtain ⟨hwords, haset, hawords, hapacks, htail, hfin, hwsmall, hwblk, hwcasc, hwword, hwtail, hwlen, -⟩ :=
    h.sequencerOk
  have hm := h.modeq
  cases hs : s.seq
  case idle => exact absurd hs h.seq_ne_idle
  case init => exact .init hs
  case words => exact absurd hm (hwords hs).1
  case aset => exact absurd (hm.symm.trans (haset hs).1) nofun
  case awords => exact absurd (hm.symm.trans (hawords hs).1) nofun
  case apacks => exact absurd (hm.symm.trans (hapacks hs).1) nofun
  case tail => exact absurd hm (htail hs).1
  case fin => exact absurd hm (hfin hs).1
  case wsmall =>
    obtain ⟨-, h4, h16, hr, -⟩ := hwsmall hs
    exact .small hs h4 h16 hr
  case wblk => exact .block hs (hwblk hs).2.1
  case wcasc =>
    obtain ⟨-, h8, h31, -⟩ := hwcasc hs
    exact .cascade hs h8 h31
  case wword =>
    obtain ⟨-, h4, h7, -⟩ := hwword hs
    exact .word hs h4 h7
  case wtail =>
    obtain ⟨-, h1, h3, -⟩ := hwtail hs
    exact .tail hs h1 h3
  case wlen =>
    obtain ⟨-, hr, ho⟩ := hwlen hs
    exact .length hs hr ho
  case wfins => exact .last hs

theorem WideRun.seq_ne_fin : s.seq ≠ .fin := by
  obtain hs | hs | hs | hs | hs | hs | hs | hs := h.row <;> simp [hs]

/-- The command runs on. -/
theorem WideRun.wideRun_rowResult (hlast : s.seq ≠ .wfins) : WideRun (rowResult s) := by
  obtain ⟨hbusy, -, -, -, -, -, -, -, hmodeq, -⟩ := rowResult_frame s h.seq_ne_fin hlast
  exact ⟨Registers.consistent_rowResult h.consistent h.busy h.seq_ne_idle, hbusy.trans h.busy, hmodeq.trans h.modeq⟩

end

/-! ### The digest a running command owes -/

/-- The primary lane the command is to reach before LSTEP, if its buffer holds the bytes `B`. -/
def laneOwed (B : Nat → Byte) (s : State) : Lane :=
  match s.seq with
  | .init => wideBody s.cfg B s.len.toNat (seedLane s.seed)
  | .wsmall => wideBody s.cfg B s.len.toNat s.lanes.l0
  | _ => streamLane s.cfg B (s.len.toNat - s.rem.toNat) s.rem.toNat s.lanes.l0

/-- The digest the command is to deliver, if its buffer holds the bytes `B`. -/
def digestOwed (B : Nat → Byte) (s : State) : Word :=
  if s.seq = .wfins then laneDigest s.lanes.l0 else keyedDigest s.cfg s.len (laneOwed B s)

theorem digestOwed_of_ne_wfins {s : State} (B : Nat → Byte) (hs : s.seq ≠ .wfins) :
    digestOwed B s = keyedDigest s.cfg s.len (laneOwed B s) := if_neg hs

theorem laneOwed_of_init {s : State} (B : Nat → Byte) (hs : s.seq = .init) :
    laneOwed B s = wideBody s.cfg B s.len.toNat (seedLane s.seed) := by
  simp only [laneOwed, hs]

theorem laneOwed_of_wsmall {s : State} (B : Nat → Byte) (hs : s.seq = .wsmall) :
    laneOwed B s = wideBody s.cfg B s.len.toNat s.lanes.l0 := by
  simp only [laneOwed, hs]

theorem laneOwed_of_stream {s : State} (B : Nat → Byte) (hs : QuietRun.isStream s.seq = true) :
    laneOwed B s = streamLane s.cfg B (s.len.toNat - s.rem.toNat) s.rem.toNat s.lanes.l0 := by
  unfold laneOwed
  cases hq : s.seq <;> simp only [hq, QuietRun.isStream, Bool.false_eq_true] at hs
  all_goals rfl

theorem digestOwed_of_stream {s : State} (B : Nat → Byte) (hs : QuietRun.isStream s.seq = true) : digestOwed B s
    = keyedDigest s.cfg s.len (streamLane s.cfg B (s.len.toNat - s.rem.toNat) s.rem.toNat s.lanes.l0) := by
  rw [← laneOwed_of_stream B hs]
  exact digestOwed_of_ne_wfins B fun hlast => by simp [hlast, QuietRun.isStream] at hs

/-- After WINIT a small buffer goes to SMALL, every other one to the stream (R241). -/
theorem afterWinit_cases (len : Word) :
    (afterWinit len = .wsmall ∧ 4 ≤ len.toNat ∧ len.toNat ≤ 16) ∨
    (QuietRun.isStream (afterWinit len) = true ∧ ¬ (4 ≤ len.toNat ∧ len.toNat ≤ 16)) := by
  unfold afterWinit
  split_ifs with h32 h17 h4
  · exact .inr ⟨rfl, by omega⟩
  · exact .inr ⟨rfl, by omega⟩
  · exact .inl ⟨rfl, h4, by omega⟩
  · exact .inr ⟨rfl, by omega⟩
  · exact .inr ⟨rfl, by omega⟩

/-- WINIT starts WideDigest (R177, R185). -/
theorem digestOwed_winit {s : State} (B : Nat → Byte) (hs : s.seq = .init) (hm : s.modeq = .wide) :
    digestOwed B (rowResult s) = digestOwed B s := by
  rw [digestOwed_of_ne_wfins B (show s.seq ≠ .wfins by simp [hs]), laneOwed_of_init B hs,
    QuietRun.rowResult_winit hs hm]
  rcases afterWinit_cases s.len with ⟨hsmall, -⟩ | ⟨hstream, hclass⟩
  · rw [digestOwed_of_ne_wfins B (by simp [hsmall]), laneOwed_of_wsmall B hsmall]
  · rw [digestOwed_of_stream B hstream, Nat.sub_self, wideBody_eq_streamLane _ _ _ hclass]

/-- LSTEP mixes the length in, OLEN still being LEN (R182). -/
theorem digestOwed_lstep {s : State} (B : Nat → Byte) (hs : s.seq = .wlen) (hr : s.rem = 0#32) (ho : s.olen = s.len) :
    digestOwed B (rowResult s) = digestOwed B s := by
  have hrem : s.rem.toNat = 0 := by rw [hr]; rfl
  rw [digestOwed_of_stream B (s := s) (by rw [hs]; rfl), hrem, streamLane_zero, QuietRun.rowResult_wlen hs, digestOwed,
    if_pos rfl, ho]
  rfl

/-! ### The bytes at the cursor -/

/-- The pairs of a block stand 8 bytes apart (R180). -/
theorem pairsValue_eq_map (s : State) (p : Addr) (k : Nat) : pairsValue s p k = (List.range k).map fun j =>
    (memWord s (p + BitVec.ofNat 32 (8 * j)), memWord s (p + BitVec.ofNat 32 (8 * j + 4))) := by
  induction k generalizing p with
  | zero => rfl
  | succ k ih =>
    have shift : ∀ i, p + 8#32 + BitVec.ofNat 32 i = p + BitVec.ofNat 32 (i + 8) := fun i => by
      rw [BitVec.ofNat_add, BitVec.add_assoc, BitVec.add_comm 8#32]
    simp only [pairsValue, ih, shift, List.range_succ_eq_map, List.map_cons, List.map_map, Function.comp_def,
      Nat.mul_succ, Nat.mul_zero, Nat.zero_add, Nat.add_right_comm _ 4 8, BitVec.add_zero]

/-- `s` runs a WIDE command over the bytes `B`, which no pending store touches, and owes the digest `d`. -/
structure Hashing (B : Nat → Byte) (d : Word) (s : State) : Prop extends WideRun s where
  buffer : BufferHolds B s
  owes : digestOwed B s = d

section
variable {B : Nat → Byte} {d : Word} {s : State} (h : Hashing B d s)
include h

/-- The byte at offset `i` from `PTR` is the buffer's, `LEN - REM` bytes being consumed (R28). -/
theorem Hashing.memByte_ptr (hq : s.seq ≠ .init) {i : Nat} (hi : i < s.rem.toNat) :
    memByte s (s.ptr + BitVec.ofNat 32 i) = (B (s.len.toNat - s.rem.toNat + i)).setWidth 32 := by
  have hle := h.rem_le_len hq
  rw [← h.buffer.bytes _ (by omega), memByte, bufferByte,
    MemoryPort.cursor_offset_toNat (h.cursorOk hq) h.operandsOk hi, Nat.add_assoc]

/-- The word at offset `i` from `PTR`. -/
theorem Hashing.memWord_ptr (hq : s.seq ≠ .init) {i : Nat} (hi : i + 4 ≤ s.rem.toNat) :
    memWord s (s.ptr + BitVec.ofNat 32 i) = bufferWord B (s.len.toNat - s.rem.toNat + i) := by
  have hlast := MemoryPort.cursor_offset_toNat (h.cursorOk hq) h.operandsOk (i := i + 3) (by omega)
  have hfirst := MemoryPort.cursor_offset_toNat (h.cursorOk hq) h.operandsOk (i := i) (by omega)
  have hlt := (s.ptr + BitVec.ofNat 32 (i + 3)).isLt
  have next : ∀ j < 4, memByte s (s.ptr + BitVec.ofNat 32 i + BitVec.ofNat 32 j)
      = (B (s.len.toNat - s.rem.toNat + i + j)).setWidth 32 := fun j hj => by
    rw [BitVec.add_assoc, ← BitVec.ofNat_add, h.memByte_ptr hq (by omega), Nat.add_assoc]
  have zero := next 0 (by omega)
  rw [BitVec.add_zero] at zero
  rw [MemoryPort.memWord_eq_bytes s (by omega), zero, next 1 (by omega), next 2 (by omega), next 3 (by omega),
    bufferWord, Nat.add_zero]

theorem Hashing.memWord_ptr_zero (hq : s.seq ≠ .init) (h4 : 4 ≤ s.rem.toNat) :
    memWord s s.ptr = bufferWord B (s.len.toNat - s.rem.toNat) := by
  simpa using h.memWord_ptr hq (i := 0) (by omega)

theorem Hashing.pairsValue_ptr (hq : s.seq ≠ .init) {k : Nat} (hk : 8 * k ≤ s.rem.toNat) :
    pairsValue s s.ptr k = bufferPairs B (s.len.toNat - s.rem.toNat) k := by
  rw [pairsValue_eq_map, bufferPairs]
  refine List.map_congr_left fun j hj => ?_
  have hj := List.mem_range.1 hj
  rw [h.memWord_ptr hq (by omega), h.memWord_ptr hq (by omega), Nat.add_assoc]

theorem Hashing.gatherValue_ptr (hq : s.seq ≠ .init) (h1 : 1 ≤ s.rem.toNat) :
    gatherValue s s.ptr s.rem.toNat = bufferGather B (s.len.toNat - s.rem.toNat) s.rem.toNat := by
  have zero := h.memByte_ptr hq (i := 0) (by omega)
  rw [BitVec.add_zero, Nat.add_zero] at zero
  rw [gatherValue, bufferGather, zero, h.memByte_ptr hq (by omega), h.memByte_ptr hq (by omega),
    Nat.add_sub_assoc h1]

/-- The words SMALL reads are those R185 names for the buffer's length (R179). -/
theorem Hashing.group_smallValue (hs : s.seq = .wsmall) (h4 : 4 ≤ s.len.toNat) (h16 : s.len.toNat ≤ 16)
    (hr : s.rem = s.len) (l : Lane) :
    groupLane s.cfg (smallValue s (BitVec.ofNat 3 (smallClass s.len))) l = wideBody s.cfg B s.len.toNat l := by
  have hq : s.seq ≠ .init := by simp [hs]
  have hptr := MemoryPort.ptr_eq_addr (h.cursorOk hq) hr
  have word : ∀ i, i + 4 ≤ s.len.toNat → memWord s (s.addr + BitVec.ofNat 32 i) = bufferWord B i := fun i hi => by
    rw [← hptr, h.memWord_ptr hq (by rw [hr]; exact hi), hr, Nat.sub_self, Nat.zero_add]
  have first := word 0 (by omega)
  rw [BitVec.add_zero] at first
  have last := word (s.len.toNat - 4) (by omega)
  rw [← MemoryPort.sub_eq_ofNat h4] at last
  unfold wideBody smallClass
  rw [if_neg (show ¬ s.len.toNat ≤ 3 by omega)]
  split_ifs with h8 h12
  · rw [smallValue, if_pos rfl, first, last]
  · have last8 := word (s.len.toNat - 8) (by omega)
    rw [← MemoryPort.sub_eq_ofNat (by omega)] at last8
    rw [smallValue, if_neg (by decide), if_pos rfl, first, last, last8, word 4 (by omega)]
  · rw [smallValue, if_neg (by decide), if_neg (by decide), first, last, word 4 (by omega), word 8 (by omega)]

/-! ### Every row keeps the digest owed -/

theorem Hashing.owed_small (hs : s.seq = .wsmall) (h4 : 4 ≤ s.len.toNat) (h16 : s.len.toNat ≤ 16)
    (hr : s.rem = s.len) : digestOwed B (rowResult s) = digestOwed B s := by
  rw [digestOwed_of_ne_wfins B (show s.seq ≠ .wfins by simp [hs]), laneOwed_of_wsmall B hs,
    ← h.group_smallValue hs h4 h16 hr, QuietRun.rowResult_wsmall hs, digestOwed_of_stream B rfl]
  simp only [writeSmall_lanes, WideMixer.group_l0, writeSmall_rem, writeSmall_cfg, writeSmall_len, logReads_cfg,
    logReads_len, logReads_lanes]
  exact congrArg (keyedDigest s.cfg s.len) (streamLane_zero _ _ _ _)

/-- Consuming `n` bytes of the stream moves its offset by `n`. -/
theorem Hashing.owed_stream_next {t : State} {n : Nat} (hs : QuietRun.isStream s.seq = true)
    (ht : QuietRun.isStream t.seq = true) (hn : n ≤ s.rem.toNat) (hcfg : t.cfg = s.cfg)
    (hlen : t.len = s.len) (hrem : t.rem = s.rem - BitVec.ofNat 32 n)
    (hlane : streamLane s.cfg B (s.len.toNat - s.rem.toNat) s.rem.toNat s.lanes.l0
      = streamLane s.cfg B (s.len.toNat - s.rem.toNat + n) (s.rem.toNat - n) t.lanes.l0) :
    digestOwed B t = digestOwed B s := by
  have hle := h.rem_le_len fun hq => by simp [hq, QuietRun.isStream] at hs
  rw [digestOwed_of_stream B ht, digestOwed_of_stream B hs, hlane, hcfg, hlen, hrem, sub_toNat hn,
    show s.len.toNat - (s.rem.toNat - n) = s.len.toNat - s.rem.toNat + n by omega]

theorem Hashing.owed_block (hs : s.seq = .wblk) (h32 : 32 ≤ s.rem.toNat) :
    digestOwed B (rowResult s) = digestOwed B s := by
  have hq : s.seq ≠ .init := by simp [hs]
  rw [QuietRun.rowResult_wblk hs]
  refine h.owed_stream_next (n := 8 * 4) (by rw [hs]; rfl)
    (by rw [writeBlk_seq]; exact QuietRun.isStream_afterBlk _ _) h32 rfl rfl rfl ?_
  rw [streamLane_block _ _ _ _ h32, ← h.pairsValue_ptr hq h32, writeBlk_lanes, WideMixer.group_l0, logReads_cfg,
    logReads_lanes]

theorem Hashing.owed_cascade (hs : s.seq = .wcasc) (h8 : 8 ≤ s.rem.toNat) (h31 : s.rem.toNat ≤ 31) :
    digestOwed B (rowResult s) = digestOwed B s := by
  have hq : s.seq ≠ .init := by simp [hs]
  obtain ⟨hle, h7⟩ := cascadeLanes_bound h8 h31
  rw [QuietRun.rowResult_wcasc hs]
  refine h.owed_stream_next (n := 8 * cascadeLanes s.rem) (by rw [hs]; rfl) (QuietRun.isStream_afterBlk _ _) hle rfl
    rfl ?_ ?_
  · rw [writeBlk_rem, ofNat3_toNat (by omega), logReads_rem]
  · rw [streamLane_cascade _ _ _ _ h8 h31, ← h.pairsValue_ptr hq hle, writeBlk_lanes, WideMixer.group_l0, logReads_cfg,
      logReads_lanes]

theorem Hashing.owed_word (hs : s.seq = .wword) (h4 : 4 ≤ s.rem.toNat) (h7 : s.rem.toNat ≤ 7) :
    digestOwed B (rowResult s) = digestOwed B s := by
  have hq : s.seq ≠ .init := by simp [hs]
  rw [QuietRun.rowResult_wword hs]
  refine h.owed_stream_next (by rw [hs]; rfl) (QuietRun.isStream_afterSstep _) h4 rfl rfl rfl ?_
  rw [streamLane_word _ _ _ _ h4 h7, ← h.memWord_ptr_zero hq h4]
  rfl

theorem Hashing.owed_tail (hs : s.seq = .wtail) (h1 : 1 ≤ s.rem.toNat) (h3 : s.rem.toNat ≤ 3) :
    digestOwed B (rowResult s) = digestOwed B s := by
  have hq : s.seq ≠ .init := by simp [hs]
  rw [QuietRun.rowResult_wtail hs]
  refine h.owed_stream_next (n := s.rem.toNat) (by rw [hs]; rfl) rfl le_rfl rfl rfl (by simp) ?_
  rw [streamLane_tail _ _ _ _ h1 h3, ← h.gatherValue_ptr hq h1, Nat.sub_self, streamLane_zero]
  rfl

theorem Hashing.owed_rowResult (hlast : s.seq ≠ .wfins) : digestOwed B (rowResult s) = digestOwed B s := by
  cases h.row with
  | init hs => exact digestOwed_winit B hs h.modeq
  | small hs h4 h16 hr => exact h.owed_small hs h4 h16 hr
  | block hs h32 => exact h.owed_block hs h32
  | cascade hs h8 h31 => exact h.owed_cascade hs h8 h31
  | word hs h4 h7 => exact h.owed_word hs h4 h7
  | tail hs h1 h3 => exact h.owed_tail hs h1 h3
  | length hs hr ho => exact digestOwed_lstep B hs hr ho
  | last hs => exact absurd hs hlast

theorem Hashing.hashing_rowResult (hlast : s.seq ≠ .wfins) : Hashing B d (rowResult s) := by
  obtain ⟨-, -, -, -, -, haddr, hlen, -, -, -, hmem, hagenda, -⟩ := rowResult_frame s h.seq_ne_fin hlast
  exact ⟨h.wideRun_rowResult hlast, h.buffer.of_frame haddr hlen hmem hagenda,
    (h.owed_rowResult hlast).trans h.owes⟩

/-- WFIN delivers what is owed (R183). -/
theorem Hashing.digest_last (hs : s.seq = .wfins) : (rowResult s).digest = d := by
  rw [← h.owes, QuietRun.rowResult_wfins hs, finish_digest, digestOwed, if_pos hs]

end

/-! ### The command delivers what it owes -/

/-- What holds of a WIDE command after each step: it still runs and owes the digest, or it has ended, and if DONE then
with that digest. -/
def Delivers (B : Nat → Byte) (d : Word) (s : State) : Prop :=
  (s.busy = true → Hashing B d s) ∧ (s.done = true → s.digest = d)

section
variable {B : Nat → Byte} {d : Word} {s : State} (h : Hashing B d s)
include h

theorem Hashing.delivers : Delivers B d s := by
  obtain ⟨hd, -⟩ := Registers.display_of_busy h.consistent h.busy
  exact ⟨fun _ => h, by simp [hd]⟩

theorem Hashing.popped {u : State} (hu : Popped s u) : Hashing B d u := by
  have hpop := Registers.popped_eq hu
  refine ⟨⟨Registers.consistent_popped hu h.consistent, ?_, ?_⟩, h.buffer.popped hu, ?_⟩ <;> rw [hpop]
  · exact h.busy
  · exact h.modeq
  · exact h.owes

/-- The MIXER's turn. -/
theorem Hashing.exec_delivers {t : State} (he : exec (rowInstr s) s = .next t) : Delivers B d t := by
  have hi := decode_issue h.sequencerOk h.seq_ne_idle
  rcases WordPath.mixer_next_cases h.consistent h.seq_ne_idle hi he with rfl | ⟨a, log, rfl⟩
  · by_cases hlast : s.seq = .wfins
    · exact ⟨fun hb => by simp [QuietRun.rowResult_wfins hlast] at hb, fun _ => h.digest_last hlast⟩
    · exact (h.hashing_rowResult hlast).delivers
  · exact ⟨nofun, nofun⟩

theorem Hashing.step_delivers {t : State} (hstep : step s = .next t) : Delivers B d t := by
  obtain ⟨u, hu, hkind⟩ := AlignedReads.busy_step_cases h.consistent h.busy hstep
  have hpop := h.popped hu
  rcases hkind with he | ⟨vs, rfl⟩ | rfl | ⟨a, b, ha, rfl⟩
  · exact hpop.exec_delivers he
  · have hread : Hashing B d { u with hostReads := vs } :=
      ⟨⟨hpop.consistent, hpop.busy, hpop.modeq⟩, ⟨hpop.buffer.bytes, hpop.buffer.stable⟩, hpop.owes⟩
    exact hread.delivers
  · exact ⟨nofun, nofun⟩
  · have hout : ¬ InBuffer u a.toNat := fun hin =>
      h.buffer.stable a b (by rw [ha]; exact List.mem_cons_self) (MemoryPort.inBuffer_popped hu hin)
    have hstore : Hashing B d (storeByte a b u) :=
      ⟨⟨hpop.consistent, hpop.busy, hpop.modeq⟩, hpop.buffer.storeByte b hout, hpop.owes⟩
    exact hstore.delivers

end

/-- An accepted WIDE command owes WideDigest of its buffer (R185). -/
theorem hashing_of_started {s : State} (hc : Consistent s) (hs : Started .wide s) (hstable : StableBuffer s) :
    Hashing (bufferByte s) (wideDigest s.cfg (bufferByte s) s.len.toNat s.seed) s := by
  obtain ⟨hb, hq, hm⟩ := hs
  refine ⟨⟨hc, hb, hm⟩, ⟨fun _ _ => rfl, hstable⟩, ?_⟩
  rw [digestOwed_of_ne_wfins _ (by simp [hq]), laneOwed_of_init _ hq, wideDigest_eq_keyedDigest]

/-- Settles O56: every step keeps the digest the command owes, and only WFIN ends it DONE. -/
theorem wideCommandDigest : Obligations.WideCommandDigest := by
  intro s t k hc hs hstable hbusy hrun hdone
  have start := hashing_of_started hc hs hstable
  exact (WordPath.run_keeps (fun _ _ hb hP hstep => (hP.1 hb).step_delivers hstep) k hbusy start.delivers hrun).2 hdone

end Sys2Proof.Proofs.WideDigest
end

section
/-! PROOFS. The statements of the HOST interface (spec/44_host_interface.md): reads of the window (R210), operand writes
(R212), NOP, START, CLR and illegal commands (R213 to R218, R251 to R253), writes while a command runs (R219), ignored
writes (R220), and the accesses that are no transaction (R221). -/

namespace Sys2Proof.Proofs.HostInterface

open Sys2Proof Sys2Proof.Machine

/-! ### The operations a command ends in -/

theorem whenIdle_of_idle {s : State} (hb : s.busy = false) (f : State → State) : whenIdle f s = f s := by
  simp [whenIdle, hb]

theorem whenIdle_id (s : State) : whenIdle id s = s := by
  simp [whenIdle]

/-- BADCMD changes the display of an idle block only (R23, R251, R256). -/
theorem badCommand_of_idle {s : State} (hb : s.busy = false) (hq : s.seq = .idle) : whenIdle badCommand s =
    { s with done := false, faddr := 0#32, fault := true, fcode := .badcmd } := by
  rw [whenIdle_of_idle hb, badCommand, enterFault, hb, hq]
  rfl

/-! ### START (R214 to R217) -/

theorem exec_start {i : Instr} {m : Mode} {s : State} (hb : s.busy = false)
    (him : (i, m) ∈ [(Instr.startSimple, Mode.simple), (.startAligned, .aligned), (.startWide, .wide)]) :
    exec i s = .next (startCommand m s) := by
  rw [← whenIdle_of_idle hb (startCommand m)]
  simp only [List.mem_cons, Prod.mk.injEq, List.not_mem_nil, or_false] at him
  rcases him with ⟨rfl, rfl⟩ | ⟨rfl, rfl⟩ | ⟨rfl, rfl⟩ <;> rfl

/-- Row INIT of R241: an accepted command begins with WINIT in mode WIDE and with INIT32 otherwise. -/
theorem decode_issue_init {s : State} (hs : s.seq = .init) :
    decode (.uop (issue s)) = .instr (if s.modeq = .wide then .winit else .init32) := by
  by_cases hm : s.modeq = .wide
  · rw [if_pos hm, WideMixer.issue_winit hs hm]
    exact Encoding.decodeInvertsEncode .winit rfl
  · rw [if_neg hm, SimpleMixer.issue_init32 hs hm]
    exact Encoding.decodeInvertsEncode .init32 rfl

/-- Settles O13: the three outcomes of `startCommand_cases`, whose conditions exclude each other. -/
theorem startCommandOutcome : Obligations.StartCommandOutcome := by
  intro s i m hb him
  refine ⟨?_, decode_issue_init rfl⟩
  rw [exec_start hb him]
  rcases startCommand_cases m s with ⟨e, hneg⟩ | ⟨e, hlen, hext⟩ | ⟨e, hlen, hfits⟩ <;> rw [e]
  · rw [if_pos hneg]
    rfl
  · rw [if_neg (not_le.2 hlen), if_pos hext]
    rfl
  · have hext : ¬ (s.len ≠ 0#32 ∧ s.addr.toNat + s.len.toNat > 2 ^ 32) := fun ⟨hne, hpast⟩ =>
      hfits.elim hne (not_le.2 hpast)
    rw [if_neg (not_le.2 hlen), if_neg hext]
    rfl

/-! ### Writes while a command runs (R219) -/

/-- A write to a full word answers, and leaves the state it finds. -/
theorem hostTurn_write_dropped {s : State} {off : BitVec 5} (hb : s.busy = true) (hoff : off.toNat % 4 = 0)
    (v : Word) : outcome (hostTurn (packTxn true off v) s) = .next s := by
  rcases Encoding.hostTurn_next_or_refused (packTxn true off v) s with ⟨t, ht⟩ | ⟨-, hmis⟩
  · rw [ht, Scope.hostTurn_write_busy (txnWe_packTxn ..) hb ht]
  · rw [txnOff_packTxn] at hmis
    exact absurd hoff hmis

/-- Settles O11: the HOST's turn is a write to a full word, and its event is used up. -/
theorem busyWritesAreDropped : Obligations.BusyWritesAreDropped := by
  intro s off v es hb hoff ha
  have hlegal : ∀ o ∈ [0x00#5, 0x08#5, 0x0C#5, 0x10#5], o.toNat % 4 = 0 := by decide
  rw [step_eq, Scope.fetch_of_txn ha]
  exact hostTurn_write_dropped (s := { s with agenda := es }) hb (hlegal off hoff) v

/-! ### Accesses that are no transaction (R221) -/

theorem hostTurn_misaligned {off : BitVec 5} (hoff : off.toNat % 4 ≠ 0) (we : Bool) (v : Word) (s : State) :
    hostTurn (packTxn we off v) s = .refuse .notATransaction := by
  have hl : legalOffset (txnOff (packTxn we off v)) = false := by
    rwa [txnOff_packTxn, Encoding.legalOffset_eq_false_iff]
  simp [hostTurn, decodeTxn_misaligned hl]

theorem windowOffset_bounds {cfg : Config} {a n : Nat} {off : BitVec 5} (h : windowOffset cfg a n = some off) :
    n = 4 ∧ cfg.base ≤ a ∧ a < cfg.base + 32 := by
  unfold windowOffset at h
  split_ifs at h with hc
  exact hc

/-- An access that is not a full aligned word of the window is refused (R91). -/
theorem accessTurn_refused {s : State} {a n : Nat}
    (h : n ≠ 4 ∨ a < s.cfg.base ∨ s.cfg.base + 32 ≤ a ∨ (a - s.cfg.base) % 4 ≠ 0) (we : Bool) (v : Word) :
    accessTurn we a n v s = .refuse .notATransaction := by
  rcases accessTurn_cases we a n v s with ⟨off, ho, e⟩ | ⟨-, e⟩ <;> rw [e]
  have hoff := Encoding.windowOffset_eq_some ho
  have hin := windowOffset_bounds ho
  exact hostTurn_misaligned (by omega) we v s

/-- Settles O15: the HOST's turn refuses the misaligned offset, the window every other access. -/
theorem nonTransactionsAreRefused : Obligations.NonTransactionsAreRefused := by
  refine ⟨fun s we off v es hoff ha => ?_, fun s we a n v es hout ha => ?_⟩
  · rw [step_eq, Scope.fetch_of_txn ha, hostTurn_misaligned hoff]
    rfl
  · rw [step_eq, Encoding.fetch_of_access ha, accessTurn_refused (s := { s with agenda := es }) hout]
    rfl

/-! ### The words CTRL and STATUS read as (R21, R22, R102) -/

/-- A field with another below it counts by the width of the lower one. -/
theorem append_toNat {m n : Nat} (x : BitVec m) (y : BitVec n) : (x ++ y).toNat = x.toNat * 2 ^ n + y.toNat := by
  rw [BitVec.toNat_append, ← Nat.shiftLeft_add_eq_or_of_lt y.isLt, Nat.shiftLeft_eq]

theorem statusWord_toNat (s : State) : (statusWord s).toNat =
    s.busy.toNat + 2 * s.done.toNat + 4 * s.fault.toNat + 16 * (faultCodeBits s.fcode).toNat := by
  unfold statusWord
  change BitVec.toNat (w := 24 + 4 + 1 + 1 + 1 + 1) _ = _
  simp only [append_toNat, BitVec.toNat_ofBool, BitVec.toNat_ofNat]
  ring

theorem exec_rd {off : BitVec 5} {s : State} {v : Word} (hoff : legalOffset off = true) (hv : regRead s off = v) :
    exec (.rd off) s = .next { s with hostReads := s.hostReads ++ [v] } := by
  subst hv
  exact if_pos hoff

/-- Settles O9: RD gives the word its offset selects; CTRL and STATUS are the numbers of their fields. -/
theorem rdReturnsTheRegister : Obligations.RdReturnsTheRegister := by
  refine ⟨fun off v hoff => ?_, fun s =>
    ⟨exec_rd rfl ?_, exec_rd rfl ?_, exec_rd rfl rfl, exec_rd rfl rfl, exec_rd rfl rfl, exec_rd rfl rfl,
      exec_rd rfl rfl, exec_rd rfl rfl⟩⟩
  · have hlegal : legalOffset (txnOff (packTxn false off v)) = true := by rwa [txnOff_packTxn, legalOffset_iff]
    exact (decodeTxn_read hlegal (txnWe_packTxn ..)).trans (by rw [txnOff_packTxn])
  · change ctrlWord s = _
    cases hm : s.modeq <;> simp only [ctrlWord, hm] <;> rfl
  · change statusWord s = _
    rw [← BitVec.setWidth_eq (statusWord s), ← BitVec.ofNat_toNat, statusWord_toNat]
    cases s.fcode <;> rfl

/-! ### Writes with BUSY = 0, and writes without an effect -/

/-- Settles O10: an idle block takes the value. -/
theorem operandWritesStore : Obligations.OperandWritesStore := fun _ _ hb =>
  ⟨congrArg _ (whenIdle_of_idle hb _), congrArg _ (whenIdle_of_idle hb _), congrArg _ (whenIdle_of_idle hb _)⟩

/-- Settles O12: the four ignored writes do nothing, and NOP is the identity, dropped or not. -/
theorem nopAndReadOnlyWritesChangeNothing : Obligations.NopAndReadOnlyWritesChangeNothing :=
  ⟨rfl, fun s _ => ⟨rfl, rfl, rfl, rfl, congrArg _ (whenIdle_id s)⟩⟩

/-! ### CLR and illegal commands (R218, R251) -/

theorem decodeCommand_illegal {v : Word} (hv : v ∉ [0x0#32, 0x1#32, 0x3#32, 0x5#32, 0x8#32]) :
    decodeCommand v = .badCommand v := by
  simp only [List.mem_cons, List.not_mem_nil, or_false, not_or] at hv
  obtain ⟨h0, h1, h3, h5, h8⟩ := hv
  simp only [decodeCommand, if_neg h0, if_neg h1, if_neg h3, if_neg h5, if_neg h8]

theorem hostTurn_of_badCommand {w : BitVec 38} {v : Word} (h : decodeTxn w = .badCommand v) (s : State) :
    hostTurn w s = .settled (whenIdle badCommand s) := by
  simp [hostTurn, h]

/-- Settles O14: CLR is `clearStatus`; an illegal value takes the fault BADCMD in an idle block. -/
theorem clrAndIllegalValues : Obligations.ClrAndIllegalValues := by
  refine ⟨rfl, fun s hb => congrArg _ (whenIdle_of_idle hb _), fun s v es hb hq hv ha => ?_⟩
  have hbad : decodeTxn (packTxn true 0x00#5 v) = .badCommand v :=
    (Encoding.decodeTxn_writeCtrl v).trans (decodeCommand_illegal hv)
  rw [step_of_settled ((Scope.fetch_of_txn ha).trans (hostTurn_of_badCommand hbad _))]
  exact congrArg _ (badCommand_of_idle (s := { s with agenda := es }) hb hq)

end Sys2Proof.Proofs.HostInterface
end

section
/-! PROOFS. The statements of the sequencer (spec/45_sequencer.md): on its turn, and when no event is pending (log 5),
the busy MIXER runs the row of R241's table that applies. -/

namespace Sys2Proof.Proofs.Sequencer

open Sys2Proof Sys2Proof.Machine

/-! ### The MIXER's step is the row's instruction -/

/-- The byte of the row (R97, R240) is run as `stepRunsTheIssuedByte` says; the row does not depend on the agenda. -/
theorem step_of_mixerNext {s u : State} (h : Consistent s) (hb : s.busy = true) (hu : MixerNext s u) :
    step s = exec (rowInstr s) u := by
  have hq : s.seq ≠ .idle := AlignedReads.seq_ne_idle_of_busy h hb
  have hissue : decodeUop (issue s) = .instr (rowInstr s) :=
    decode_issue (Registers.sequencerOk_of_consistent h) hq
  obtain ⟨onIdleAgenda, onTurn⟩ := Encoding.stepRunsTheIssuedByte s (rowInstr s) hb hq hissue
  rcases hu with ⟨ha, rfl⟩ | ⟨es, ha, rfl⟩
  · exact onIdleAgenda ha
  · exact onTurn es ha

/-! ### The operands R241 gives by ranges -/

theorem smallClass_eq_one {len : Word} (h : len.toNat ≤ 8) : smallClass len = 1 := if_pos h

theorem smallClass_eq_two {len : Word} (h9 : 9 ≤ len.toNat) (h12 : len.toNat ≤ 12) : smallClass len = 2 := by
  rw [smallClass, if_neg (by omega), if_pos h12]

theorem smallClass_eq_three {len : Word} (h : 13 ≤ len.toNat) : smallClass len = 3 := by
  rw [smallClass, if_neg (by omega), if_neg (by omega)]

theorem cascadeLanes_eq_three {rem : Word} (h : 24 ≤ rem.toNat) : cascadeLanes rem = 3 := if_pos h

theorem cascadeLanes_eq_two {rem : Word} (h16 : 16 ≤ rem.toNat) (h23 : rem.toNat ≤ 23) : cascadeLanes rem = 2 := by
  rw [cascadeLanes, if_neg (by omega), if_pos h16]

theorem cascadeLanes_eq_one {rem : Word} (h : rem.toNat ≤ 15) : cascadeLanes rem = 1 := by
  rw [cascadeLanes, if_neg (by omega), if_neg (by omega)]

/-! ### The rows that choose -/

section
variable {s : State}

theorem rowInstr_of_init (hs : s.seq = .init) : rowInstr s = if s.modeq = .wide then .winit else .init32 := by
  simp only [rowInstr, hs]

theorem rowInstr_of_wsmall (hs : s.seq = .wsmall) : rowInstr s = .small (BitVec.ofNat 3 (smallClass s.len)) := by
  simp only [rowInstr, hs]

theorem rowInstr_of_wcasc (hs : s.seq = .wcasc) : rowInstr s = .blk (BitVec.ofNat 3 (cascadeLanes s.rem)) := by
  simp only [rowInstr, hs]

end

/-- Settles O40: `rowInstr` is the table, row by row; INIT chooses by the mode, WSMALL by LEN, WCASC by REM. -/
theorem sequencerIssuesTheTable : Obligations.SequencerIssuesTheTable := by
  intro s u h hb hu
  rw [step_of_mixerNext h hb hu]
  refine ⟨?init32, ?winit, ?words, ?aset, ?awords, ?apacks, ?tail, ?fin, ?small1, ?small2, ?small3, ?wblk, ?blk3,
    ?blk2, ?blk1, ?wword, ?wtail, ?wlen, ?wfins⟩ <;> intro hs
  case init32 => intro hm; rw [rowInstr_of_init hs, if_neg hm]
  case winit => intro hm; rw [rowInstr_of_init hs, if_pos hm]
  case small1 => intro h8; rw [rowInstr_of_wsmall hs, smallClass_eq_one h8]
  case small2 => intro h9 h12; rw [rowInstr_of_wsmall hs, smallClass_eq_two h9 h12]
  case small3 => intro h13; rw [rowInstr_of_wsmall hs, smallClass_eq_three h13]
  case blk3 => intro h24; rw [rowInstr_of_wcasc hs, cascadeLanes_eq_three h24]
  case blk2 => intro h16 h23; rw [rowInstr_of_wcasc hs, cascadeLanes_eq_two h16 h23]
  case blk1 => intro h15; rw [rowInstr_of_wcasc hs, cascadeLanes_eq_one h15]
  case aset | tail | wtail => simp only [rowInstr, hs, BitVec.ofNat_toNat]
  all_goals simp only [rowInstr, hs]

end Sys2Proof.Proofs.Sequencer
end

section
/-! PROOFS. The statement of the exceptions family (spec/60_exceptions.md): the entry of BUSERR (R254, R256). -/

namespace Sys2Proof.Proofs.Exceptions

open Sys2Proof Sys2Proof.Machine

/-- Only micro-operations read the buffer (R70). -/
theorem reads_of_host {i : Instr} (hi : isHost i = true) (s : State) : reads s i = [] := by
  cases i <;> simp only [isHost, Bool.false_eq_true] at hi <;> rfl

theorem isHost_of_firstFailure {s : State} {i : Instr} {a : Addr} (h : firstFailure s.cfg (reads s i) = some a) :
    isHost i = false := by
  cases hi : isHost i with
  | false => rfl
  | true =>
    rw [reads_of_host hi] at h
    cases h

/-- A well-formed instruction answers a next state, which after a read not served is that of BUSERR (R254). -/
theorem faultsAtFirstFailure_of_wellFormed {i : Instr} (hw : i.wellFormed = true) (s : State) :
    FaultsAtFirstFailure s i := by
  intro a hfail
  obtain ⟨t, ht⟩ := Encoding.exec_next hw s
  rcases exec_uop_cases (isHost_of_firstFailure hfail) ht with ⟨hserved, -⟩ | ⟨b, hb, rfl⟩
  · rw [firstFailure_eq_none.2 hserved] at hfail
    cases hfail
  · obtain rfl : b = a := Option.some.inj (hb.symm.trans hfail)
    exact ht

/-- Settles O39: the fault of the first read not served, its fields written out. -/
theorem busErrorEntry : Obligations.BusErrorEntry :=
  fun s _ a hw hfail => faultsAtFirstFailure_of_wellFormed hw s a hfail

end Sys2Proof.Proofs.Exceptions
end

section
/-! PROOFS. Termination of a busy command left to the MIXER (spec/70_reset_and_hazards.md R287, R288, log 5): each row of
R241 consumes a word or leads on to a later stage of the run, and a row whose read fails ends the run with BUSERR. -/

namespace Sys2Proof.Proofs.Termination

open Sys2Proof Sys2Proof.Machine

/-! ### The stages of a run (R241) -/

/-- A bound on the micro-operations a run in state `q` of the sequencer has left, apart from those the words left to
consume pay for. -/
def stage : SeqState → Nat
  | .idle => 0
  | .fin | .wfins => 1
  | .words | .tail | .wlen => 2
  | .awords | .apacks | .wsmall | .wblk | .wcasc | .wword | .wtail => 3
  | .aset => 4
  | .init => 5

theorem stage_le_five (q : SeqState) : stage q ≤ 5 := by cases q <;> decide

theorem stage_nw (r : Word) : stage (nw r) ≤ 2 := by
  unfold nw
  split_ifs <;> decide

theorem stage_afterInit32 (s : State) : stage (afterInit32 s) ≤ 4 := by
  have := stage_nw s.len
  unfold afterInit32
  split_ifs
  · exact le_rfl
  · omega

theorem stage_afterAligned (r : Word) : stage (afterAligned r) = 3 := by
  rcases RecombinationPath.afterAligned_cases r with h | h <;> rw [h] <;> rfl

theorem stage_afterApack (r : Word) : stage (afterApack r) ≤ 2 := by
  unfold afterApack
  split_ifs <;> decide

theorem stage_of_isStream {q : SeqState} (h : QuietRun.isStream q = true) : stage q ≤ 3 := by
  cases q <;> simp only [QuietRun.isStream, Bool.false_eq_true] at h <;> decide

theorem stage_afterWinit (len : Word) : stage (afterWinit len) ≤ 3 := by
  rcases WideDigest.afterWinit_cases len with ⟨h, -⟩ | ⟨h, -⟩
  · rw [h]
    exact le_rfl
  · exact stage_of_isStream h

theorem stage_afterBlk (k : BitVec 3) (r : Word) : stage (afterBlk k r) ≤ 3 :=
  stage_of_isStream (QuietRun.isStream_afterBlk k r)

theorem stage_afterSstep (r : Word) : stage (afterSstep r) ≤ 3 :=
  stage_of_isStream (QuietRun.isStream_afterSstep r)

/-! ### Each row advances the run -/

/-- The bytes a run has still to consume: REM, which the row INIT sets to LEN. -/
def bytesLeft (s : State) : Nat := if s.seq = .init then s.len.toNat else s.rem.toNat

theorem bytesLeft_of_init {s : State} (hs : s.seq = .init) : bytesLeft s = s.len.toNat := if_pos hs

theorem bytesLeft_of_ne_init {s : State} (hs : s.seq ≠ .init) : bytesLeft s = s.rem.toNat := if_neg hs

/-- A run with `n` bytes left in state `p` goes on with `r` bytes left in state `q`: a word is consumed, or no byte is
added and the stage is a later one. -/
def Advances (n : Nat) (p : SeqState) (r : Nat) (q : SeqState) : Prop :=
  (r + 4 ≤ n ∧ stage q ≤ stage p) ∨ (r ≤ n ∧ stage q < stage p)

/-- Every row of R241 but the two last, with the reason its run advances (R288). -/
theorem advances_rowResult {s : State} (h : SequencerOk s) (hidle : s.seq ≠ .idle) (hfin : s.seq ≠ .fin)
    (hwfins : s.seq ≠ .wfins) : Advances (bytesLeft s) s.seq (rowResult s).rem.toNat (rowResult s).seq := by
  obtain ⟨hwords, haset, hawords, -, -, -, -, hwblk, hwcasc, hwword, -, -, -⟩ := h
  cases hs : s.seq
  case idle => exact absurd hs hidle
  case fin => exact absurd hs hfin
  case wfins => exact absurd hs hwfins
  case init =>
    rw [bytesLeft_of_init hs]
    by_cases hm : s.modeq = .wide
    · rw [QuietRun.rowResult_winit hs hm]
      exact .inr ⟨le_rfl, (stage_afterWinit s.len).trans_lt (by decide)⟩
    · rw [QuietRun.rowResult_init32 hs hm]
      exact .inr ⟨le_rfl, (stage_afterInit32 s).trans_lt (by decide)⟩
  all_goals rw [bytesLeft_of_ne_init (by simp [hs])]
  case words =>
    obtain ⟨-, h4, -⟩ := hwords hs
    rw [WordPath.rowResult_words hs, writeWstep_rem, logReads_rem, sub_toNat h4]
    exact .inl ⟨by omega, stage_nw _⟩
  case aset =>
    obtain ⟨-, -, h4, hrem⟩ := haset hs
    rw [RecombinationPath.rem_rowResult_aset hs (hrem ▸ h4), RecombinationPath.rowResult_aset hs]
    exact .inr ⟨Nat.sub_le _ _, (stage_afterAligned _).trans_lt (by decide)⟩
  case awords =>
    obtain ⟨-, -, h4⟩ := hawords hs
    rw [RecombinationPath.rem_rowResult_awords hs h4, RecombinationPath.rowResult_awords hs]
    exact .inl ⟨by omega, (stage_afterAligned _).le⟩
  case apacks =>
    rw [RecombinationPath.rem_rowResult_apacks hs, RecombinationPath.rowResult_apacks hs]
    exact .inr ⟨Nat.sub_le _ _, (stage_afterApack _).trans_lt (by decide)⟩
  case tail =>
    rw [WordPath.rowResult_tail hs]
    exact .inr ⟨Nat.zero_le _, (by decide : stage .fin < stage .tail)⟩
  case wsmall =>
    rw [QuietRun.rowResult_wsmall hs]
    exact .inr ⟨Nat.zero_le _, (by decide : stage .wlen < stage .wsmall)⟩
  case wblk =>
    obtain ⟨-, h32, -⟩ := hwblk hs
    have hrem : (s.rem - BitVec.ofNat 32 (8 * (4#3).toNat)).toNat = s.rem.toNat - 32 := sub_toNat h32
    rw [QuietRun.rowResult_wblk hs, writeBlk_rem, logReads_rem, hrem, writeBlk_seq]
    exact .inl ⟨by omega, stage_afterBlk _ _⟩
  case wcasc =>
    obtain ⟨-, h8, h31, -⟩ := hwcasc hs
    obtain ⟨hle, -⟩ := cascadeLanes_bound h8 h31
    obtain ⟨h1, h3⟩ := cascadeLanes_range s.rem
    rw [QuietRun.rowResult_wcasc hs, writeBlk_rem, ofNat3_toNat (by omega), logReads_rem, sub_toNat hle]
    exact .inl ⟨by omega, stage_afterBlk _ _⟩
  case wword =>
    obtain ⟨-, h4, -⟩ := hwword hs
    rw [QuietRun.rowResult_wword hs, writeSstep_rem, logReads_rem, sub_toNat h4]
    exact .inl ⟨by omega, stage_afterSstep _⟩
  case wtail =>
    rw [QuietRun.rowResult_wtail hs]
    exact .inr ⟨Nat.zero_le _, (by decide : stage .wlen < stage .wtail)⟩
  case wlen =>
    rw [QuietRun.rowResult_wlen hs]
    exact .inr ⟨le_rfl, (by decide : stage .wfins < stage .wlen)⟩

/-! ### The run ends -/

/-- A bound on the steps a run has left: one for each whole word left, and those of the stages. -/
def stepBound (s : State) : Nat := bytesLeft s / 4 + stage s.seq

theorem stepBound_pos {s : State} (h : s.seq ≠ .idle) : 1 ≤ stepBound s := by
  have : 1 ≤ stage s.seq := by cases hs : s.seq <;> simp [stage, hs] at h ⊢
  exact this.trans (Nat.le_add_left _ _)

/-- A step that advances the run takes at least one off the bound. -/
theorem stepBound_lt_of_advances {s t : State} (ht : t.seq ≠ .init)
    (h : Advances (bytesLeft s) s.seq t.rem.toNat t.seq) : stepBound t < stepBound s := by
  unfold stepBound
  rw [bytesLeft_of_ne_init ht]
  rcases h with ⟨hrem, hstage⟩ | ⟨hrem, hstage⟩ <;> omega

/-- Before the first step and after it, no more bytes are left than LEN counts (R28). -/
theorem stepBound_le_len {s : State} (hc : Consistent s) (hb : s.busy = true) :
    stepBound s ≤ s.len.toNat / 4 + 5 := by
  have hbytes : bytesLeft s ≤ s.len.toNat := by
    by_cases hs : s.seq = .init
    · exact (bytesLeft_of_init hs).le
    · obtain ⟨-, -, hcursor, -⟩ := hc
      rw [bytesLeft_of_ne_init hs]
      exact (hcursor hb hs).1
  exact Nat.add_le_add (Nat.div_le_div_right hbytes) (stage_le_five s.seq)

/-- A command that runs and is left to the MIXER. -/
structure LeftToMixer (s : State) : Prop where
  consistent : Consistent s
  busy : s.busy = true
  agenda : s.agenda = []

/-- The run is over, DONE or with BUSERR (R287). -/
def Ended (t : State) : Prop :=
  t.busy = false ∧ ((t.done = true ∧ t.fault = false) ∨ (t.done = false ∧ t.fault = true ∧ t.fcode = .buserr))

theorem ended_busFaulted (a : Addr) (log : List ReadReq) (s : State) : Ended (busFaulted a log s) :=
  ⟨rfl, .inr ⟨rfl, rfl, rfl⟩⟩

theorem ended_finish {s : State} (d : Word) (hf : s.fault = false) : Ended (finish d s) := ⟨rfl, .inl ⟨rfl, hf⟩⟩

section
variable {s : State} (h : LeftToMixer s)
include h

theorem LeftToMixer.seq_ne_idle : s.seq ≠ .idle := AlignedReads.seq_ne_idle_of_busy h.consistent h.busy

/-- The row's reads are all served, or the first that is not ends the run (R254). -/
theorem LeftToMixer.step_cases :
    step s = .next (rowResult s) ∨ ∃ a log, step s = .next (busFaulted a log s) := by
  rw [Sequencer.step_of_mixerNext h.consistent h.busy (.inl ⟨h.agenda, rfl⟩),
    exec_row (Registers.sequencerOk_of_consistent h.consistent) h.seq_ne_idle]
  cases hfail : firstFailure s.cfg (reads s (rowInstr s)) with
  | none => exact .inl rfl
  | some a => exact .inr ⟨a, _, rfl⟩

/-- FIN32 and WFIN end the run; after every other row it goes on with a lower bound. -/
theorem LeftToMixer.rowResult_ends_or_goes_on :
    Ended (rowResult s) ∨ (LeftToMixer (rowResult s) ∧ stepBound (rowResult s) < stepBound s) := by
  obtain ⟨-, hfault, -⟩ := Registers.display_of_busy h.consistent h.busy
  by_cases hfin : s.seq = .fin
  · rw [QuietRun.rowResult_fin hfin]
    exact .inl (ended_finish _ hfault)
  by_cases hwfins : s.seq = .wfins
  · rw [QuietRun.rowResult_wfins hwfins]
    exact .inl (ended_finish _ hfault)
  obtain ⟨hbusy, -, -, -, -, -, -, -, -, -, -, hagenda, -⟩ := rowResult_frame s hfin hwfins
  obtain ⟨-, -, -, hinit⟩ := rowResult_sequencing h.consistent h.busy h.seq_ne_idle hfin hwfins
  have hadvances := advances_rowResult (Registers.sequencerOk_of_consistent h.consistent) h.seq_ne_idle hfin hwfins
  exact .inr ⟨⟨Registers.consistent_rowResult h.consistent h.busy h.seq_ne_idle, hbusy.trans h.busy,
    hagenda.trans h.agenda⟩, stepBound_lt_of_advances hinit hadvances⟩

theorem LeftToMixer.step_ends_or_goes_on :
    ∃ t, step s = .next t ∧ (Ended t ∨ (LeftToMixer t ∧ stepBound t < stepBound s)) := by
  rcases h.step_cases with hstep | ⟨a, log, hstep⟩
  · exact ⟨_, hstep, h.rowResult_ends_or_goes_on⟩
  · exact ⟨_, hstep, .inl (ended_busFaulted a log s)⟩

end

/-- A run ends within its bound. -/
theorem LeftToMixer.run_ends (k : Nat) {s : State} (h : LeftToMixer s) (hk : stepBound s ≤ k) :
    ∃ j t, j ≤ k ∧ Host.Core.run core j s = .next t ∧ Ended t := by
  induction k generalizing s with
  | zero =>
    have := stepBound_pos h.seq_ne_idle
    omega
  | succ k ih =>
    obtain ⟨u, hstep, hended | ⟨hu, hlower⟩⟩ := h.step_ends_or_goes_on
    · exact ⟨1, u, by omega, QuietRun.run_one hstep, hended⟩
    · obtain ⟨j, t, hj, hrun, hended⟩ := ih hu (by omega)
      exact ⟨j + 1, t, by omega, (QuietRun.run_succ hstep j).trans hrun, hended⟩

/-- Settles O53: the bound on the steps left is at most R288's in every busy state that meets the invariant. -/
theorem busyCommandEnds : Obligations.BusyCommandEnds := fun _ hc hb ha =>
  LeftToMixer.run_ends _ ⟨hc, hb, ha⟩ (stepBound_le_len hc hb)

end Sys2Proof.Proofs.Termination
end
